-- ==== Sys2Proof/Word.lean ====
section
/-! DEFINITION. The word types of the HUB75-BCM block and the one way a field is put into a 64-bit word. -/

namespace Sys2Proof

/-- A channel byte, 0..255 (spec/00_scope.md R14). -/
abbrev Byte := BitVec 8

/-- A pixel cell of the frame buffer: r in bits 23:16, g in 15:8, b in 7:0 (spec/20_memory.md R51). -/
abbrev Pixel := BitVec 24

/-- A command word, and the value of a CSR read (spec/30_encoding.md R71, R81). -/
abbrev Word := BitVec 64

/-- A length of time in ticks as `HOLD` and `TMR_N` hold it (spec/10_state.md R23, R30). -/
abbrev Ticks := BitVec 40

/-- The `m`-bit value that holds `v` with its bit 0 at bit `pos`, every other bit 0 (`w[hi:lo] = v`, spec/00_scope.md R10). -/
def placeIn (m : Nat) {n : Nat} (v : BitVec n) (pos : Nat) : BitVec m := v.setWidth m <<< pos

/-- `v` placed in a 64-bit word. -/
def place {n : Nat} (v : BitVec n) (pos : Nat) : Word := placeIn 64 v pos

/-- The bit `b` placed at bit `pos` of an `m`-bit value. -/
def placeBit (m : Nat) (b : Bool) (pos : Nat) : BitVec m := placeIn m (BitVec.ofBool b) pos

end Sys2Proof
end

