-- ==== Sys2Proof/Syntax.lean ====
section
/-! DEFINITION. The syntax: phases, the instructions (one constructor for each row of spec/opcode_table.json), and the acts of the host. -/

namespace Sys2Proof

/-- The phases of the sequencer (spec/30_encoding.md R78).
The reserved codes 12..15 have no constructor, so they cannot be expressed (R79). -/
inductive Phase
  | idle | plane | blank | addr | data | clkh | clkl | lath | latl | oeon | hold | oeoff
deriving DecidableEq, Repr

/-- The instructions: the nine host commands (spec/30_encoding.md R77), the CSR read (R81) and the twelve micro-operations (R78).
Coordinates and the brightness amount are mathematical integers (R75, R76); `Instr.wellFormed` bounds them. -/
inductive Instr
  /-- SETPX, spec/41_framebuffer_commands.md R100. -/
  | setpx (x y : Int) (r g b : Byte)
  /-- GETPX, R101. -/
  | getpx (x y : Int)
  /-- CLEAR, R102. -/
  | clear (r g b : Byte)
  /-- SWAP, R103. -/
  | swap
  /-- SETBRI, spec/43_control_commands.md R141. -/
  | setbri (level : Byte)
  /-- ADJBRI, R142. -/
  | adjbri (delta : Int)
  /-- SETUNIT, R143. -/
  | setunit (ticks : BitVec 32)
  /-- START, R144. -/
  | start
  /-- CANCEL, R145. -/
  | cancel
  /-- RDCSR, the read of CSR number `n` on the CSR read port, R151. -/
  | rdcsr (n : BitVec 4)
  /-- IDLE, spec/42_sequencer_microops.md R111. -/
  | idle
  /-- PLANE, R112. -/
  | plane
  /-- BLANK, R113. -/
  | blank
  /-- ADDR, R114. -/
  | addr
  /-- DATA, R115. -/
  | data
  /-- CLKH, R116. -/
  | clkh
  /-- CLKL, R117. -/
  | clkl
  /-- LATH, R118. -/
  | lath
  /-- LATL, R119. -/
  | latl
  /-- OEON, R120. -/
  | oeon
  /-- HOLD, R121. -/
  | hold
  /-- OEOFF, R123. -/
  | oeoff
deriving DecidableEq, Repr

/-- What the host agent does next: present a command word, read a CSR, or carry out one of the two directives of
spec/30_encoding.md R83, which repeat a read of STATUS until it shows what they wait for. -/
inductive HostAct
  /-- Present a command word on the command port (spec/00_scope.md R9). -/
  | command (w : Word)
  /-- Read CSR `n` on the read port. -/
  | readCsr (n : BitVec 4)
  /-- The directive `waitidle`. -/
  | waitIdle
  /-- The directive `waitphase`. -/
  | waitPhase (ph : Phase)
deriving DecidableEq, Repr

end Sys2Proof
end

