-- ==== Sys2Proof/WellFormed.lean ====
section
/-! DEFINITION. Which instructions have an encoding: the ranges of the integer operands. -/

namespace Sys2Proof

/-- A signed 16-bit coordinate is an integer in -32768 .. 32767 (spec/30_encoding.md R75). -/
def coordFits (v : Int) : Bool := decide (-32768 ≤ v) && decide (v ≤ 32767)

/-- A signed 32-bit brightness amount is an integer in -2^31 .. 2^31 - 1 (spec/30_encoding.md R76). -/
def deltaFits (v : Int) : Bool := decide (-2147483648 ≤ v) && decide (v ≤ 2147483647)

/-- The operands of `i` are values its encoding admits.
The byte, unit and CSR-number operands are in range by their types (R75, R76, R81). -/
def Instr.wellFormed : Instr → Bool
  | .setpx x y _ _ _ => coordFits x && coordFits y
  | .getpx x y => coordFits x && coordFits y
  | .clear _ _ _ => true
  | .swap => true
  | .setbri _ => true
  | .adjbri delta => deltaFits delta
  | .setunit _ => true
  | .start => true
  | .cancel => true
  | .rdcsr _ => true
  | .idle => true
  | .plane => true
  | .blank => true
  | .addr => true
  | .data => true
  | .clkh => true
  | .clkl => true
  | .lath => true
  | .latl => true
  | .oeon => true
  | .hold => true
  | .oeoff => true

end Sys2Proof
end

