-- ==== Sys2Proof/Decode.lean ====
section
/-! DEFINITION. The decoder and the encoder of the three encoding spaces: command words, CSR numbers, phase codes (spec/30_encoding.md R70). -/

namespace Sys2Proof

/-- A value of one of the three encoding spaces (spec/30_encoding.md R70). -/
inductive Code
  /-- A 64-bit command word on the command port. -/
  | command (w : Word)
  /-- A 4-bit CSR number on the read port. -/
  | csr (n : BitVec 4)
  /-- A 4-bit phase code, a value of `PHASE`. -/
  | phase (c : BitVec 4)
deriving DecidableEq, Repr

/-! ### Phase codes (R78) -/

/-- The code of a phase (spec/30_encoding.md R78). -/
def Phase.code : Phase → BitVec 4
  | .idle => 0
  | .plane => 1
  | .blank => 2
  | .addr => 3
  | .data => 4
  | .clkh => 5
  | .clkl => 6
  | .lath => 7
  | .latl => 8
  | .oeon => 9
  | .hold => 10
  | .oeoff => 11

/-- The phase of a code; codes 12..15 are reserved and name none (spec/30_encoding.md R78, R79). -/
def Phase.ofCode (c : BitVec 4) : Option Phase :=
  match c.toNat with
  | 0 => some .idle
  | 1 => some .plane
  | 2 => some .blank
  | 3 => some .addr
  | 4 => some .data
  | 5 => some .clkh
  | 6 => some .clkl
  | 7 => some .lath
  | 8 => some .latl
  | 9 => some .oeon
  | 10 => some .hold
  | 11 => some .oeoff
  | _ => none

/-- The micro-operation that the sequencer performs in a phase (spec/30_encoding.md R78). -/
def Phase.microOp : Phase → Instr
  | .idle => .idle
  | .plane => .plane
  | .blank => .blank
  | .addr => .addr
  | .data => .data
  | .clkh => .clkh
  | .clkl => .clkl
  | .lath => .lath
  | .latl => .latl
  | .oeon => .oeon
  | .hold => .hold
  | .oeoff => .oeoff

/-! ### The fields of a command word (R71 to R76) -/

/-- `op = w[63:56]` (R71). -/
def opField (w : Word) : BitVec 8 := w.extractLsb' 56 8

/-- The coordinate `y = sext_16(w[55:40])` (R75). -/
def yField (w : Word) : Int := (w.extractLsb' 40 16).toInt

/-- The coordinate `x = sext_16(w[39:24])` (R75). -/
def xField (w : Word) : Int := (w.extractLsb' 24 16).toInt

/-- The colour byte `r = w[23:16]` (R72). -/
def rField (w : Word) : Byte := w.extractLsb' 16 8

/-- The colour byte `g = w[15:8]` (R72). -/
def gField (w : Word) : Byte := w.extractLsb' 8 8

/-- The colour byte `b = w[7:0]` (R72). -/
def bField (w : Word) : Byte := w.extractLsb' 0 8

/-- `imm = w[31:0]` (R73). -/
def immField (w : Word) : BitVec 32 := w.extractLsb' 0 32

/-- The command that a word is, or none where the word is illegal: an unassigned `op`, or a reserved bit set
(spec/30_encoding.md R77, R79, R80). It reads no state. -/
def decodeCommand (w : Word) : Option Instr :=
  if opField w = 0x01#8 then
    some (.setpx (xField w) (yField w) (rField w) (gField w) (bField w))
  else if opField w = 0x02#8 then
    if w.extractLsb' 0 24 = 0#24 then some (.getpx (xField w) (yField w)) else none
  else if opField w = 0x03#8 then
    if w.extractLsb' 24 32 = 0#32 then some (.clear (rField w) (gField w) (bField w)) else none
  else if opField w = 0x04#8 then
    if w.extractLsb' 0 56 = 0#56 then some .swap else none
  else if opField w = 0x10#8 then
    if w.extractLsb' 8 48 = 0#48 then some (.setbri (w.extractLsb' 0 8)) else none
  else if opField w = 0x11#8 then
    if w.extractLsb' 32 24 = 0#24 then some (.adjbri (immField w).toInt) else none
  else if opField w = 0x12#8 then
    if w.extractLsb' 32 24 = 0#24 then some (.setunit (immField w)) else none
  else if opField w = 0x20#8 then
    if w.extractLsb' 0 56 = 0#56 then some .start else none
  else if opField w = 0x21#8 then
    if w.extractLsb' 0 56 = 0#56 then some .cancel else none
  else none

/-- The instruction that a value of an encoding space is. A CSR number cannot be illegal (R81). -/
def decode : Code → Option Instr
  | .command w => decodeCommand w
  | .csr n => some (.rdcsr n)
  | .phase c => (Phase.ofCode c).map Phase.microOp

/-! ### The encoder -/

/-- Format P: `op`, `y`, `x`, `r`, `g`, `b` (R72). -/
def formatP (op : BitVec 8) (y x : BitVec 16) (r g b : Byte) : Word :=
  place op 56 ||| place y 40 ||| place x 24 ||| place r 16 ||| place g 8 ||| place b 0

/-- Format V: `op` and `imm`, the bits between them 0 (R73). -/
def formatV (op : BitVec 8) (imm : BitVec 32) : Word := place op 56 ||| place imm 0

/-- Format N: `op`, every other bit 0 (R74). -/
def formatN (op : BitVec 8) : Word := place op 56

/-- The encoding of an instruction (spec/30_encoding.md R72 to R78, R81). -/
def encode : Instr → Code
  | .setpx x y r g b => .command (formatP 0x01#8 (BitVec.ofInt 16 y) (BitVec.ofInt 16 x) r g b)
  | .getpx x y => .command (formatP 0x02#8 (BitVec.ofInt 16 y) (BitVec.ofInt 16 x) 0 0 0)
  | .clear r g b => .command (formatP 0x03#8 0 0 r g b)
  | .swap => .command (formatN 0x04#8)
  | .setbri level => .command (formatV 0x10#8 (level.setWidth 32))
  | .adjbri delta => .command (formatV 0x11#8 (BitVec.ofInt 32 delta))
  | .setunit ticks => .command (formatV 0x12#8 ticks)
  | .start => .command (formatN 0x20#8)
  | .cancel => .command (formatN 0x21#8)
  | .rdcsr n => .csr n
  | .idle => .phase Phase.idle.code
  | .plane => .phase Phase.plane.code
  | .blank => .phase Phase.blank.code
  | .addr => .phase Phase.addr.code
  | .data => .phase Phase.data.code
  | .clkh => .phase Phase.clkh.code
  | .clkl => .phase Phase.clkl.code
  | .lath => .phase Phase.lath.code
  | .latl => .phase Phase.latl.code
  | .oeon => .phase Phase.oeon.code
  | .hold => .phase Phase.hold.code
  | .oeoff => .phase Phase.oeoff.code

/-! ### The table of match and mask values (R77) -/

/-- One row of the table of commands. -/
structure CommandRow where
  mnemonic : String
  pattern : Word
  mask : Word
deriving DecidableEq, Repr

/-- The table of spec/30_encoding.md R77. `decodeCommand` is written from the formats, so the two can be compared. -/
def commandRows : List CommandRow :=
  [ ⟨"SETPX", 0x0100000000000000, 0xFF00000000000000⟩,
    ⟨"GETPX", 0x0200000000000000, 0xFF00000000FFFFFF⟩,
    ⟨"CLEAR", 0x0300000000000000, 0xFFFFFFFFFF000000⟩,
    ⟨"SWAP", 0x0400000000000000, 0xFFFFFFFFFFFFFFFF⟩,
    ⟨"SETBRI", 0x1000000000000000, 0xFFFFFFFFFFFFFF00⟩,
    ⟨"ADJBRI", 0x1100000000000000, 0xFFFFFFFF00000000⟩,
    ⟨"SETUNIT", 0x1200000000000000, 0xFFFFFFFF00000000⟩,
    ⟨"START", 0x2000000000000000, 0xFFFFFFFFFFFFFFFF⟩,
    ⟨"CANCEL", 0x2100000000000000, 0xFFFFFFFFFFFFFFFF⟩ ]

/-- A word matches a row when `w AND mask = match` (R77). -/
def CommandRow.matches (row : CommandRow) (w : Word) : Bool := decide (w &&& row.mask = row.pattern)

/-- The mnemonic of an instruction, as spec/opcode_table.json spells it. -/
def Instr.mnemonic : Instr → String
  | .setpx _ _ _ _ _ => "SETPX"
  | .getpx _ _ => "GETPX"
  | .clear _ _ _ => "CLEAR"
  | .swap => "SWAP"
  | .setbri _ => "SETBRI"
  | .adjbri _ => "ADJBRI"
  | .setunit _ => "SETUNIT"
  | .start => "START"
  | .cancel => "CANCEL"
  | .rdcsr _ => "RDCSR"
  | .idle => "IDLE"
  | .plane => "PLANE"
  | .blank => "BLANK"
  | .addr => "ADDR"
  | .data => "DATA"
  | .clkh => "CLKH"
  | .clkl => "CLKL"
  | .lath => "LATH"
  | .latl => "LATL"
  | .oeon => "OEON"
  | .hold => "HOLD"
  | .oeoff => "OEOFF"

/-! ### Bytes and table words -/

/-- A command word carried as eight bytes, bits [7:0] first (spec/20_memory.md R63). -/
def wordToBytes (w : Word) : List Byte := (List.range 8).map fun i => w.extractLsb' (8 * i) 8

/-- The command word that eight bytes carry; any other number of bytes carries none. -/
def wordOfBytes (bs : List Byte) : Option Word :=
  if bs.length = 8 then some (bs.foldr (fun b acc => (acc <<< 8) ||| b.setWidth 64) 0) else none

/-- The encoding-space value of a table row's word of `nbits` bits with bits `w`.
Rows of more than one byte are command words.
The table writes phase codes and CSR numbers, two spaces of 4 bits each, without saying which: 0..11 is taken as a phase code
and 12..15, which no phase row of the table has, as a CSR number (DESIGN CHOICE, log entry 9). -/
def tableCode (nbits w : Nat) : Option Code :=
  if 8 < nbits then some (.command (BitVec.ofNat 64 w))
  else if w < 12 then some (.phase (BitVec.ofNat 4 w))
  else if w < 16 then some (.csr (BitVec.ofNat 4 w))
  else none

/-- The instruction the decoder reads from a table row's word. -/
def decodeTableWord (nbits w : Nat) : Option Instr := (tableCode nbits w).bind decode

end Sys2Proof
end

