-- ==== Sys2Proof/Config.lean ====
section
/-! DEFINITION. The configuration record of the block, the kinds of configuration error, the reference gamma tables, and the configuration that `State.reset` is built for. -/

namespace Sys2Proof

/-- A duration that a configuration does not list, by instruction and occurrence (spec/00_scope.md R6, D33).
A free value (log entry 12): nothing of it can be proved, and no step reads it. -/
opaque Config.freeDuration : Instr → Nat → Nat

/-- The implementation parameters (spec/00_scope.md R6), fixed when the block is built.
A value outside its legal range can be written down for every parameter that R161 has an error for; `Machine.configCheck` refuses it.
Brightness, unit and tick are in range by their types: R161 has no error for them. -/
structure Config where
  /-- `WIDTH`, pixels per row. -/
  width : Nat
  /-- `HEIGHT`, pixel rows. -/
  height : Nat
  /-- `COLOR_BITS`, bitplanes per channel. -/
  colorBits : Nat
  /-- `N_ADDR`, wired address lines. -/
  nAddr : Nat
  /-- `DBUF`, true for double buffering. -/
  dbuf : Bool
  /-- `INIT_BRIGHTNESS`. -/
  initBrightness : BitVec 8
  /-- `INIT_UNIT`, in ticks. -/
  initUnit : BitVec 32
  /-- `GAMMA`, entry `v` at position `v` (R32). -/
  gamma : List Nat
  /-- `TICK`, the length of one tick in a unit of time the spec leaves open; no step reads it. -/
  tick : { n : Nat // 0 < n }
  /-- `T_OP`, as ((instruction, occurrence), duration) in the unit of `tick`; no step reads it (R212).
  R6 speaks of the time of a micro-operation, and R212, D33 and U7 of a micro-operation or command.
  DESIGN CHOICE (log entry 12): it covers both, and the CSR read, by being kept by instruction.
  An occurrence that is not listed takes a free time, see `Machine.opTime`. -/
  tOp : List ((Instr × Nat) × Nat)
  /-- `OE_ACTIVE_LOW`; no step reads it (R12). -/
  oeActiveLow : Bool
  /-- `LAT_ACTIVE_HIGH`; no step reads it. -/
  latActiveHigh : Bool
  /-- `CLK_RISING`; no step reads it. -/
  clkRising : Bool
deriving DecidableEq, Repr

/-- The kinds of ConfigError (spec/60_exceptions.md R161). -/
inductive ConfigError
  | addressLines | oddHeight | heightRange | widthRange | colorBitsRange | addrLinesRange | gamma
deriving DecidableEq, Repr

/-- The reference table `GAMMA_LIN` (spec/40_gamma_mapper.md R96). -/
def Config.gammaLin (colorBits : Nat) : List Nat := (List.range 256).map fun v => v >>> (8 - colorBits)

/-- The reference table `GAMMA_SQ` (spec/40_gamma_mapper.md R96). -/
def Config.gammaSq (colorBits : Nat) : List Nat := (List.range 256).map fun v => v * v * (2 ^ colorBits - 1) / 65025

/-- The configuration of the spec's vectors A2 and B13 (spec/95_test_vectors.md), for which `State.reset` is built.
DESIGN CHOICE (log entry 1): the spec leaves every parameter open; no statement rests on this choice. -/
def Config.sample : Config where
  width := 64
  height := 32
  colorBits := 4
  nAddr := 4
  dbuf := true
  initBrightness := 255
  initUnit := 1000
  gamma := Config.gammaLin 4
  tick := ⟨1, by decide⟩
  tOp := []
  oeActiveLow := true
  latActiveHigh := true
  clkRising := true

end Sys2Proof
end

