-- ==== Sys2Proof/Machine/State.lean ====
section
/-! DEFINITION. The state of the machine, the reasons a step can stop, and the state after reset. -/

namespace Sys2Proof.Machine

/-- The frame-buffer cells as (cell address, pixel) pairs (spec/20_memory.md R50).
Canonical form (`Memory.wf`): addresses strictly rising, no entry equal to `Memory.unlistedPixel`. -/
abbrev Memory := List (Nat × Pixel)

/-- The pin register `PINS` in logical levels (spec/10_state.md R33): DATAPINS, ADDRPINS and the three control pins.
`Pins.word` is the register as the 14-bit value that CSR PINS and the trace show. -/
structure Pins where
  /-- `PINS[5:0]`, bits B2 G2 R2 B1 G1 R1. -/
  data : BitVec 6
  /-- `PINS[10:6]`, bits E D C B A. -/
  addr : BitVec 5
  /-- `PINS[11]`. -/
  clk : Bool
  /-- `PINS[12]`. -/
  lat : Bool
  /-- `PINS[13]`, 1 = output enabled. -/
  oe : Bool
deriving DecidableEq, Repr

/-- The observable events (spec/70_reset_and_hazards.md R214). -/
inductive Event
  | refreshStart (front : Bool)
  | pins (v : BitVec 14)
  | wait (n : Ticks)
  | waitDone
  | cancelled
  | refreshDone
deriving DecidableEq, Repr

/-- One CSR read: the number and the value the read port returned (spec/43_control_commands.md R151). -/
structure CsrRead where
  n : BitVec 4
  value : Word
deriving DecidableEq, Repr

/-- Whose step is next. Every total order of the agents' atomic steps is a list of turns (spec/20_memory.md R58, D24). -/
inductive Turn
  /-- The host takes its next act (spec/00_scope.md R9). -/
  | host
  /-- The sequencer takes its step (R9). -/
  | sequencer
  /-- The timing capability completes its wait (R9, spec/42_sequencer_microops.md R127). -/
  | timer
  /-- One tick of time passes (spec/70_reset_and_hazards.md R213). -/
  | tick
  /-- The platform resets the block; the frame-buffer cells then hold `cells`, which the spec leaves arbitrary (R190, D27). -/
  | reset (cells : List (Nat × Pixel))
deriving DecidableEq, Repr

/-- The machine. The fields from `bri` to `pins` are the complete state of the block (spec/10_state.md R20).
The others are the model's: the immutable configuration, the explicit time of R213, the record of what the block
showed to the world (R214, R151), and what the environment is going to do. -/
structure State where
  /-- The configuration (spec/00_scope.md R6). No step changes it. -/
  cfg : Config
  /-- `BRI` (R21). -/
  bri : BitVec 8
  /-- `UNIT` (R22). -/
  unit : BitVec 32
  /-- `HOLD` (R23). -/
  hold : Ticks
  /-- `RESP`, bit 24 VALID, bits 23:0 the pixel (R24). -/
  resp : BitVec 25
  /-- `PHASE` (R26). -/
  phase : Phase
  /-- `P`, the bitplane (R26). -/
  p : BitVec 3
  /-- `R`, the row (R26). -/
  r : BitVec 5
  /-- `C`, the column (R26). -/
  c : BitVec 16
  /-- `FRONT` (R28). -/
  front : Bool
  /-- `SWAP_PENDING` (R28). -/
  swapPending : Bool
  /-- `CANCEL_PENDING` (R28). -/
  cancelPending : Bool
  /-- `DONE` (R28). -/
  done : Bool
  /-- `CANCELLED` (R28). -/
  cancelled : Bool
  /-- `CMDERR` (R28). -/
  cmderr : Bool
  /-- `TMR_ARMED` (R30). -/
  tmrArmed : Bool
  /-- `TMR_N` (R30). -/
  tmrN : Ticks
  /-- `FB[0]` and, when `DBUF`, `FB[1]`, by cell address (R31, spec/20_memory.md R66). -/
  fb : Memory
  /-- `PINS` (R33). -/
  pins : Pins
  /-- `NOW` (spec/70_reset_and_hazards.md R213). -/
  now : Nat
  /-- `TMR_DEADLINE` (R213). -/
  tmrDeadline : Nat
  /-- The observable trace, newest event first (R214). -/
  trace : List Event
  /-- The CSR reads of the host, newest first: what R151 returns. -/
  reads : List CsrRead
  /-- What the host is going to do, first act first. -/
  host : List HostAct
  /-- Whose steps come next, in order. -/
  agenda : List Turn
deriving DecidableEq, Repr

/-- Why a step stops. -/
inductive Fault
  /-- Raised by the meaning of a micro-operation asked for in a phase that does not name it: no step is enabled there
  (spec/00_scope.md R11). `step` never asks so. Safe: the machine stops where the spec defines no step. -/
  | notEnabled
  /-- Raised by an access to a frame-buffer cell or pixel that does not exist (spec/20_memory.md R52, R53).
  No state with the invariants of R209 and R210 raises it. Safe. -/
  | noSuchCell
  /-- Raised by DATA with `P` at or above `COLOR_BITS`, where `plane_bit` is not defined (spec/40_gamma_mapper.md R93).
  No state with the invariant of R210 raises it. Safe. -/
  | noSuchPlane
deriving DecidableEq, Repr

/-- Why a step has no meaning. -/
inductive Refusal
  /-- Raised by an arm of `exec` whose instruction has no meaning yet. Safe. -/
  | notModelled (mnemonic : String)
  /-- Raised by `construct` on an invalid configuration: the block is not built (spec/60_exceptions.md R161). Safe. -/
  | configError (kind : ConfigError)
deriving DecidableEq, Repr

/-- The state right after reset of a block built for `cfg`, the frame-buffer cells holding `fb`
(spec/10_state.md R45, spec/70_reset_and_hazards.md R190).
The spec leaves `fb` arbitrary, so it is an argument. -/
def State.resetWith (cfg : Config) (fb : Memory) : State where
  cfg := cfg
  bri := cfg.initBrightness
  unit := cfg.initUnit
  hold := 0
  resp := 0
  phase := .idle
  p := 0
  r := 0
  c := 0
  front := false
  swapPending := false
  cancelPending := false
  done := false
  cancelled := false
  cmderr := false
  tmrArmed := false
  tmrN := 0
  fb := fb
  pins := ⟨0, 0, false, false, false⟩
  now := 0
  tmrDeadline := 0
  trace := []
  reads := []
  host := []
  agenda := []

/-- The machine right after reset: the sample configuration, no cell listed (log entries 1 and 2). -/
def State.reset : State := State.resetWith Config.sample []

end Sys2Proof.Machine
end

