-- ==== Sys2Proof/Machine/Geometry.lean ====
section
/-! DEFINITION. The derived constants of a configuration (spec/00_scope.md R7) and the physical pin levels (R12). -/

namespace Sys2Proof.Machine

/-- `clog2(n)`: the least `k` with `2^k >= n` (spec/00_scope.md R10). -/
def clog2 (n : Nat) : Nat := ((List.range (n + 1)).find? fun k => decide (n ≤ 2 ^ k)).getD n

/-- `ROWS = HEIGHT / 2` (R7). -/
def rows (cfg : Config) : Nat := cfg.height / 2

/-- `ADDRESS_BITS = clog2(ROWS)` (R7). -/
def addressBits (cfg : Config) : Nat := clog2 (rows cfg)

/-- `NPIX = WIDTH * HEIGHT` (R7). -/
def npix (cfg : Config) : Nat := cfg.width * cfg.height

/-- `MAXI = 2^COLOR_BITS - 1` (R7). -/
def maxIntensity (cfg : Config) : Nat := 2 ^ cfg.colorBits - 1

/-- `NBUF`, 2 with double buffering and 1 without (spec/20_memory.md R50). -/
def nbuf (cfg : Config) : Nat := if cfg.dbuf then 2 else 1

/-- How many frame-buffer cells exist: addresses `0 .. NBUF * NPIX - 1` (spec/20_memory.md R50). -/
def cellCount (cfg : Config) : Nat := nbuf cfg * npix cfg

/-- The physical level of the OE pin: the logical level, inverted when the polarity parameter says so (spec/00_scope.md R12). -/
def physicalOe (cfg : Config) (pins : Pins) : Bool := if cfg.oeActiveLow then !pins.oe else pins.oe

/-- The physical level of the LAT pin (R12). -/
def physicalLat (cfg : Config) (pins : Pins) : Bool := if cfg.latActiveHigh then pins.lat else !pins.lat

/-- The physical level of the CLK pin (R12). -/
def physicalClk (cfg : Config) (pins : Pins) : Bool := if cfg.clkRising then pins.clk else !pins.clk

/-- `T_OP`: the time the `n`-th occurrence of an instruction takes, in the unit of `TICK` (spec/00_scope.md R6).
That it covers host commands and CSR reads beside the micro-operations is the model's choice (DESIGN CHOICE, log entry 12).
Timing information only: no step reads it. An occurrence that the configuration does not list takes a free time (log entry 12). -/
def opTime (cfg : Config) (i : Instr) (n : Nat) : Nat := (cfg.tOp.lookup (i, n)).getD (Config.freeDuration i n)

/-- The nominal length of a refresh with `BRI` and `UNIT` unchanged, DOC0's formula in the terms of spec/70_reset_and_hazards.md R212.
`tPlane` is the time of one PLANE step, `tRow` that of the other sequencer steps of one row, `su` the scaled unit.
Timing information only: no step reads it. -/
def refreshTime (cfg : Config) (su tPlane tRow lateness : Nat) : Nat :=
  cfg.colorBits * tPlane + cfg.colorBits * rows cfg * tRow
    + rows cfg * (2 ^ cfg.colorBits - 1) * su * cfg.tick.val + lateness

end Sys2Proof.Machine
end

