-- ==== Sys2Proof/Machine/Memory.lean ====
section
/-! DEFINITION. The frame-buffer memory in canonical form: reading a cell, writing a run of cells (spec/20_memory.md R52, R53). -/

namespace Sys2Proof.Machine

/-- What a cell that the list does not name holds. The contents of the cells after reset are arbitrary (spec/10_state.md R31);
this value only fixes what a list leaves unsaid (DESIGN CHOICE, log entry 2). -/
def Memory.unlistedPixel : Pixel := 0

/-- The canonical form: addresses strictly rising, no entry equal to what an unlisted cell holds. -/
abbrev Memory.wf (m : Memory) : Prop :=
  m.Pairwise (fun e f => e.1 < f.1) ∧ ∀ e ∈ m, e.2 ≠ Memory.unlistedPixel

/-- The contents of cell `a` (R52). -/
def Memory.read (m : Memory) (a : Nat) : Pixel :=
  ((m.find? fun e => e.1 == a).map (·.2)).getD Memory.unlistedPixel

/-- The cells `base .. base + n - 1` set to `v`, every other cell as before. -/
def Memory.fill (m : Memory) (base n : Nat) (v : Pixel) : Memory :=
  m.filter (fun e => decide (e.1 < base))
    ++ (if v = Memory.unlistedPixel then [] else (List.range n).map fun i => (base + i, v))
    ++ m.filter (fun e => decide (base + n ≤ e.1))

/-- Cell `a` set to `v` (R53). -/
def Memory.write (m : Memory) (a : Nat) (v : Pixel) : Memory := Memory.fill m a 1 v

/-- The memory of `bound` cells that a list of (address, pixel) pairs describes, a later pair over an earlier one.
Pairs for cells that do not exist are dropped. -/
def Memory.ofCells (bound : Nat) (cells : List (Nat × Pixel)) : Memory :=
  cells.foldl (fun m e => if e.1 < bound then Memory.write m e.1 e.2 else m) []

end Sys2Proof.Machine
end

