-- ==== Sys2Proof/Machine/Operands.lean ====
section
/-! DEFINITION. The operand forms: coordinates, cell addresses, buffers, colours, the brightness sum, hold lengths, address pins. -/

namespace Sys2Proof.Machine

/-- The pair (x, y) is in range (spec/20_memory.md R54). -/
def inRange (cfg : Config) (x y : Int) : Bool :=
  decide (0 ≤ x) && decide (x < cfg.width) && decide (0 ≤ y) && decide (y < cfg.height)

/-- `cell(b, x, y) = b * NPIX + y * WIDTH + x` (spec/20_memory.md R54). -/
def cellAddr (cfg : Config) (b x y : Nat) : Nat := b * npix cfg + y * cfg.width + x

/-- The cell of pixel (x, y) of buffer `b`: only an in-range pair is turned into an address (spec/20_memory.md R54). -/
def pixelCell (cfg : Config) (b : Nat) (x y : Int) : Option Nat :=
  if inRange cfg x y then some (cellAddr cfg b x.toNat y.toNat) else none

/-- `DRAW`, the buffer that host pixel commands act on (spec/20_memory.md R55). -/
def State.draw (s : State) : Nat := if s.cfg.dbuf then 1 - s.front.toNat else 0

/-- The scan buffer `FRONT` (spec/20_memory.md R55). -/
def State.scan (s : State) : Nat := s.front.toNat

/-- `color = r, g, b`, `r` most significant (spec/30_encoding.md R75). -/
def color (r g b : Byte) : Pixel := r ++ g ++ b

/-- `clamp(v, 0, 255)` on mathematical integers (spec/00_scope.md R10). -/
def clampByte (v : Int) : Int := if v < 0 then 0 else if 255 < v then 255 else v

/-- `clamp(BRI + delta, 0, 255)` (spec/43_control_commands.md R142). -/
def adjustedBri (bri : BitVec 8) (delta : Int) : BitVec 8 := BitVec.ofInt 8 (clampByte (bri.toNat + delta))

/-- `SU = (UNIT * BRI) div 255` on naturals (spec/42_sequencer_microops.md R112). -/
def scaledUnit (unit : BitVec 32) (bri : BitVec 8) : Nat := unit.toNat * bri.toNat / 255

/-- `SU << P` (spec/42_sequencer_microops.md R112). -/
def holdLength (unit : BitVec 32) (bri : BitVec 8) (p : BitVec 3) : Ticks :=
  BitVec.ofNat 40 (scaledUnit unit bri <<< p.toNat)

/-- The address pins for row `r`: wired line `i` carries bit `i`, an unwired line is 0 (spec/42_sequencer_microops.md R114). -/
def addressPins (cfg : Config) (r : BitVec 5) : BitVec 5 := r &&& BitVec.ofNat 5 (2 ^ cfg.nAddr - 1)

/-- `{VALID, pixel}` (spec/10_state.md R24). -/
def respWord (valid : Bool) (v : Pixel) : BitVec 25 := BitVec.ofBool valid ++ v

end Sys2Proof.Machine
end

