-- ==== Sys2Proof/Machine/Flags.lean ====
section
/-! DEFINITION. The flags and the words the host reads: BUSY, the flips, the pin word, the eight CSRs (spec/10_state.md). -/

namespace Sys2Proof.Machine

/-- `BUSY`, derived: `PHASE != IDLE` (spec/10_state.md R27). -/
def State.busy (s : State) : Bool := decide (s.phase ≠ .idle)

/-- `1 - b` on the bits 0 and 1 (spec/42_sequencer_microops.md R132 (f)). -/
def flipBit (b : Bool) : Bool := !b

/-- `PINS` as a 14-bit value: DATAPINS in bits 5:0, ADDRPINS in 10:6, CLK, LAT and OE in 11, 12 and 13 (spec/10_state.md R33). -/
def Pins.word (pins : Pins) : BitVec 14 :=
  placeIn 14 pins.data 0 ||| placeIn 14 pins.addr 6 ||| placeBit 14 pins.clk 11 ||| placeBit 14 pins.lat 12
    ||| placeBit 14 pins.oe 13

/-- CSR 0 `GEOM` (R36). -/
def geomWord (cfg : Config) : Word :=
  place (BitVec.ofNat 16 cfg.width) 0 ||| place (BitVec.ofNat 7 cfg.height) 16
    ||| place (BitVec.ofNat 4 cfg.colorBits) 23 ||| place (BitVec.ofNat 3 (addressBits cfg)) 27
    ||| place (BitVec.ofNat 3 cfg.nAddr) 30 ||| placeBit 64 cfg.dbuf 33

/-- CSR 1 `STATUS` (R37). -/
def State.statusWord (s : State) : Word :=
  place s.phase.code 0 ||| placeBit 64 s.busy 4 ||| placeBit 64 s.front 5
    ||| placeBit 64 s.swapPending 6 ||| placeBit 64 s.cancelPending 7
    ||| placeBit 64 s.done 8 ||| placeBit 64 s.cancelled 9
    ||| placeBit 64 s.cmderr 10 ||| placeBit 64 s.tmrArmed 11

/-- CSR 2 `POS` (R38). -/
def State.posWord (s : State) : Word := place s.p 0 ||| place s.r 3 ||| place s.c 8

/-- The value of CSR `n`: R36 to R43 for 0..7, zero for the reserved numbers 8..15 (R35, spec/30_encoding.md R81). -/
def State.csr (s : State) (n : BitVec 4) : Word :=
  match n.toNat with
  | 0 => geomWord s.cfg
  | 1 => s.statusWord
  | 2 => s.posWord
  | 3 => place s.bri 0
  | 4 => place s.unit 0
  | 5 => place s.hold 0
  | 6 => place s.pins.word 0
  | 7 => place s.resp 0
  | _ => 0

end Sys2Proof.Machine
end

