-- ==== Sys2Proof/Machine/Mapper.lean ====
section
/-! DEFINITION. The color/gamma pixel-to-intensity mapper (spec/40_gamma_mapper.md). -/

namespace Sys2Proof.Machine

/-- `plane_intensity(v) = GAMMA[v]` (R92). The contract R91 (a) gives every byte an entry; 0 stands for an entry a table lacks. -/
def planeIntensity (cfg : Config) (v : Byte) : Nat := cfg.gamma.getD v.toNat 0

/-- `plane_bit(v, p)`, bit `p` of the intensity, for a bitplane `p` below `COLOR_BITS` (R93). -/
def planeBit (cfg : Config) (v : Byte) (p : Fin cfg.colorBits) : Bool := (planeIntensity cfg v).testBit p

/-- The red byte of a cell (spec/20_memory.md R51). -/
def redOf (v : Pixel) : Byte := v.extractLsb' 16 8

/-- The green byte of a cell. -/
def greenOf (v : Pixel) : Byte := v.extractLsb' 8 8

/-- The blue byte of a cell. -/
def blueOf (v : Pixel) : Byte := v.extractLsb' 0 8

/-- `sixbits(up, lo, p)`: bits 0 to 5 are R1, G1, B1, R2, G2, B2 (R94). -/
def sixbits (cfg : Config) (up lo : Pixel) (p : Fin cfg.colorBits) : BitVec 6 :=
  placeBit 6 (planeBit cfg (redOf up) p) 0 ||| placeBit 6 (planeBit cfg (greenOf up) p) 1
    ||| placeBit 6 (planeBit cfg (blueOf up) p) 2 ||| placeBit 6 (planeBit cfg (redOf lo) p) 3
    ||| placeBit 6 (planeBit cfg (greenOf lo) p) 4 ||| placeBit 6 (planeBit cfg (blueOf lo) p) 5

end Sys2Proof.Machine
end

