-- ==== Sys2Proof/Machine/Ops.lean ====
section
/-! DEFINITION. The named operations that the meanings share: memory access, events, the enabling condition, the illegal command, the timer's step, the cancel step, reset. -/

namespace Sys2Proof.Machine

/-! ### Memory -/

/-- `MemRead(a, 1)`: none where the cell does not exist (spec/20_memory.md R52). -/
def State.memRead (s : State) (a : Nat) : Option Pixel :=
  if a < cellCount s.cfg then some (Memory.read s.fb a) else none

/-- The pixel (x, y) of buffer `b`: none where the pair is out of range or the buffer does not exist. -/
def State.pixelAt (s : State) (b : Nat) (x y : Int) : Option Pixel := (pixelCell s.cfg b x y).bind s.memRead

/-- `MemWrite(a, 1, v)` (spec/20_memory.md R53); a cell that does not exist is a fault. -/
def State.memWrite (s : State) (a : Nat) (v : Pixel) : Host.Outcome State Fault Refusal :=
  if a < cellCount s.cfg then .next { s with fb := Memory.write s.fb a v } else .fault .noSuchCell

/-- Every cell of buffer `b` set to `v` (spec/41_framebuffer_commands.md R102). -/
def State.fillBuffer (s : State) (b : Nat) (v : Pixel) : State :=
  { s with fb := Memory.fill s.fb (b * npix s.cfg) (npix s.cfg) v }

/-! ### Events -/

/-- `emit E` (spec/00_scope.md R11). -/
def State.emit (s : State) (e : Event) : State := { s with trace := e :: s.trace }

/-- `emit Pins`, with the value of `PINS` after the step (spec/70_reset_and_hazards.md R214). -/
def State.emitPins (s : State) : State := s.emit (.pins s.pins.word)

/-! ### Enabling conditions -/

/-- `when PHASE = ph`: the micro-operation is enabled only in its phase (spec/00_scope.md R11). -/
def whenPhase (ph : Phase) (s : State) (k : Host.Outcome State Fault Refusal) : Host.Outcome State Fault Refusal :=
  if s.phase = ph then k else .fault .notEnabled

/-- The timer's completion is enabled (spec/42_sequencer_microops.md R127): in HOLD, armed, and not before the deadline of R213. -/
def State.timerEnabled (s : State) : Bool :=
  decide (s.phase = .hold) && s.tmrArmed && decide (s.tmrDeadline ≤ s.now)

/-- The cancel step is enabled (R128). -/
def State.cancelEnabled (s : State) : Bool := decide (s.phase = .hold) && s.cancelPending

/-! ### The exceptional events (spec/60_exceptions.md R160) -/

/-- `raise IllegalCommand`: `CMDERR <- 1` and nothing else (spec/60_exceptions.md R163).
There is no trap entry and no return (R169, R170). -/
def State.illegalCommand (s : State) : State := { s with cmderr := true }

/-- The cancel step (spec/42_sequencer_microops.md R128). -/
def State.cancelStep (s : State) : State :=
  ({ s with
      pins := { s.pins with oe := false }
      tmrArmed := false
      phase := .idle
      cancelled := true
      cancelPending := false }).emitPins.emit .cancelled

/-- The timer's completion (spec/42_sequencer_microops.md R127). -/
def State.timerComplete (s : State) : State :=
  ({ s with tmrArmed := false, phase := .oeoff }).emit .waitDone

/-- Reset of a running block (spec/70_reset_and_hazards.md R190, R191), the cells then holding `cells`.
Time goes on, and what the host has read, what it is going to do and the order of steps are not the block's.
The pins go to 0, which the trace shows (DESIGN CHOICE, log entry 6). -/
def State.resetStep (s : State) (cells : List (Nat × Pixel)) : State :=
  { State.resetWith s.cfg (Memory.ofCells (cellCount s.cfg) cells) with
    now := s.now
    trace := .pins 0 :: s.trace
    reads := s.reads
    host := s.host
    agenda := s.agenda }

end Sys2Proof.Machine
end

