-- ==== Sys2Proof/Machine/Control.lean ====
section
/-! DEFINITION. The meanings of SETBRI, ADJBRI, SETUNIT, START, CANCEL and RDCSR (spec/43_control_commands.md). -/

namespace Sys2Proof.Machine

/-- SETBRI (R141). -/
def execSetbri (level : Byte) (s : State) : Host.Outcome State Fault Refusal :=
  .next { s with bri := level }

/-- ADJBRI (R142). -/
def execAdjbri (delta : Int) (s : State) : Host.Outcome State Fault Refusal :=
  .next { s with bri := adjustedBri s.bri delta }

/-- SETUNIT (R143). -/
def execSetunit (ticks : BitVec 32) (s : State) : Host.Outcome State Fault Refusal :=
  .next { s with unit := ticks }

/-- `FRONT` after a START: a pending swap is applied (R144). -/
def State.frontAfterStart (s : State) : Bool := if s.swapPending then flipBit s.front else s.front

/-- START (R144). While busy it does nothing. -/
def execStart (s : State) : Host.Outcome State Fault Refusal :=
  if s.phase = .idle then
    .next (({ s with
        front := s.frontAfterStart
        swapPending := false
        done := false
        cancelled := false
        cancelPending := false
        p := 0
        r := 0
        c := 0
        phase := .plane }).emit (.refreshStart s.frontAfterStart))
  else .next s

/-- CANCEL (R145). While idle it does nothing. -/
def execCancel (s : State) : Host.Outcome State Fault Refusal :=
  if s.phase = .idle then .next s else .next { s with cancelPending := true }

/-- RDCSR (R151): the value goes to the host, the block's state is untouched. -/
def execRdcsr (n : BitVec 4) (s : State) : Host.Outcome State Fault Refusal :=
  .next { s with reads := ⟨n, s.csr n⟩ :: s.reads }

end Sys2Proof.Machine
end

