-- ==== Sys2Proof/Machine/FrameBuffer.lean ====
section
/-! DEFINITION. The meanings of SETPX, GETPX, CLEAR and SWAP (spec/41_framebuffer_commands.md). -/

namespace Sys2Proof.Machine

/-- SETPX (R100). Out of range is no error and changes nothing (spec/60_exceptions.md R164). -/
def execSetpx (x y : Int) (r g b : Byte) (s : State) : Host.Outcome State Fault Refusal :=
  match pixelCell s.cfg s.draw x y with
  | some a => s.memWrite a (color r g b)
  | none => .next s

/-- GETPX (R101). Out of range gives VALID = 0 and colour zero. -/
def execGetpx (x y : Int) (s : State) : Host.Outcome State Fault Refusal :=
  match pixelCell s.cfg s.draw x y with
  | none => .next { s with resp := respWord false 0 }
  | some a =>
    match s.memRead a with
    | some v => .next { s with resp := respWord true v }
    | none => .fault .noSuchCell

/-- CLEAR (R102): the whole draw buffer, which always exists, in one step. -/
def execClear (r g b : Byte) (s : State) : Host.Outcome State Fault Refusal :=
  .next (s.fillBuffer s.draw (color r g b))

/-- SWAP (R103). -/
def execSwap (s : State) : Host.Outcome State Fault Refusal :=
  if s.cfg.dbuf = false then .next s
  else if s.phase = .idle then .next { s with front := flipBit s.front }
  else .next { s with swapPending := flipBit s.swapPending }

end Sys2Proof.Machine
end

