-- ==== Sys2Proof/Machine/Sequencer.lean ====
section
/-! DEFINITION. The meanings of the twelve micro-operations (spec/42_sequencer_microops.md). -/

namespace Sys2Proof.Machine

/-- IDLE (R111): the sequencer does nothing on its own. -/
def execIdle (s : State) : Host.Outcome State Fault Refusal :=
  whenPhase .idle s (.next s)

/-- PLANE (R112). -/
def execPlane (s : State) : Host.Outcome State Fault Refusal :=
  whenPhase .plane s (.next { s with hold := holdLength s.unit s.bri s.p, r := 0, phase := .blank })

/-- BLANK (R113). -/
def execBlank (s : State) : Host.Outcome State Fault Refusal :=
  whenPhase .blank s (.next ({ s with pins := { s.pins with oe := false }, phase := .addr }).emitPins)

/-- ADDR (R114). -/
def execAddr (s : State) : Host.Outcome State Fault Refusal :=
  whenPhase .addr s
    (.next ({ s with pins := { s.pins with addr := addressPins s.cfg s.r }, c := 0, phase := .data }).emitPins)

/-- DATA (R115): pixels (C, R) and (C, R + ROWS) of the scan buffer.
`P` is below `COLOR_BITS` in every state with the invariant (R210), which is what `plane_bit` needs (R93). -/
def execData (s : State) : Host.Outcome State Fault Refusal :=
  whenPhase .data s
    (match s.pixelAt s.scan s.c.toNat s.r.toNat, s.pixelAt s.scan s.c.toNat (s.r.toNat + rows s.cfg : Nat) with
    | some up, some lo =>
      if hp : s.p.toNat < s.cfg.colorBits then
        .next ({ s with
          pins := { s.pins with data := sixbits s.cfg up lo ⟨s.p.toNat, hp⟩ }, phase := .clkh }).emitPins
      else .fault .noSuchPlane
    | _, _ => .fault .noSuchCell)

/-- CLKH (R116). -/
def execClkh (s : State) : Host.Outcome State Fault Refusal :=
  whenPhase .clkh s (.next ({ s with pins := { s.pins with clk := true }, phase := .clkl }).emitPins)

/-- CLKL (R117). -/
def execClkl (s : State) : Host.Outcome State Fault Refusal :=
  whenPhase .clkl s
    (.next ({ s with
        pins := { s.pins with clk := false }
        c := BitVec.ofNat 16 (s.c.toNat + 1)
        phase := if s.c.toNat + 1 < s.cfg.width then .data else .lath }).emitPins)

/-- LATH (R118). -/
def execLath (s : State) : Host.Outcome State Fault Refusal :=
  whenPhase .lath s (.next ({ s with pins := { s.pins with lat := true }, phase := .latl }).emitPins)

/-- LATL (R119). -/
def execLatl (s : State) : Host.Outcome State Fault Refusal :=
  whenPhase .latl s (.next ({ s with pins := { s.pins with lat := false }, phase := .oeon }).emitPins)

/-- OEON (R120); the deadline is that of spec/70_reset_and_hazards.md R213. -/
def execOeon (s : State) : Host.Outcome State Fault Refusal :=
  whenPhase .oeon s
    (.next (({ s with
        pins := { s.pins with oe := true }
        tmrArmed := true
        tmrN := s.hold
        tmrDeadline := s.now + s.hold.toNat
        phase := .hold }).emitPins.emit (.wait s.hold)))

/-- HOLD (R121): suspended on the timer. The sequencer's only possible step is the cancel step (R110, R128);
the timer's completion (R127) is a step of the timer agent. -/
def execHold (s : State) : Host.Outcome State Fault Refusal :=
  whenPhase .hold s (if s.cancelPending then .next s.cancelStep else .next s)

/-- OEOFF (R123): the next row, the next bitplane, or the end of the refresh. -/
def execOeoff (s : State) : Host.Outcome State Fault Refusal :=
  whenPhase .oeoff s
    (if s.r.toNat + 1 < rows s.cfg then
      .next ({ s with
        pins := { s.pins with oe := false }, r := BitVec.ofNat 5 (s.r.toNat + 1), phase := .blank }).emitPins
    else if s.p.toNat + 1 < s.cfg.colorBits then
      .next ({ s with
        pins := { s.pins with oe := false }, p := BitVec.ofNat 3 (s.p.toNat + 1), phase := .plane }).emitPins
    else
      .next (({ s with
        pins := { s.pins with oe := false }, phase := .idle, done := true, cancelPending := false }).emitPins.emit
          .refreshDone))

end Sys2Proof.Machine
end

