-- ==== Sys2Proof/Machine/Dispatch.lean ====
section
/-! DEFINITION. The meaning of each instruction: one arm per constructor, one direct call. -/

namespace Sys2Proof.Machine

def exec (i : Instr) (s : State) : Host.Outcome State Fault Refusal :=
  match i with
  | .setpx x y r g b => Sys2Proof.Machine.execSetpx x y r g b s
  | .getpx x y => Sys2Proof.Machine.execGetpx x y s
  | .clear r g b => Sys2Proof.Machine.execClear r g b s
  | .swap => Sys2Proof.Machine.execSwap s
  | .setbri level => Sys2Proof.Machine.execSetbri level s
  | .adjbri delta => Sys2Proof.Machine.execAdjbri delta s
  | .setunit ticks => Sys2Proof.Machine.execSetunit ticks s
  | .start => Sys2Proof.Machine.execStart s
  | .cancel => Sys2Proof.Machine.execCancel s
  | .rdcsr n => Sys2Proof.Machine.execRdcsr n s
  | .idle => Sys2Proof.Machine.execIdle s
  | .plane => Sys2Proof.Machine.execPlane s
  | .blank => Sys2Proof.Machine.execBlank s
  | .addr => Sys2Proof.Machine.execAddr s
  | .data => Sys2Proof.Machine.execData s
  | .clkh => Sys2Proof.Machine.execClkh s
  | .clkl => Sys2Proof.Machine.execClkl s
  | .lath => Sys2Proof.Machine.execLath s
  | .latl => Sys2Proof.Machine.execLatl s
  | .oeon => Sys2Proof.Machine.execOeon s
  | .hold => Sys2Proof.Machine.execHold s
  | .oeoff => Sys2Proof.Machine.execOeoff s

end Sys2Proof.Machine
end

