-- ==== Sys2Proof/Machine/Turns.lean ====
section
/-! DEFINITION. The steps of the agents: the host's acts, the sequencer, the timer, the clock, reset; and who steps next where the agenda does not say. -/

namespace Sys2Proof.Machine

/-- The host presents a command word: it is decoded, and runs or raises IllegalCommand (spec/30_encoding.md R80). -/
def presentCommand (w : Word) (s : State) : Host.Outcome State Fault Refusal :=
  match decodeCommand w with
  | some i => exec i s
  | none => .next s.illegalCommand

/-- What the host goes on with after a read of STATUS that found the condition met or not (spec/30_encoding.md R83). -/
def afterPoll (met : Bool) (act : HostAct) (rest : List HostAct) : List HostAct := if met then rest else act :: rest

/-- The host's step: one command word or one CSR read (spec/00_scope.md R9).
A directive repeats a read of CSR STATUS until the read shows what it waits for (spec/30_encoding.md R83).
A host with nothing left to do takes no step. -/
def hostTurn (s : State) : Host.Outcome State Fault Refusal :=
  match s.host with
  | [] => .next s
  | .command w :: rest => presentCommand w { s with host := rest }
  | .readCsr n :: rest => exec (.rdcsr n) { s with host := rest }
  | .waitIdle :: rest => exec (.rdcsr 1) { s with host := afterPoll (decide (s.phase = .idle)) .waitIdle rest }
  | .waitPhase ph :: rest => exec (.rdcsr 1) { s with host := afterPoll (decide (s.phase = ph)) (.waitPhase ph) rest }

/-- The timer's step, where it is enabled (spec/42_sequencer_microops.md R127). -/
def timerTurn (s : State) : State := if s.timerEnabled then s.timerComplete else s

/-- One tick of time (spec/70_reset_and_hazards.md R213). -/
def tickTurn (s : State) : State := { s with now := s.now + 1 }

/-- The step of the agent whose turn it is. The sequencer runs the micro-operation that `PHASE` names (spec/30_encoding.md R78).
A turn of an agent with no step enabled passes. -/
def takeTurn (t : Turn) (s : State) : Host.Outcome State Fault Refusal :=
  match t with
  | .host => hostTurn s
  | .sequencer => exec s.phase.microOp s
  | .timer => .next (timerTurn s)
  | .tick => .next (tickTurn s)
  | .reset cells => .next (s.resetStep cells)

/-- The host has an act to take now: a command, a read, or a directive whose condition holds. -/
def State.hostReady (s : State) : Bool :=
  match s.host with
  | [] => false
  | .command _ :: _ => true
  | .readCsr _ :: _ => true
  | .waitIdle :: _ => decide (s.phase = .idle)
  | .waitPhase ph :: _ => decide (s.phase = ph)

/-- Who steps where the agenda says nothing: the eager schedule of spec/95_test_vectors.md (DESIGN CHOICE, log entry 4).
The host acts when it is ready; else the sequencer steps; in HOLD without a cancellation pending, time passes until the wait is over. -/
def State.eagerTurn (s : State) : Turn :=
  if s.hostReady then .host
  else if s.phase = .hold ∧ s.cancelPending = false then
    if s.timerEnabled then .timer else .tick
  else .sequencer

/-- The turn that comes next, and the state with it taken off the agenda. -/
def State.nextTurn (s : State) : Turn × State :=
  match s.agenda with
  | [] => (s.eagerTurn, s)
  | t :: rest => (t, { s with agenda := rest })

/-- `s` with the value `code` of an encoding space where its next step looks for it: a command word or CSR number in the host's
hand, a phase code in `PHASE`, and the turn given to the agent that acts on it. -/
def State.withCode (s : State) (code : Code) : State :=
  match code with
  | .command w => { s with host := .command w :: s.host, agenda := .host :: s.agenda }
  | .csr n => { s with host := .readCsr n :: s.host, agenda := .host :: s.agenda }
  | .phase c => { s with phase := (Phase.ofCode c).getD .idle, agenda := .sequencer :: s.agenda }

end Sys2Proof.Machine
end

