-- ==== Sys2Proof/Machine/Step.lean ====
section
/-! DEFINITION. One step of the machine, and a table row's word placed where the next step runs it. -/

namespace Sys2Proof.Machine

/-- One step: the agent whose turn it is takes its step (spec/20_memory.md R58). -/
def step (s : State) : Host.Outcome State Fault Refusal := takeTurn s.nextTurn.1 s.nextTurn.2

/-- `s` with a table row's word placed so that its next step runs that instruction. -/
def State.withFetchWord (s : State) (nbits w : Nat) : State :=
  match tableCode nbits w with
  | some code => s.withCode code
  | none => s

end Sys2Proof.Machine
end

