-- ==== Sys2Proof/Machine/Assembler.lean ====
section
/-! DEFINITION. The textual form of host programs (spec/30_encoding.md R82, R83): one line of characters to the acts of the host. -/

namespace Sys2Proof.Machine

/-- Blanks between the parts of a line. -/
def isBlank (c : Char) : Bool := c == ' ' || c == '\t' || c == '\r'

/-- The line up to its comment, which a semicolon starts (R82). -/
def dropComment (cs : List Char) : List Char := cs.takeWhile fun c => c != ';'

/-- The characters without blanks at either end. -/
def trim (cs : List Char) : List Char := ((cs.dropWhile isBlank).reverse.dropWhile isBlank).reverse

/-- The parts of a list between the occurrences of `sep`. -/
def splitAtChar (sep : Char) : List Char → List (List Char)
  | [] => [[]]
  | c :: cs =>
    match splitAtChar sep cs with
    | [] => [[c]]
    | part :: rest => if c = sep then [] :: part :: rest else (c :: part) :: rest

/-- The value of a digit below `base`; hexadecimal digits may be of either case (DESIGN CHOICE, log entry 10). -/
def digitValue (base : Nat) (c : Char) : Option Nat :=
  let v :=
    if '0' ≤ c ∧ c ≤ '9' then c.toNat - '0'.toNat
    else if 'a' ≤ c ∧ c ≤ 'f' then c.toNat - 'a'.toNat + 10
    else if 'A' ≤ c ∧ c ≤ 'F' then c.toNat - 'A'.toNat + 10
    else base
  if v < base then some v else none

/-- The number that digits write, the digits before it giving `acc`. -/
def digitsValue (base acc : Nat) : List Char → Option Nat
  | [] => some acc
  | c :: cs => (digitValue base c).bind fun v => digitsValue base (acc * base + v) cs

/-- A number of at least one digit. -/
def parseNat (base : Nat) (cs : List Char) : Option Nat := if cs.isEmpty then none else digitsValue base 0 cs

/-- An operand: a decimal integer with an optional leading minus, or a hexadecimal integer with `0x` (R82). -/
def parseInt (cs : List Char) : Option Int :=
  match cs with
  | '-' :: ds => (parseNat 10 ds).map fun v => -(v : Int)
  | '0' :: 'x' :: hs => (parseNat 16 hs).map fun v => (v : Int)
  | ds => (parseNat 10 ds).map fun v => (v : Int)

/-- An integer in `lo .. hi`; any other is an assembler error (R82). -/
def ranged (lo hi : Int) (v : Int) : Option Int := if lo ≤ v ∧ v ≤ hi then some v else none

/-- An integer operand in `lo .. hi`. -/
def operand (lo hi : Int) (cs : List Char) : Option Int := (parseInt (trim cs)).bind (ranged lo hi)

/-- A coordinate operand. -/
def coordOperand (cs : List Char) : Option Int := operand (-32768) 32767 cs

/-- A channel-byte or brightness operand. -/
def byteOperand (cs : List Char) : Option Byte := (operand 0 255 cs).map (BitVec.ofInt 8)

/-- The acts that issue an instruction: a command word presented, or a CSR number read. -/
def issue (i : Instr) : List HostAct :=
  match encode i with
  | .command w => [.command w]
  | .csr n => [.readCsr n]
  | .phase _ => []

/-- The number of a CSR name (R82). -/
def csrNumber (cs : List Char) : Option (BitVec 4) :=
  if cs = ['g', 'e', 'o', 'm'] then some 0
  else if cs = ['s', 't', 'a', 't', 'u', 's'] then some 1
  else if cs = ['p', 'o', 's'] then some 2
  else if cs = ['b', 'r', 'i', 'g', 'h', 't'] then some 3
  else if cs = ['u', 'n', 'i', 't'] then some 4
  else if cs = ['h', 'o', 'l', 'd'] then some 5
  else if cs = ['p', 'i', 'n', 's'] then some 6
  else if cs = ['r', 'e', 's', 'p'] then some 7
  else (operand 0 15 cs).map (BitVec.ofInt 4)

/-- The phase of a name (R83, spec/30_encoding.md R78). -/
def phaseNamed (cs : List Char) : Option Phase :=
  if cs = ['i', 'd', 'l', 'e'] then some .idle
  else if cs = ['p', 'l', 'a', 'n', 'e'] then some .plane
  else if cs = ['b', 'l', 'a', 'n', 'k'] then some .blank
  else if cs = ['a', 'd', 'd', 'r'] then some .addr
  else if cs = ['d', 'a', 't', 'a'] then some .data
  else if cs = ['c', 'l', 'k', 'h'] then some .clkh
  else if cs = ['c', 'l', 'k', 'l'] then some .clkl
  else if cs = ['l', 'a', 't', 'h'] then some .lath
  else if cs = ['l', 'a', 't', 'l'] then some .latl
  else if cs = ['o', 'e', 'o', 'n'] then some .oeon
  else if cs = ['h', 'o', 'l', 'd'] then some .hold
  else if cs = ['o', 'e', 'o', 'f', 'f'] then some .oeoff
  else none

/-- `setpx x, y, r, g, b`: the text puts x before y (R82). -/
def asmSetpx : List (List Char) → Option (List HostAct)
  | [x, y, r, g, b] => do
    let x ← coordOperand x
    let y ← coordOperand y
    let r ← byteOperand r
    let g ← byteOperand g
    let b ← byteOperand b
    return issue (.setpx x y r g b)
  | _ => none

/-- `getpx x, y`. -/
def asmGetpx : List (List Char) → Option (List HostAct)
  | [x, y] => do
    let x ← coordOperand x
    let y ← coordOperand y
    return issue (.getpx x y)
  | _ => none

/-- `clear r, g, b`. -/
def asmClear : List (List Char) → Option (List HostAct)
  | [r, g, b] => do
    let r ← byteOperand r
    let g ← byteOperand g
    let b ← byteOperand b
    return issue (.clear r g b)
  | _ => none

/-- A form of one integer operand in `lo .. hi`. -/
def asmOne (lo hi : Int) (f : Int → Instr) : List (List Char) → Option (List HostAct)
  | [v] => (operand lo hi v).map fun n => issue (f n)
  | _ => none

/-- `rdcsr name`, or a number 0..15. -/
def asmRdcsr : List (List Char) → Option (List HostAct)
  | [v] => (csrNumber (trim v)).map fun n => issue (.rdcsr n)
  | _ => none

/-- `waitphase name`. -/
def asmWaitphase : List (List Char) → Option (List HostAct)
  | [v] => (phaseNamed (trim v)).map fun ph => [.waitPhase ph]
  | _ => none

/-- A form with no operand. -/
def asmNone (acts : List HostAct) : List (List Char) → Option (List HostAct)
  | [] => some acts
  | _ => none

/-- The acts of a mnemonic or directive with its operands (R82, R83); none is an assembler error. -/
def assembleForm (m : List Char) (ops : List (List Char)) : Option (List HostAct) :=
  if m = ['s', 'e', 't', 'p', 'x'] then asmSetpx ops
  else if m = ['g', 'e', 't', 'p', 'x'] then asmGetpx ops
  else if m = ['c', 'l', 'e', 'a', 'r'] then asmClear ops
  else if m = ['s', 'w', 'a', 'p'] then asmNone (issue .swap) ops
  else if m = ['s', 'e', 't', 'b', 'r', 'i'] then asmOne 0 255 (fun n => .setbri (BitVec.ofInt 8 n)) ops
  else if m = ['a', 'd', 'j', 'b', 'r', 'i'] then asmOne (-2147483648) 2147483647 .adjbri ops
  else if m = ['s', 'e', 't', 'u', 'n', 'i', 't'] then asmOne 0 4294967295 (fun n => .setunit (BitVec.ofInt 32 n)) ops
  else if m = ['s', 't', 'a', 'r', 't'] then asmNone (issue .start) ops
  else if m = ['c', 'a', 'n', 'c', 'e', 'l'] then asmNone (issue .cancel) ops
  else if m = ['r', 'd', 'c', 's', 'r'] then asmRdcsr ops
  else if m = ['b', 'r', 'i', 'g', 'h', 't', 'e', 'n'] then asmOne 0 2147483647 .adjbri ops
  else if m = ['d', 'i', 'm'] then asmOne 0 2147483648 (fun n => .adjbri (-n)) ops
  else if m = ['c', 'l', 'e', 'a', 'r', 'b', 'l', 'a', 'c', 'k'] then asmNone (issue (.clear 0 0 0)) ops
  else if m = ['w', 'a', 'i', 't', 'i', 'd', 'l', 'e'] then asmNone [.waitIdle] ops
  else if m = ['w', 'a', 'i', 't', 'p', 'h', 'a', 's', 'e'] then asmWaitphase ops
  else if m = ['r', 'e', 'f', 'r', 'e', 's', 'h'] then asmNone (issue .start ++ [.waitIdle]) ops
  else none

/-- The operands of a line after its mnemonic: none, or parts separated by commas. -/
def operandsOf (cs : List Char) : List (List Char) := if (trim cs).isEmpty then [] else splitAtChar ',' cs

/-- One line of a program; a line with nothing but blanks and a comment has no act. -/
def assembleLine (line : List Char) : Option (List HostAct) :=
  let cs := trim (dropComment line)
  if cs.isEmpty then some []
  else assembleForm (cs.takeWhile fun c => !isBlank c) (operandsOf (cs.dropWhile fun c => !isBlank c))

/-- A program: the acts of its lines in order, or none if a line is in error. -/
def assemble (lines : List (List Char)) : Option (List HostAct) :=
  match lines with
  | [] => some []
  | line :: rest => (assembleLine line).bind fun acts => (assemble rest).map fun more => acts ++ more

end Sys2Proof.Machine
end

