-- ==== Sys2Proof/Machine/Construct.lean ====
section
/-! DEFINITION. Construction: the validity check of a configuration and the block it builds (spec/00_scope.md R8, spec/60_exceptions.md R161, R162). -/

namespace Sys2Proof.Machine

/-- No entry is smaller than the one before it (spec/40_gamma_mapper.md R91 (c)). -/
def nonDecreasing : List Nat → Bool
  | [] => true
  | [_] => true
  | u :: v :: t => decide (u ≤ v) && nonDecreasing (v :: t)

/-- The contract of the gamma table (spec/40_gamma_mapper.md R91 (a) to (d)), entry by entry. -/
def gammaCheck (colorBits : Nat) (gamma : List Nat) : Bool :=
  decide (gamma.length = 256) && gamma.all (fun e => decide (e ≤ 2 ^ colorBits - 1))
    && nonDecreasing gamma && decide (gamma.head? = some 0)

/-- The first configuration error that applies, in the order of spec/60_exceptions.md R162, or none. -/
def configCheck (cfg : Config) : Option ConfigError :=
  if cfg.width < 1 ∨ 32767 < cfg.width then some .widthRange
  else if cfg.height < 2 ∨ 64 < cfg.height then some .heightRange
  else if cfg.height % 2 = 1 then some .oddHeight
  else if cfg.colorBits < 1 ∨ 8 < cfg.colorBits then some .colorBitsRange
  else if 5 < cfg.nAddr then some .addrLinesRange
  else if cfg.nAddr < addressBits cfg then some .addressLines
  else if gammaCheck cfg.colorBits cfg.gamma then none
  else some .gamma

/-- The code the spec gives a kind of error (spec/60_exceptions.md R161). -/
def errorCode : ConfigError → Nat
  | .addressLines => 1
  | .oddHeight => 2
  | .heightRange => 3
  | .widthRange => 4
  | .colorBitsRange => 5
  | .addrLinesRange => 6
  | .gamma => 7

/-- Construction: an invalid configuration is refused, a valid one gives the block in its reset state, the cells holding `fb`
(spec/70_reset_and_hazards.md R192). -/
def construct (cfg : Config) (fb : Memory) : Host.Outcome State Fault Refusal :=
  match configCheck cfg with
  | some kind => .refused (.configError kind)
  | none => .next (State.resetWith cfg fb)

end Sys2Proof.Machine
end

