-- ==== Sys2Proof/Machine/Panel.lean ====
section
/-! DEFINITION. The reference panel observer (spec/70_reset_and_hazards.md R216), which is not part of the block: it says what a trace means in light. -/

namespace Sys2Proof.Machine

/-- The DATAPINS bits of a pin word (spec/10_state.md R33). -/
def wordData (v : BitVec 14) : BitVec 6 := v.extractLsb' 0 6

/-- The ADDRPINS bits of a pin word. -/
def wordAddr (v : BitVec 14) : BitVec 5 := v.extractLsb' 6 5

/-- The CLK bit of a pin word. -/
def wordClk (v : BitVec 14) : Bool := v.getLsbD 11

/-- The LAT bit of a pin word. -/
def wordLat (v : BitVec 14) : Bool := v.getLsbD 12

/-- The OE bit of a pin word. -/
def wordOe (v : BitVec 14) : Bool := v.getLsbD 13

/-- A colour channel of a pixel (spec/00_scope.md R14). -/
inductive Channel
  | red | green | blue
deriving DecidableEq, Repr

/-- The position of a channel among the three bits of a half row (spec/40_gamma_mapper.md R94). -/
def Channel.bit : Channel → Nat
  | .red => 0
  | .green => 1
  | .blue => 2

/-- The channel byte of a pixel. -/
def Channel.byte (ch : Channel) (v : Pixel) : Byte :=
  match ch with
  | .red => redOf v
  | .green => greenOf v
  | .blue => blueOf v

/-- One sub-pixel of the panel: pixel (x, y) and a channel (spec/00_scope.md R14). -/
structure SubPixel where
  x : Nat
  y : Nat
  ch : Channel
deriving DecidableEq, Repr

/-- The panel as its observer sees it, with the nominal lit time of one watched sub-pixel. -/
structure Panel where
  /-- The pins as last seen. -/
  pins : BitVec 14
  /-- The shift register, oldest entry first: `WIDTH` entries. -/
  sr : List (BitVec 6)
  /-- The latched row, column k at position k. -/
  lr : List (BitVec 6)
  /-- What the wait in flight adds to the lit time if it runs to its end; none where no wait is in flight. -/
  waiting : Option Nat
  /-- How many waits were cut short so far. -/
  cuts : Nat
  /-- The nominal lit time of the watched sub-pixel so far, in ticks. -/
  litTime : Nat
deriving DecidableEq, Repr

/-- The six latched bits of column `x`; a column the panel lacks is dark. -/
def Panel.column (pn : Panel) (x : Nat) : BitVec 6 := pn.lr.getD x 0

/-- The sub-pixel's LED is lit (R216): output enabled, its row pair addressed, its latched bit 1. -/
def Panel.lit (cfg : Config) (pn : Panel) (sp : SubPixel) : Bool :=
  wordOe pn.pins &&
    (decide ((wordAddr pn.pins).toNat = sp.y) && (pn.column sp.x).getLsbD sp.ch.bit
      || decide ((wordAddr pn.pins).toNat + rows cfg = sp.y) && (pn.column sp.x).getLsbD (sp.ch.bit + 3))

/-- The wait in flight, if there is one, ends before its length: it lights the LED for anything from 0 to its length
(spec/70_reset_and_hazards.md R214, U21). `cut k` is the free value for the `k`-th wait that is cut short.
The spec opens the value for a cancellation; that a wait cut short by a platform reset has the same range is the model's
(DESIGN CHOICE, log entry 16). -/
def Panel.cutShort (cut : Nat → Nat) (pn : Panel) : Panel :=
  match pn.waiting with
  | some n => { pn with litTime := pn.litTime + min (cut pn.cuts) n, waiting := none, cuts := pn.cuts + 1 }
  | none => pn

/-- The panel's pins change to `v`: a rise of CLK shifts, a rise of LAT latches (R216).
A fall of OE with a wait in flight cuts it short: the cancel step and reset do so, and OEOFF comes after the wait. -/
def Panel.seePins (cut : Nat → Nat) (pn : Panel) (v : BitVec 14) : Panel :=
  let pn := if wordOe pn.pins && !wordOe v then pn.cutShort cut else pn
  { pn with
    pins := v
    sr := if !wordClk pn.pins && wordClk v then pn.sr.drop 1 ++ [wordData v] else pn.sr
    lr := if !wordLat pn.pins && wordLat v then pn.sr else pn.lr }

/-- The panel sees one event. -/
def Panel.see (cfg : Config) (cut : Nat → Nat) (sp : SubPixel) (pn : Panel) (e : Event) : Panel :=
  match e with
  | .pins v => pn.seePins cut v
  | .wait n => { pn with waiting := some (if pn.lit cfg sp then n.toNat else 0) }
  | .waitDone => { pn with litTime := pn.litTime + pn.waiting.getD 0, waiting := none }
  | .cancelled => pn.cutShort cut
  | .refreshStart _ => pn
  | .refreshDone => pn

/-- The panel after the events of a trace, which holds the newest event first.
Every wait that is cut short has a free value of its own in `cut`, by its number (R214, U21). -/
def Panel.watch (cfg : Config) (cut : Nat → Nat) (sp : SubPixel) (pn : Panel) (trace : List Event) : Panel :=
  trace.foldr (fun e acc => acc.see cfg cut sp e) pn

/-- The total nominal time OE is 1 in the completed holds of a trace (spec/70_reset_and_hazards.md R215): the sum of its `Wait(n)`. -/
def waitTotal (trace : List Event) : Nat :=
  (trace.map fun e => match e with
    | .wait n => n.toNat
    | _ => 0).sum

end Sys2Proof.Machine
end

