-- ==== Sys2Proof/Safety.lean ====
section
/-! DEFINITION. What the claims are stated in: the gamma contract and a valid configuration, the invariants of the block, the measure of a refresh, quiet runs, and what carries no picture. -/

namespace Sys2Proof.Machine

/-! ### A valid configuration -/

/-- The contract of the gamma table in the words of spec/40_gamma_mapper.md R91. -/
structure GammaContract (colorBits : Nat) (gamma : List Nat) : Prop where
  /-- (a) every byte has an entry. -/
  total : gamma.length = 256
  /-- (b) every entry is in 0 .. 2^COLOR_BITS - 1. -/
  range : ∀ v < 256, gamma.getD v 0 ≤ 2 ^ colorBits - 1
  /-- (c) the entries do not decrease. -/
  monotone : ∀ u v, u ≤ v → v < 256 → gamma.getD u 0 ≤ gamma.getD v 0
  /-- (d) black stays black. -/
  black : gamma.getD 0 0 = 0

/-- A configuration is valid (spec/00_scope.md R8). -/
structure ValidConfig (cfg : Config) : Prop where
  width : 1 ≤ cfg.width ∧ cfg.width ≤ 32767
  height : 2 ≤ cfg.height ∧ cfg.height ≤ 64
  even : cfg.height % 2 = 0
  colorBits : 1 ≤ cfg.colorBits ∧ cfg.colorBits ≤ 8
  nAddr : cfg.nAddr ≤ 5
  lines : addressBits cfg ≤ cfg.nAddr
  gamma : GammaContract cfg.colorBits cfg.gamma

/-! ### The invariants -/

/-- The output-enable discipline (spec/70_reset_and_hazards.md R206, R207). -/
structure OeDiscipline (s : State) : Prop where
  /-- OE is 1 exactly in HOLD and OEOFF. -/
  oe : s.pins.oe = true ↔ s.phase = .hold ∨ s.phase = .oeoff
  /-- The timer is armed exactly in HOLD. -/
  armed : s.tmrArmed = true ↔ s.phase = .hold
  /-- The wait in flight is of the length `HOLD`. -/
  length : s.phase = .hold → s.tmrN = s.hold
  /-- While idle no cancellation is pending. -/
  idle : s.phase = .idle → s.cancelPending = false

/-- The pulses (R208). -/
structure PulseDiscipline (s : State) : Prop where
  clk : s.pins.clk = true ↔ s.phase = .clkl
  lat : s.pins.lat = true ↔ s.phase = .latl

/-- The flags (R209). -/
structure FlagDiscipline (s : State) : Prop where
  /-- Single buffering has no back buffer and no pending swap. -/
  single : s.cfg.dbuf = false → s.front = false ∧ s.swapPending = false
  /-- A refresh does not both complete and end by cancellation. -/
  exclusive : ¬(s.done = true ∧ s.cancelled = true)
  /-- DONE and CANCELLED are only seen while idle. -/
  ended : s.done = true ∨ s.cancelled = true → s.phase = .idle

/-- The counters (R210), and the address pins of unwired lines (spec/10_state.md R34). -/
structure CounterBounds (s : State) : Prop where
  p : s.p.toNat < s.cfg.colorBits
  r : s.r.toNat < rows s.cfg
  c : s.c.toNat ≤ s.cfg.width
  column : s.phase = .data ∨ s.phase = .clkh ∨ s.phase = .clkl → s.c.toNat < s.cfg.width
  hold : s.hold.toNat < 2 ^ 39
  unwired : ∀ i, s.cfg.nAddr ≤ i → s.pins.addr.getLsbD i = false

/-- The frame-buffer memory is in canonical form and lists only cells that exist. -/
structure MemoryForm (s : State) : Prop where
  wf : Memory.wf s.fb
  cells : ∀ e ∈ s.fb, e.1 < cellCount s.cfg

/-- The invariant of the block. -/
structure Inv (s : State) : Prop where
  config : ValidConfig s.cfg
  oe : OeDiscipline s
  pulse : PulseDiscipline s
  flags : FlagDiscipline s
  counters : CounterBounds s
  memory : MemoryForm s

/-! ### How far a refresh has to go (spec/42_sequencer_microops.md R130) -/

/-- The sequencer steps of one row. -/
def rowSteps (cfg : Config) : Nat := 6 + 3 * cfg.width

/-- The sequencer steps of one bitplane. -/
def planeSteps (cfg : Config) : Nat := 1 + rows cfg * rowSteps cfg

/-- The sequencer steps after the current row of the current bitplane. -/
def stepsAfterRow (s : State) : Nat :=
  (rows s.cfg - 1 - s.r.toNat) * rowSteps s.cfg + (s.cfg.colorBits - 1 - s.p.toNat) * planeSteps s.cfg

/-- The sequencer steps from `s` to IDLE if the refresh is not cancelled. -/
def stepsLeft (s : State) : Nat :=
  match s.phase with
  | .idle => 0
  | .plane => planeSteps s.cfg + (s.cfg.colorBits - 1 - s.p.toNat) * planeSteps s.cfg
  | .blank => rowSteps s.cfg + stepsAfterRow s
  | .addr => rowSteps s.cfg - 1 + stepsAfterRow s
  | .data => 3 * (s.cfg.width - s.c.toNat) + 4 + stepsAfterRow s
  | .clkh => 3 * (s.cfg.width - s.c.toNat) + 3 + stepsAfterRow s
  | .clkl => 3 * (s.cfg.width - s.c.toNat) + 2 + stepsAfterRow s
  | .lath => 4 + stepsAfterRow s
  | .latl => 3 + stepsAfterRow s
  | .oeon => 2 + stepsAfterRow s
  | .hold => 1 + stepsAfterRow s
  | .oeoff => 1 + stepsAfterRow s

/-- The waits that are still to complete before IDLE if the refresh is not cancelled. -/
def waitsLeft (s : State) : Nat :=
  match s.phase with
  | .idle => 0
  | .plane => rows s.cfg * (s.cfg.colorBits - s.p.toNat)
  | .oeoff => rows s.cfg - 1 - s.r.toNat + rows s.cfg * (s.cfg.colorBits - 1 - s.p.toNat)
  | _ => rows s.cfg - s.r.toNat + rows s.cfg * (s.cfg.colorBits - 1 - s.p.toNat)

/-! ### Runs in which the host is quiet -/

/-- A turn of the sequencer, of the timer, or of time. -/
def Turn.quiet : Turn → Bool
  | .sequencer => true
  | .timer => true
  | .tick => true
  | .host => false
  | .reset _ => false

/-- The turn is no reset by the platform. -/
def Turn.running : Turn → Bool
  | .host => true
  | .sequencer => true
  | .timer => true
  | .tick => true
  | .reset _ => false

/-- The run of the turns of a list, from a state whose agenda they are. -/
def runTurns (turns : List Turn) (s : State) : Host.Outcome State Fault Refusal :=
  Host.Core.run Sys2Proof.core turns.length { s with agenda := turns }

/-- The event requests a wait. -/
def Event.isWait : Event → Bool
  | .wait _ => true
  | .refreshStart _ => false
  | .pins _ => false
  | .waitDone => false
  | .cancelled => false
  | .refreshDone => false

/-! ### What carries no picture (spec/70_reset_and_hazards.md R215) -/

/-- An event without the six data bits: what is left of a pin word is OE, LAT, CLK and the address pins. -/
def Event.withoutPicture : Event → Event
  | .pins v => .pins (v &&& 0x3FC0#14)
  | e => e

/-- A state without what depends on the pixels: cells, data pins, `RESP`, the values read, and the data bits of the trace. -/
def State.withoutPicture (s : State) : State :=
  { s with
    fb := []
    resp := 0
    pins := { s.pins with data := 0 }
    reads := []
    trace := s.trace.map Event.withoutPicture }

end Sys2Proof.Machine
end

