-- ==== Sys2Proof/Certificates/Slice0/Obligations.lean ====
section
/-! DEFINITION. The statements for the provers, from the numbered rules of spec/. Each docstring names the rules. -/

open Sys2Proof Sys2Proof.Machine

/-! ### Encodings (spec/30_encoding.md) -/

/-- R84: the worked encodings, both ways, and the illegal examples. -/
def Obligations.WorkedEncodingsDecode : Prop :=
  (∀ e ∈ [ (Instr.setpx 3 1 255 128 0, (0x0100010003FF8000 : Word)), (.setpx (-1) 0 1 2 3, 0x010000FFFF010203),
        (.getpx 3 1, 0x0200010003000000), (.clear 16 32 48, 0x0300000000102030), (.swap, 0x0400000000000000),
        (.setbri 250, 0x10000000000000FA), (.adjbri 20, 0x1100000000000014), (.adjbri (-20), 0x11000000FFFFFFEC),
        (.setunit 1000, 0x12000000000003E8), (.start, 0x2000000000000000), (.cancel, 0x2100000000000000) ],
      encode e.1 = .command e.2 ∧ decodeCommand e.2 = some e.1)
  ∧ ∀ w ∈ [ (0x0000000000000000 : Word), 0x0400000000000001, 0x1000000000000100, 0x0200010003000001, 0x0500000000000000 ],
      decodeCommand w = none

/-- R78, R79, R81: the phase codes 0..11 name the micro-operations in order, 12..15 name none, and no CSR number is illegal. -/
def Obligations.PhaseCodesAndCsrNumbersDecode : Prop :=
  (List.range 16).map (fun n => decode (.phase (BitVec.ofNat 4 n)))
      = [some .idle, some .plane, some .blank, some .addr, some .data, some .clkh, some .clkl, some .lath, some .latl,
          some .oeon, some .hold, some .oeoff, none, none, none, none]
  ∧ ∀ n, decode (.csr n) = some (.rdcsr n)

/-- R77, R80: the decoder, written from the formats, accepts exactly the words that match a row of the table of match and mask
values, as the command of that row; and no word matches two rows. -/
def Obligations.DecoderAgreesWithMatchMaskTable : Prop :=
  (∀ w : Word, (decodeCommand w).map Instr.mnemonic = (commandRows.find? fun row => row.matches w).map CommandRow.mnemonic)
  ∧ commandRows.Pairwise fun a b => ∀ w : Word, ¬(a.matches w = true ∧ b.matches w = true)

/-- R71 to R78, R81: decoding the encoding of a well-formed instruction gives the instruction, for every instruction. -/
def Obligations.DecodeOfEncode : Prop :=
  ∀ i : Instr, i.wellFormed = true → decode (encode i) = some i

/-- R80, R81: an instruction has one encoding: whatever code decodes to it is what the encoder gives. -/
def Obligations.EncodeOfDecode : Prop :=
  ∀ (code : Code) (i : Instr), decode code = some i → encode i = code

/-- R82: the assembler never produces an illegal word. -/
def Obligations.AssemblerProducesLegalWords : Prop :=
  ∀ (line : List Char) (acts : List HostAct) (w : Word),
    assembleLine line = some acts → .command w ∈ acts → ∃ i, decodeCommand w = some i

/-! ### Configuration and construction (spec/00_scope.md, spec/60_exceptions.md) -/

/-- R7: the derived constants; `ADDRESS_BITS` is the least `k` with `2^k >= ROWS`. -/
def Obligations.DerivedConstants : Prop :=
  ∀ cfg : Config,
    rows cfg = cfg.height / 2 ∧ npix cfg = cfg.width * cfg.height ∧ maxIntensity cfg = 2 ^ cfg.colorBits - 1
    ∧ rows cfg ≤ 2 ^ addressBits cfg ∧ ∀ k, rows cfg ≤ 2 ^ k → addressBits cfg ≤ k

/-- R8: construction succeeds exactly for the valid configurations; any other is refused with a configuration error. -/
def Obligations.ConstructionAcceptsExactlyValidConfigs : Prop :=
  ∀ (cfg : Config) (fb : Memory),
    (ValidConfig cfg → construct cfg fb = .next (State.resetWith cfg fb))
    ∧ (¬ValidConfig cfg → ∃ kind, construct cfg fb = .refused (.configError kind))

/-- R162: when several kinds of error apply, the first in the order of the rule is reported. -/
def Obligations.FirstConfigErrorIsReported : Prop :=
  ∀ (cfg : Config) (fb : Memory),
    let width := 1 ≤ cfg.width ∧ cfg.width ≤ 32767
    let height := 2 ≤ cfg.height ∧ cfg.height ≤ 64
    let even := cfg.height % 2 = 0
    let depth := 1 ≤ cfg.colorBits ∧ cfg.colorBits ≤ 8
    let lines := cfg.nAddr ≤ 5
    let fits := addressBits cfg ≤ cfg.nAddr
    (¬width → construct cfg fb = .refused (.configError .widthRange))
    ∧ (width → ¬height → construct cfg fb = .refused (.configError .heightRange))
    ∧ (width → height → ¬even → construct cfg fb = .refused (.configError .oddHeight))
    ∧ (width → height → even → ¬depth → construct cfg fb = .refused (.configError .colorBitsRange))
    ∧ (width → height → even → depth → ¬lines → construct cfg fb = .refused (.configError .addrLinesRange))
    ∧ (width → height → even → depth → lines → ¬fits → construct cfg fb = .refused (.configError .addressLines))
    ∧ (width → height → even → depth → lines → fits → ¬GammaContract cfg.colorBits cfg.gamma →
        construct cfg fb = .refused (.configError .gamma))

/-! ### Reset (spec/70_reset_and_hazards.md, spec/10_state.md) -/

/-- R45, R190, R31: reset sets every piece of state to its reset value, of a running block in one step and of a block that is built;
the cells may then hold anything: for every choice of contents some reset gives it. -/
def Obligations.ResetSetsEveryPieceOfState : Prop :=
  (∀ (s : State) (cells : List (Nat × Pixel)) (rest : List Turn), s.agenda = .reset cells :: rest →
    ∃ t, step s = .next t ∧ t.cfg = s.cfg
      ∧ t.bri = s.cfg.initBrightness ∧ t.unit = s.cfg.initUnit ∧ t.hold = 0 ∧ t.resp = 0
      ∧ t.phase = .idle ∧ t.p = 0 ∧ t.r = 0 ∧ t.c = 0
      ∧ t.front = false ∧ t.swapPending = false ∧ t.cancelPending = false
      ∧ t.done = false ∧ t.cancelled = false ∧ t.cmderr = false
      ∧ t.tmrArmed = false ∧ t.tmrN = 0 ∧ t.pins.word = 0)
  ∧ (∀ (cfg : Config) (fb : Memory) (t : State), construct cfg fb = .next t →
      t.cfg = cfg ∧ t.fb = fb
        ∧ t.bri = cfg.initBrightness ∧ t.unit = cfg.initUnit ∧ t.hold = 0 ∧ t.resp = 0
        ∧ t.phase = .idle ∧ t.p = 0 ∧ t.r = 0 ∧ t.c = 0
        ∧ t.front = false ∧ t.swapPending = false ∧ t.cancelPending = false
        ∧ t.done = false ∧ t.cancelled = false ∧ t.cmderr = false
        ∧ t.tmrArmed = false ∧ t.tmrN = 0 ∧ t.pins.word = 0)
  ∧ (∀ (s : State) (contents : Nat → Pixel) (rest : List Turn), ∃ cells : List (Nat × Pixel),
      ∃ t, step { s with agenda := .reset cells :: rest } = .next t ∧ ∀ a < cellCount s.cfg, t.memRead a = some (contents a))

/-- R206 to R210, R190: the block is built with its invariant, and so is the sample block of `State.reset`, whose configuration is the
model's choice (log entry 1); a block that is built has an empty trace, which is the model's choice too (log entries 6 and 15). -/
def Obligations.InvariantHoldsAtReset : Prop :=
  (∀ (cfg : Config) (fb : Memory), ValidConfig cfg → Memory.wf fb → (∀ e ∈ fb, e.1 < cellCount cfg) →
    Inv (State.resetWith cfg fb))
  ∧ Inv State.reset
  ∧ ∀ (cfg : Config) (fb : Memory) (t : State), construct cfg fb = .next t → t.trace = []

/-! ### The step (spec/20_memory.md R58, spec/30_encoding.md R80) -/

/-- R58, R78, R80, R81: a step runs the decoded instruction: of the command word or CSR number in the host's hand when the host's
turn comes, of the phase code when the sequencer's comes; on an empty agenda the turn is the eager schedule's (log entry 4). -/
def Obligations.StepRunsTheDecodedInstruction : Prop :=
  (∀ (s : State) (w : Word) (i : Instr) (acts : List HostAct) (rest : List Turn),
      s.agenda = .host :: rest → s.host = .command w :: acts → decode (.command w) = some i →
      step s = exec i { s with agenda := rest, host := acts })
  ∧ (∀ (s : State) (n : BitVec 4) (i : Instr) (acts : List HostAct) (rest : List Turn),
      s.agenda = .host :: rest → s.host = .readCsr n :: acts → decode (.csr n) = some i →
      step s = exec i { s with agenda := rest, host := acts })
  ∧ (∀ (s : State) (i : Instr) (rest : List Turn),
      s.agenda = .sequencer :: rest → decode (.phase s.phase.code) = some i →
      step s = exec i { s with agenda := rest })
  ∧ (∀ s : State, s.agenda = [] → step s = takeTurn s.eagerTurn s)

/-- The word of an instruction placed by `withFetchWord` is what the next step runs: 64-bit command words (R71), and phase codes (R78).
How a table row's word is placed is the model's choice (log entries 9 and 11). -/
def Obligations.PlacedWordRunsNext : Prop :=
  (∀ (s : State) (w : Nat) (i : Instr), decodeTableWord 64 w = some i → step (s.withFetchWord 64 w) = exec i s)
  ∧ (∀ (s : State) (ph : Phase), step (s.withFetchWord 8 ph.code.toNat) = exec ph.microOp { s with phase := ph })

/-- R163: an illegal command word sets CMDERR and changes nothing else, and CMDERR is sticky: only reset clears it, and only an
illegal command word sets it. -/
def Obligations.IllegalCommandSetsOnlyCmderr : Prop :=
  (∀ (s : State) (w : Word) (acts : List HostAct) (rest : List Turn),
      s.agenda = .host :: rest → s.host = .command w :: acts → decodeCommand w = none →
      step s = .next { s with agenda := rest, host := acts, cmderr := true })
  ∧ (∀ (s t : State), step s = .next t → s.nextTurn.1.running = true → s.cmderr = true → t.cmderr = true)
  ∧ (∀ (s t : State), step s = .next t → s.cmderr = false → t.cmderr = true →
      s.nextTurn.1 = .host ∧ ∃ w acts, s.host = .command w :: acts ∧ decodeCommand w = none)

/-- R127, R213: the timer's completion clears the armed wait and leads to OEOFF; before the deadline, unarmed or outside HOLD it is not
enabled and the turn passes (log entry 5); a tick advances the time and nothing else (the explicit time is log entry 8). -/
def Obligations.TimerAndTickTurns : Prop :=
  (∀ (s : State) (rest : List Turn), s.agenda = .timer :: rest →
      s.phase = .hold → s.tmrArmed = true → s.tmrDeadline ≤ s.now →
      step s = .next { s with agenda := rest, tmrArmed := false, phase := .oeoff, trace := .waitDone :: s.trace })
  ∧ (∀ (s : State) (rest : List Turn), s.agenda = .timer :: rest →
      s.phase ≠ .hold ∨ s.tmrArmed = false ∨ s.now < s.tmrDeadline → step s = .next { s with agenda := rest })
  ∧ (∀ (s : State) (rest : List Turn), s.agenda = .tick :: rest →
      step s = .next { s with agenda := rest, now := s.now + 1 })

/-- R83: a waiting host reads STATUS, and goes on exactly when the word it reads shows BUSY = 0 (`waitidle`) or the code of the
phase (`waitphase`). -/
def Obligations.DirectivesPollStatus : Prop :=
  (∀ (s : State) (acts : List HostAct) (rest : List Turn), s.agenda = .host :: rest → s.host = .waitIdle :: acts →
      ∃ t, step s = .next t ∧ t.reads = ⟨1, s.statusWord⟩ :: s.reads
        ∧ (s.statusWord.getLsbD 4 = false → t.host = acts) ∧ (s.statusWord.getLsbD 4 = true → t.host = s.host))
  ∧ (∀ (s : State) (ph : Phase) (acts : List HostAct) (rest : List Turn),
      s.agenda = .host :: rest → s.host = .waitPhase ph :: acts →
      ∃ t, step s = .next t ∧ t.reads = ⟨1, s.statusWord⟩ :: s.reads
        ∧ (s.statusWord.extractLsb' 0 4 = ph.code → t.host = acts)
        ∧ (s.statusWord.extractLsb' 0 4 ≠ ph.code → t.host = s.host))

/-! ### Frame-buffer commands (spec/41_framebuffer_commands.md) -/

/-- R100: SETPX of an in-range pair writes the one cell of the draw buffer and changes nothing else; out of range it changes nothing.
Every word with its opcode is legal. -/
def Obligations.SetpxWritesOneCell : Prop :=
  (∀ (s : State) (x y : Int) (r g b : Byte), 0 ≤ x → x < s.cfg.width → 0 ≤ y → y < s.cfg.height →
      let cell := (if s.cfg.dbuf then 1 - s.front.toNat else 0) * (s.cfg.width * s.cfg.height)
        + y.toNat * s.cfg.width + x.toNat
      ∃ fb, exec (.setpx x y r g b) s = .next { s with fb := fb }
        ∧ Memory.read fb cell = r ++ g ++ b ∧ ∀ a, a ≠ cell → Memory.read fb a = Memory.read s.fb a)
  ∧ (∀ (s : State) (x y : Int) (r g b : Byte), x < 0 ∨ s.cfg.width ≤ x ∨ y < 0 ∨ s.cfg.height ≤ y →
      exec (.setpx x y r g b) s = .next s)
  ∧ (∀ (s : State) (w : Word), opField w = 0x01#8 → presentCommand w s
      = exec (.setpx (w.extractLsb' 24 16).toInt (w.extractLsb' 40 16).toInt (w.extractLsb' 16 8) (w.extractLsb' 8 8)
          (w.extractLsb' 0 8)) s)

/-- R101: GETPX writes RESP with the pixel of the draw buffer and VALID = 1, or with 0 out of range, and nothing else. -/
def Obligations.GetpxReadsIntoResp : Prop :=
  (∀ (s : State) (x y : Int), 0 ≤ x → x < s.cfg.width → 0 ≤ y → y < s.cfg.height →
      let cell := (if s.cfg.dbuf then 1 - s.front.toNat else 0) * (s.cfg.width * s.cfg.height)
        + y.toNat * s.cfg.width + x.toNat
      exec (.getpx x y) s = .next { s with resp := 1#1 ++ Memory.read s.fb cell })
  ∧ (∀ (s : State) (x y : Int), x < 0 ∨ s.cfg.width ≤ x ∨ y < 0 ∨ s.cfg.height ≤ y →
      exec (.getpx x y) s = .next { s with resp := 0 })
  ∧ (∀ (s : State) (w : Word), opField w = 0x02#8 → presentCommand w s
      = if w.extractLsb' 0 24 = 0#24 then exec (.getpx (w.extractLsb' 24 16).toInt (w.extractLsb' 40 16).toInt) s
        else .next { s with cmderr := true })

/-- R102: CLEAR sets every cell of the draw buffer and no other cell, and changes nothing else. -/
def Obligations.ClearFillsTheDrawBuffer : Prop :=
  (∀ (s : State) (r g b : Byte),
      let draw := if s.cfg.dbuf then 1 - s.front.toNat else 0
      let npix := s.cfg.width * s.cfg.height
      ∃ fb, exec (.clear r g b) s = .next { s with fb := fb }
        ∧ (∀ i < npix, Memory.read fb (draw * npix + i) = r ++ g ++ b)
        ∧ ∀ a, (a < draw * npix ∨ draw * npix + npix ≤ a) → Memory.read fb a = Memory.read s.fb a)
  ∧ (∀ (s : State) (w : Word), opField w = 0x03#8 → presentCommand w s
      = if w.extractLsb' 24 32 = 0#32 then exec (.clear (w.extractLsb' 16 8) (w.extractLsb' 8 8) (w.extractLsb' 0 8)) s
        else .next { s with cmderr := true })

/-- R103: SWAP does nothing with a single buffer, flips FRONT when idle, and toggles SWAP_PENDING while busy. -/
def Obligations.SwapFlipsOrDefers : Prop :=
  (∀ s : State, s.cfg.dbuf = false → exec .swap s = .next s)
  ∧ (∀ s : State, s.cfg.dbuf = true → s.phase = .idle → exec .swap s = .next { s with front := !s.front })
  ∧ (∀ s : State, s.cfg.dbuf = true → s.phase ≠ .idle → exec .swap s = .next { s with swapPending := !s.swapPending })
  ∧ (∀ (s : State) (w : Word), opField w = 0x04#8 → presentCommand w s
      = if w.extractLsb' 0 56 = 0#56 then exec .swap s else .next { s with cmderr := true })

/-- R100, the law of SETPX and GETPX: the colour set is the colour read back, whatever the sequencer and the timer do in between. -/
def Obligations.GetpxReturnsWhatSetpxWrote : Prop :=
  ∀ (s t u : State) (x y : Int) (r g b : Byte) (turns : List Turn),
    0 ≤ x → x < s.cfg.width → 0 ≤ y → y < s.cfg.height →
    exec (.setpx x y r g b) s = .next t → (∀ τ ∈ turns, τ.quiet = true) → runTurns turns t = .next u →
    exec (.getpx x y) u = .next { u with resp := 1#1 ++ (r ++ g ++ b) }

/-! ### Brightness, timing and control (spec/43_control_commands.md) -/

/-- R141: SETBRI sets BRI; a word with a bit of 55:8 set is illegal. -/
def Obligations.SetbriSetsBrightness : Prop :=
  (∀ (s : State) (level : Byte), exec (.setbri level) s = .next { s with bri := level })
  ∧ (∀ (s : State) (w : Word), opField w = 0x10#8 → presentCommand w s
      = if w.extractLsb' 8 48 = 0#48 then .next { s with bri := w.extractLsb' 0 8 } else .next { s with cmderr := true })

/-- R142: ADJBRI adds a signed amount to BRI and saturates at 0 and 255; the sum never wraps. -/
def Obligations.AdjbriSaturates : Prop :=
  (∀ (s : State) (delta : Int), ∃ bri : BitVec 8,
      exec (.adjbri delta) s = .next { s with bri := bri } ∧ (bri.toNat : Int) = max 0 (min 255 (s.bri.toNat + delta)))
  ∧ (∀ (s : State) (w : Word), opField w = 0x11#8 → presentCommand w s
      = if w.extractLsb' 32 24 = 0#24 then exec (.adjbri (w.extractLsb' 0 32).toInt) s
        else .next { s with cmderr := true })

/-- R143: SETUNIT sets UNIT; a word with a bit of 55:32 set is illegal. -/
def Obligations.SetunitSetsUnit : Prop :=
  (∀ (s : State) (ticks : BitVec 32), exec (.setunit ticks) s = .next { s with unit := ticks })
  ∧ (∀ (s : State) (w : Word), opField w = 0x12#8 → presentCommand w s
      = if w.extractLsb' 32 24 = 0#24 then .next { s with unit := w.extractLsb' 0 32 }
        else .next { s with cmderr := true })

/-- R144: START when idle applies a pending swap, clears the flags and begins at (PLANE, 0, 0, 0); while busy it does nothing. -/
def Obligations.StartBeginsOneRefresh : Prop :=
  (∀ s : State, s.phase = .idle →
      let front := if s.swapPending then !s.front else s.front
      exec .start s = .next { s with
        front := front, swapPending := false, done := false, cancelled := false, cancelPending := false,
        p := 0, r := 0, c := 0, phase := .plane, trace := .refreshStart front :: s.trace })
  ∧ (∀ s : State, s.phase ≠ .idle → exec .start s = .next s)
  ∧ (∀ (s : State) (w : Word), opField w = 0x20#8 → presentCommand w s
      = if w.extractLsb' 0 56 = 0#56 then exec .start s else .next { s with cmderr := true })

/-- R145: CANCEL while busy records the request and nothing else; when idle it does nothing. -/
def Obligations.CancelRecordsTheRequest : Prop :=
  (∀ s : State, s.phase ≠ .idle → exec .cancel s = .next { s with cancelPending := true })
  ∧ (∀ s : State, s.phase = .idle → exec .cancel s = .next s)
  ∧ (∀ (s : State) (w : Word), opField w = 0x21#8 → presentCommand w s
      = if w.extractLsb' 0 56 = 0#56 then exec .cancel s else .next { s with cmderr := true })

/-- R151, R35: RDCSR returns the value of the CSR and writes no state of the block; the numbers 8..15 read as zero. -/
def Obligations.RdcsrReturnsTheRegister : Prop :=
  (∀ (s : State) (n : BitVec 4), exec (.rdcsr n) s = .next { s with reads := ⟨n, s.csr n⟩ :: s.reads })
  ∧ ∀ (s : State) (n : BitVec 4), 8 ≤ n.toNat → s.csr n = 0

/-- R36 to R43, R27, R33: every field of the eight CSRs, and zero in the unused bits. -/
def Obligations.CsrLayouts : Prop :=
  ∀ s : State, ValidConfig s.cfg →
    (((s.csr 0).extractLsb' 0 16).toNat = s.cfg.width ∧ ((s.csr 0).extractLsb' 16 7).toNat = s.cfg.height
      ∧ ((s.csr 0).extractLsb' 23 4).toNat = s.cfg.colorBits ∧ ((s.csr 0).extractLsb' 27 3).toNat = addressBits s.cfg
      ∧ ((s.csr 0).extractLsb' 30 3).toNat = s.cfg.nAddr ∧ (s.csr 0).getLsbD 33 = s.cfg.dbuf
      ∧ (s.csr 0).extractLsb' 34 30 = 0)
    ∧ ((s.csr 1).extractLsb' 0 4 = s.phase.code ∧ (s.csr 1).getLsbD 4 = decide (s.phase ≠ .idle)
      ∧ (s.csr 1).getLsbD 5 = s.front ∧ (s.csr 1).getLsbD 6 = s.swapPending ∧ (s.csr 1).getLsbD 7 = s.cancelPending
      ∧ (s.csr 1).getLsbD 8 = s.done ∧ (s.csr 1).getLsbD 9 = s.cancelled ∧ (s.csr 1).getLsbD 10 = s.cmderr
      ∧ (s.csr 1).getLsbD 11 = s.tmrArmed ∧ (s.csr 1).extractLsb' 12 52 = 0)
    ∧ ((s.csr 2).extractLsb' 0 3 = s.p ∧ (s.csr 2).extractLsb' 3 5 = s.r ∧ (s.csr 2).extractLsb' 8 16 = s.c
      ∧ (s.csr 2).extractLsb' 24 40 = 0)
    ∧ ((s.csr 3).extractLsb' 0 8 = s.bri ∧ (s.csr 3).extractLsb' 8 56 = 0)
    ∧ ((s.csr 4).extractLsb' 0 32 = s.unit ∧ (s.csr 4).extractLsb' 32 32 = 0)
    ∧ ((s.csr 5).extractLsb' 0 40 = s.hold ∧ (s.csr 5).extractLsb' 40 24 = 0)
    ∧ ((s.csr 6).extractLsb' 0 6 = s.pins.data ∧ (s.csr 6).extractLsb' 6 5 = s.pins.addr
      ∧ (s.csr 6).getLsbD 11 = s.pins.clk ∧ (s.csr 6).getLsbD 12 = s.pins.lat ∧ (s.csr 6).getLsbD 13 = s.pins.oe
      ∧ (s.csr 6).extractLsb' 14 50 = 0)
    ∧ ((s.csr 7).extractLsb' 0 25 = s.resp ∧ (s.csr 7).extractLsb' 25 39 = 0)

/-! ### Micro-operations (spec/42_sequencer_microops.md) -/

/-- R111: in IDLE the sequencer does nothing on its own; the spec enables no step, and the turn passes (log entry 5). -/
def Obligations.IdleDoesNothing : Prop :=
  ∀ s : State, s.phase = .idle → exec .idle s = .next s

/-- R112: PLANE computes HOLD = 2^P * ((UNIT * BRI) div 255), sets R to 0 and goes to BLANK; it writes no pin and emits nothing. -/
def Obligations.PlaneComputesTheHold : Prop :=
  ∀ s : State, s.phase = .plane → ∃ hold : Ticks,
    exec .plane s = .next { s with hold := hold, r := 0, phase := .blank }
    ∧ hold.toNat = 2 ^ s.p.toNat * ((s.unit.toNat * s.bri.toNat) / 255)

/-- R113: BLANK drives OE to 0 and goes to ADDR. -/
def Obligations.BlankDisablesOutput : Prop :=
  ∀ s : State, s.phase = .blank →
    exec .blank s = .next { s with
      pins := { s.pins with oe := false }, phase := .addr,
      trace := .pins (Pins.word { s.pins with oe := false }) :: s.trace }

/-- R114: ADDR drives wired address line i to bit i of R and unwired lines to 0, sets C to 0 and goes to DATA;
no bit of R is lost when R fits the wired lines. -/
def Obligations.AddrDrivesTheRowAddress : Prop :=
  ∀ s : State, s.phase = .addr → ∃ addr : BitVec 5,
    exec .addr s = .next { s with
      pins := { s.pins with addr := addr }, c := 0, phase := .data,
      trace := .pins (Pins.word { s.pins with addr := addr }) :: s.trace }
    ∧ (∀ i < 5, addr.getLsbD i = (decide (i < s.cfg.nAddr) && s.r.getLsbD i))
    ∧ (s.r.toNat < 2 ^ s.cfg.nAddr → addr = s.r)

/-- R115, R94: DATA presents bit P of the gamma table's output for the six channel bytes of pixels (C, R) and (C, R + ROWS) of the
scan buffer, and goes to CLKH. The panel, the buffer and the bitplane exist, which R210 says they always do here. -/
def Obligations.DataPresentsOneColumn : Prop :=
  ∀ s : State, s.phase = .data → s.c.toNat < s.cfg.width → s.r.toNat < s.cfg.height / 2 →
    s.p.toNat < s.cfg.colorBits → (s.cfg.dbuf = false → s.front = false) →
    let npix := s.cfg.width * s.cfg.height
    let up := Memory.read s.fb (s.front.toNat * npix + s.r.toNat * s.cfg.width + s.c.toNat)
    let lo := Memory.read s.fb
      (s.front.toNat * npix + (s.r.toNat + s.cfg.height / 2) * s.cfg.width + s.c.toNat)
    let bitOf : Byte → Bool := fun v => (s.cfg.gamma.getD v.toNat 0).testBit s.p.toNat
    ∃ data : BitVec 6,
      exec .data s = .next { s with
        pins := { s.pins with data := data }, phase := .clkh,
        trace := .pins (Pins.word { s.pins with data := data }) :: s.trace }
      ∧ data.getLsbD 0 = bitOf (up.extractLsb' 16 8) ∧ data.getLsbD 1 = bitOf (up.extractLsb' 8 8)
      ∧ data.getLsbD 2 = bitOf (up.extractLsb' 0 8) ∧ data.getLsbD 3 = bitOf (lo.extractLsb' 16 8)
      ∧ data.getLsbD 4 = bitOf (lo.extractLsb' 8 8) ∧ data.getLsbD 5 = bitOf (lo.extractLsb' 0 8)

/-- R116 to R119: CLKH and CLKL make the clock pulse and step the column, LATH and LATL make the latch pulse. -/
def Obligations.ClockAndLatchPulses : Prop :=
  (∀ s : State, s.phase = .clkh →
      exec .clkh s = .next { s with
        pins := { s.pins with clk := true }, phase := .clkl,
        trace := .pins (Pins.word { s.pins with clk := true }) :: s.trace })
  ∧ (∀ s : State, s.phase = .clkl → s.c.toNat < 65535 → ∃ c : BitVec 16, c.toNat = s.c.toNat + 1 ∧
      exec .clkl s = .next { s with
        pins := { s.pins with clk := false }, c := c,
        phase := if s.c.toNat + 1 < s.cfg.width then .data else .lath,
        trace := .pins (Pins.word { s.pins with clk := false }) :: s.trace })
  ∧ (∀ s : State, s.phase = .lath →
      exec .lath s = .next { s with
        pins := { s.pins with lat := true }, phase := .latl,
        trace := .pins (Pins.word { s.pins with lat := true }) :: s.trace })
  ∧ (∀ s : State, s.phase = .latl →
      exec .latl s = .next { s with
        pins := { s.pins with lat := false }, phase := .oeon,
        trace := .pins (Pins.word { s.pins with lat := false }) :: s.trace })

/-- R120, R213: OEON enables the output, arms the timer with HOLD and sets the deadline, in one step, and goes to HOLD. The deadline is
part of the explicit time, which is the model's choice (log entry 8). -/
def Obligations.OeonEnablesAndArms : Prop :=
  ∀ s : State, s.phase = .oeon →
    exec .oeon s = .next { s with
      pins := { s.pins with oe := true }, tmrArmed := true, tmrN := s.hold, tmrDeadline := s.now + s.hold.toNat,
      phase := .hold,
      trace := .wait s.hold :: .pins (Pins.word { s.pins with oe := true }) :: s.trace }

/-- R121, R128: in HOLD the sequencer's step is the cancel step when a cancellation is pending; otherwise it is suspended and the turn
passes (log entry 5). -/
def Obligations.HoldCancelsOrWaits : Prop :=
  (∀ s : State, s.phase = .hold → s.cancelPending = true →
      exec .hold s = .next { s with
        pins := { s.pins with oe := false }, tmrArmed := false, phase := .idle, cancelled := true, cancelPending := false,
        trace := .cancelled :: .pins (Pins.word { s.pins with oe := false }) :: s.trace })
  ∧ (∀ s : State, s.phase = .hold → s.cancelPending = false → exec .hold s = .next s)

/-- R123: OEOFF disables the output and goes to the next row, the next bitplane, or IDLE with DONE. -/
def Obligations.OeoffAdvancesOrFinishes : Prop :=
  (∀ s : State, s.phase = .oeoff → s.r.toNat + 1 < s.cfg.height / 2 → s.r.toNat < 31 →
      ∃ r : BitVec 5, r.toNat = s.r.toNat + 1 ∧ exec .oeoff s = .next { s with
        pins := { s.pins with oe := false }, r := r, phase := .blank,
        trace := .pins (Pins.word { s.pins with oe := false }) :: s.trace })
  ∧ (∀ s : State, s.phase = .oeoff → s.cfg.height / 2 ≤ s.r.toNat + 1 → s.p.toNat + 1 < s.cfg.colorBits →
      s.p.toNat < 7 →
      ∃ p : BitVec 3, p.toNat = s.p.toNat + 1 ∧ exec .oeoff s = .next { s with
        pins := { s.pins with oe := false }, p := p, phase := .plane,
        trace := .pins (Pins.word { s.pins with oe := false }) :: s.trace })
  ∧ (∀ s : State, s.phase = .oeoff → s.cfg.height / 2 ≤ s.r.toNat + 1 → s.cfg.colorBits ≤ s.p.toNat + 1 →
      exec .oeoff s = .next { s with
        pins := { s.pins with oe := false }, phase := .idle, done := true, cancelPending := false,
        trace := .refreshDone :: .pins (Pins.word { s.pins with oe := false }) :: s.trace })

/-- R11: a micro-operation is enabled only in the phase that names it; asked for elsewhere, its meaning stops by name (the fault is the
model's choice, log entry 13). -/
def Obligations.MicroOpsAreDisabledOutsideTheirPhase : Prop :=
  ∀ (s : State) (ph : Phase), s.phase ≠ ph → exec ph.microOp s = .fault .notEnabled

/-- R52, R54, R93: DATA on a column or row outside the panel, or with FRONT = 1 and one buffer, names no cell and stops by name; where
the cells exist and P is no bitplane, it stops by name too (the faults are the model's choice, log entry 13).
No state with the invariant is such a state. -/
def Obligations.DataStopsWhereNoCellExists : Prop :=
  (∀ s : State, s.phase = .data →
    (s.cfg.width ≤ s.c.toNat ∨ s.cfg.height ≤ s.r.toNat + s.cfg.height / 2 ∨ (s.cfg.dbuf = false ∧ s.front = true)) →
    exec .data s = .fault .noSuchCell)
  ∧ (∀ s : State, s.phase = .data → s.c.toNat < s.cfg.width → s.r.toNat < s.cfg.height / 2 →
      (s.cfg.dbuf = false → s.front = false) → s.cfg.colorBits ≤ s.p.toNat →
      exec .data s = .fault .noSuchPlane)

/-- R129: with a cancellation pending and the wait over, either step may go first, and either way OE is 0 at the next sequencer step:
the cancel step ends the refresh; after the timer's completion OEOFF follows, which drops the request in the last row of the last
bitplane, and in any other row the cancel step acts on it in the hold of the next row in the order of R211. -/
def Obligations.CancelAndTimerInEitherOrder : Prop :=
  ∀ s : State, Inv s → s.phase = .hold → s.cancelPending = true → s.tmrDeadline ≤ s.now →
    (∃ t, runTurns [.sequencer] s = .next t ∧ t.pins.oe = false ∧ t.phase = .idle ∧ t.cancelled = true ∧ t.done = false)
    ∧ (∃ u, runTurns [.timer] s = .next u ∧ u.phase = .oeoff ∧ u.pins.oe = true ∧ u.cancelPending = true)
    ∧ (∃ v, runTurns [.timer, .sequencer] s = .next v ∧ v.pins.oe = false ∧ v.cancelled = false
        ∧ (s.r.toNat + 1 = s.cfg.height / 2 ∧ s.p.toNat + 1 = s.cfg.colorBits →
            v.phase = .idle ∧ v.done = true ∧ v.cancelPending = false)
        ∧ (¬(s.r.toNat + 1 = s.cfg.height / 2 ∧ s.p.toNat + 1 = s.cfg.colorBits) →
            (v.phase = .blank ∨ v.phase = .plane) ∧ v.cancelPending = true
            ∧ ∃ (n : Nat) (h e : State),
                runTurns (List.replicate n .sequencer) v = .next h
                ∧ h.phase = .hold ∧ h.cancelPending = true
                ∧ h.p.toNat * (s.cfg.height / 2) + h.r.toNat = s.p.toNat * (s.cfg.height / 2) + s.r.toNat + 1
                ∧ runTurns [.sequencer] h = .next e
                ∧ e.pins.oe = false ∧ e.phase = .idle ∧ e.cancelled = true ∧ e.done = false ∧ e.cancelPending = false))

/-! ### The whole machine -/

/-- R206 to R210: every step keeps the invariant. -/
def Obligations.EveryStepKeepsTheInvariant : Prop :=
  ∀ s t : State, Inv s → step s = .next t → Inv t

/-- R206, R207, R210: in every state that a built block reaches, whatever the host does and in whatever order the agents step:
idle means OE, CLK, LAT and TMR_ARMED 0 and no cancellation pending; OE is 1 exactly in HOLD and OEOFF, the timer armed exactly in
HOLD and for the length HOLD; and the counters are inside their bounds. -/
def Obligations.ReachableStatesAreSafe : Prop :=
  ∀ (cfg : Config) (fb : Memory) (acts : List HostAct) (turns : List Turn) (t : State),
    ValidConfig cfg → Memory.wf fb → (∀ e ∈ fb, e.1 < cellCount cfg) →
    runTurns turns { State.resetWith cfg fb with host := acts } = .next t →
    (t.phase = .idle →
      t.pins.oe = false ∧ t.pins.clk = false ∧ t.pins.lat = false ∧ t.tmrArmed = false ∧ t.cancelPending = false)
    ∧ (t.pins.oe = true ↔ t.phase = .hold ∨ t.phase = .oeoff)
    ∧ (t.phase = .hold → t.tmrArmed = true ∧ t.tmrN = t.hold)
    ∧ (t.phase = .oeoff → t.tmrArmed = false)
    ∧ (t.tmrArmed = true → t.phase = .hold)
    ∧ t.p.toNat < cfg.colorBits ∧ t.r.toNat < cfg.height / 2 ∧ t.c.toNat ≤ cfg.width
    ∧ (t.phase = .data ∨ t.phase = .clkh ∨ t.phase = .clkl → t.c.toNat < cfg.width)
    ∧ t.hold.toNat < 2 ^ 39
    ∧ ∀ i, cfg.nAddr ≤ i → t.pins.addr.getLsbD i = false

/-- R160: a correctly constructed block has no failure path: from every state with the invariant, whoever's turn it is and whatever
the host presents, the step gives a next state. -/
def Obligations.NoStepFails : Prop :=
  ∀ s : State, Inv s → ∃ t, step s = .next t

/-- R208: CLK, LAT and the address pins change only while OE is 0, the address pins only in ADDR; the data pins change only in DATA,
with CLK and OE at 0. -/
def Obligations.PinsChangeOnlyWhileBlanked : Prop :=
  ∀ s t : State, Inv s → step s = .next t → s.nextTurn.1.running = true →
    (t.pins.clk ≠ s.pins.clk ∨ t.pins.lat ≠ s.pins.lat ∨ t.pins.addr ≠ s.pins.addr ∨ t.pins.data ≠ s.pins.data →
      s.pins.oe = false ∧ t.pins.oe = false)
    ∧ (t.pins.addr ≠ s.pins.addr → s.phase = .addr)
    ∧ (t.pins.data ≠ s.pins.data → s.phase = .data ∧ s.pins.clk = false ∧ t.pins.clk = false)

/-- R57, R209: with double buffering, a step taken while busy leaves FRONT and every cell of the scan buffer as they were. -/
def Obligations.ScanBufferIsASnapshot : Prop :=
  ∀ s t : State, step s = .next t → s.nextTurn.1.running = true → s.cfg.dbuf = true → s.phase ≠ .idle →
    t.front = s.front
    ∧ ∀ i < s.cfg.width * s.cfg.height,
        Memory.read t.fb (s.front.toNat * (s.cfg.width * s.cfg.height) + i)
          = Memory.read s.fb (s.front.toNat * (s.cfg.width * s.cfg.height) + i)

/-- R56: the sequencer never writes memory, and neither does the timer or the passing of time. -/
def Obligations.OnlyTheHostWritesMemory : Prop :=
  ∀ s t : State, step s = .next t → s.nextTurn.1.quiet = true → t.fb = s.fb

/-- R6, R32: no step changes the configuration, the gamma table included. -/
def Obligations.ConfigurationNeverChanges : Prop :=
  ∀ s t : State, step s = .next t → t.cfg = s.cfg

/-- R104, R60: no frame-buffer command writes a pin, the sequencer position, BRI, UNIT, HOLD or the timer state. -/
def Obligations.FrameBufferCommandsLeaveTheSequencerAlone : Prop :=
  ∀ (s : State) (i : Instr), (∃ x y r g b, i = .setpx x y r g b) ∨ (∃ x y, i = .getpx x y) ∨ (∃ r g b, i = .clear r g b)
      ∨ i = .swap →
    ∃ t, exec i s = .next t ∧ t.pins = s.pins ∧ t.phase = s.phase ∧ t.p = s.p ∧ t.r = s.r ∧ t.c = s.c ∧ t.bri = s.bri
      ∧ t.unit = s.unit ∧ t.hold = s.hold ∧ t.tmrArmed = s.tmrArmed ∧ t.tmrN = s.tmrN ∧ t.tmrDeadline = s.tmrDeadline
      ∧ t.trace = s.trace

/-- R127, R213: a hold that ends by the timer lasts at least the requested ticks: OEON sets the deadline HOLD ticks ahead, no step in
HOLD moves it, and the phase passes to OEOFF only at or after it. -/
def Obligations.HoldLastsAtLeastItsLength : Prop :=
  ∀ s t : State, Inv s → step s = .next t →
    (s.phase = .oeon → t.phase = .hold → t.tmrDeadline = s.now + t.tmrN.toNat)
    ∧ (s.phase = .hold → t.phase = .hold → t.tmrDeadline = s.tmrDeadline ∧ t.tmrN = s.tmrN ∧ t.pins.oe = true)
    ∧ (s.phase = .hold → t.phase = .oeoff → s.tmrDeadline ≤ t.now)
    ∧ (t.phase = .oeoff → s.phase = .hold ∨ s.phase = .oeoff)

/-- R130: every sequencer step of a refresh that is not cancelled brings IDLE one step nearer, every completed wait one wait nearer,
and a START leaves exactly COLOR_BITS * (1 + ROWS * (6 + 3 * WIDTH)) steps and COLOR_BITS * ROWS waits. -/
def Obligations.RefreshTakesTheStatedSteps : Prop :=
  (∀ (s t : State) (rest : List Turn), Inv s → s.agenda = .sequencer :: rest → s.phase ≠ .idle → s.phase ≠ .hold →
      step s = .next t → stepsLeft t + 1 = stepsLeft s ∧ waitsLeft t = waitsLeft s)
  ∧ (∀ (s t : State) (rest : List Turn), Inv s → s.agenda = .timer :: rest → s.phase = .hold → s.tmrDeadline ≤ s.now →
      step s = .next t → stepsLeft t = stepsLeft s ∧ waitsLeft t + 1 = waitsLeft s)
  ∧ (∀ s t : State, Inv s → s.phase = .idle → exec .start s = .next t →
      stepsLeft t = s.cfg.colorBits * (1 + s.cfg.height / 2 * (6 + 3 * s.cfg.width))
      ∧ waitsLeft t = s.cfg.colorBits * (s.cfg.height / 2))
  ∧ (∀ s : State, Inv s → (stepsLeft s = 0 ↔ s.phase = .idle))

/-- R211: in one refresh with the host quiet the (P, R) pairs at successive OEON steps ascend, bitplanes first and rows within a
bitplane, none left out: in the hold of the pair (P, R) exactly P * ROWS + R + 1 waits have been requested since START. -/
def Obligations.RowsAndBitplanesAscend : Prop :=
  ∀ (s u t : State) (turns : List Turn), Inv s → s.phase = .idle → exec .start s = .next u →
    (∀ τ ∈ turns, τ.quiet = true) → runTurns turns u = .next t → t.phase = .hold →
    ∃ events, t.trace = events ++ s.trace
      ∧ (events.filter Event.isWait).length = t.p.toNat * (s.cfg.height / 2) + t.r.toNat + 1

/-- R130: every refresh ends: left to itself under the eager schedule of log entry 4, with no host act, the block reaches IDLE with
the output disabled. -/
def Obligations.EveryRefreshEnds : Prop :=
  ∀ s : State, Inv s → s.agenda = [] → s.host = [] →
    ∃ n t, Host.Core.run Sys2Proof.core n s = .next t ∧ t.phase = .idle ∧ t.pins.oe = false

/-- R131: the weight law: the hold of bitplane p is 2^p * SU, the hold doubles from one bitplane to the next, and the holds of one row
over all bitplanes sum to (2^COLOR_BITS - 1) * SU. -/
def Obligations.HoldsFollowTheWeightLaw : Prop :=
  ∀ (unit : BitVec 32) (bri : BitVec 8),
    (∀ p : BitVec 3, (holdLength unit bri p).toNat = 2 ^ p.toNat * ((unit.toNat * bri.toNat) / 255))
    ∧ (∀ p : BitVec 3, p.toNat < 7 → (holdLength unit bri (p + 1)).toNat = 2 * (holdLength unit bri p).toNat)
    ∧ ∀ n ≤ 8, ((List.range n).map fun p => (holdLength unit bri (BitVec.ofNat 3 p)).toNat).sum
        = (2 ^ n - 1) * ((unit.toNat * bri.toNat) / 255)

/-- R131, R215: the waits requested in one completed refresh, with the host quiet, sum to ROWS * (2^COLOR_BITS - 1) * SU, whatever the
pixels and in whatever order the agents step. -/
def Obligations.RefreshWaitTotal : Prop :=
  ∀ (s u t : State) (turns : List Turn), Inv s → s.phase = .idle → exec .start s = .next u →
    (∀ τ ∈ turns, τ.quiet = true) → runTurns turns u = .next t → t.phase = .idle →
    ∃ events, t.trace = events ++ s.trace
      ∧ waitTotal events = s.cfg.height / 2 * (2 ^ s.cfg.colorBits - 1) * ((s.unit.toNat * s.bri.toNat) / 255)

/-- R215: the pin OE carries no picture: two states that differ only in what depends on the pixels (cells, data pins, RESP, values
read, data bits of the trace) step to states that differ only in that. -/
def Obligations.OutputEnableCarriesNoPicture : Prop :=
  ∀ s s' t t' : State, s.withoutPicture = s'.withoutPicture → step s = .next t → step s' = .next t' →
    t.withoutPicture = t'.withoutPicture

/-! ### The mapper and the exposure law (spec/40_gamma_mapper.md, spec/70_reset_and_hazards.md) -/

/-- R96: the square-law reference table meets the contract of the gamma table at every supported depth, and its last entry is full scale. -/
def Obligations.SquareLawTableMeetsTheContract : Prop :=
  ∀ depth, 1 ≤ depth → depth ≤ 8 →
    GammaContract depth (Config.gammaSq depth) ∧ (Config.gammaSq depth).getD 255 0 = 2 ^ depth - 1

/-- R92, R93: an intensity is in range, intensities do not decrease, black is 0, and the plane bits rebuild the intensity. -/
def Obligations.PlaneBitsRebuildTheIntensity : Prop :=
  ∀ cfg : Config, ValidConfig cfg →
    (∀ v : Byte, planeIntensity cfg v ≤ 2 ^ cfg.colorBits - 1
      ∧ ((List.finRange cfg.colorBits).map fun p => (planeBit cfg v p).toNat * 2 ^ p.val).sum = planeIntensity cfg v)
    ∧ (∀ u v : Byte, u.toNat ≤ v.toNat → planeIntensity cfg u ≤ planeIntensity cfg v)
    ∧ ∀ p, planeBit cfg 0 p = false

/-- R95: the inputs that map to intensity 0 are exactly those below their number Z, and Z is at least 1. -/
def Obligations.LowInputsCollapseToBlack : Prop :=
  ∀ cfg : Config, ValidConfig cfg →
    let zeros := ((List.range 256).filter fun v => decide (cfg.gamma.getD v 0 = 0)).length
    1 ≤ zeros ∧ ∀ v : Byte, planeIntensity cfg v = 0 ↔ v.toNat < zeros

/-- R217: the exposure law, the core BCM correctness property: over one completed refresh with the host quiet, under the reference
panel observer, the nominal lit time of every sub-pixel is its intensity times SU. -/
def Obligations.ExposureLaw : Prop :=
  ∀ (s u t : State) (turns : List Turn) (cut : Nat → Nat) (sp : SubPixel) (panel : Panel),
    Inv s → s.phase = .idle → exec .start s = .next u →
    (∀ τ ∈ turns, τ.quiet = true) → runTurns turns u = .next t → t.phase = .idle →
    sp.x < s.cfg.width → sp.y < s.cfg.height →
    panel.pins = s.pins.word → panel.sr.length = s.cfg.width →
    ∃ events, t.trace = events ++ s.trace
      ∧ (Panel.watch s.cfg cut sp panel events).litTime
        = panel.litTime
          + planeIntensity s.cfg (sp.ch.byte (Memory.read s.fb (cellAddr s.cfg u.front.toNat sp.x sp.y)))
            * ((s.unit.toNat * s.bri.toNat) / 255)

/-- R218: the test of DOC0 §8 as the spec reads it. Over two completed refreshes with the host quiet, of any two buffers under one
configuration, BRI and UNIT, with SU above 0: one watched sub-pixel is lit strictly longer than another exactly when its intensity is
greater, while the requested holds of the two refreshes sum to the same. Of the reference tables, GAMMA_SQ puts 255 above 128 at every
depth, and GAMMA_LIN puts 255 above 127 at every depth and above 128 exactly at depths of 2 and more. -/
def Obligations.BrighterIsLitStrictlyLonger : Prop :=
  (∀ (s u t s' u' t' : State) (turns turns' : List Turn) (cut cut' : Nat → Nat) (sp sp' : SubPixel) (panel panel' : Panel),
    Inv s → Inv s' → s.phase = .idle → s'.phase = .idle → exec .start s = .next u → exec .start s' = .next u' →
    (∀ τ ∈ turns, τ.quiet = true) → (∀ τ ∈ turns', τ.quiet = true) →
    runTurns turns u = .next t → runTurns turns' u' = .next t' → t.phase = .idle → t'.phase = .idle →
    s'.cfg = s.cfg → s'.bri = s.bri → s'.unit = s.unit → 0 < s.unit.toNat * s.bri.toNat / 255 →
    sp.x < s.cfg.width → sp.y < s.cfg.height → sp'.x < s.cfg.width → sp'.y < s.cfg.height →
    panel.pins = s.pins.word → panel.sr.length = s.cfg.width →
    panel'.pins = s'.pins.word → panel'.sr.length = s.cfg.width →
    ∃ events events', t.trace = events ++ s.trace ∧ t'.trace = events' ++ s'.trace
      ∧ ((Panel.watch s.cfg cut' sp' panel' events').litTime - panel'.litTime
            < (Panel.watch s.cfg cut sp panel events).litTime - panel.litTime
          ↔ planeIntensity s.cfg (sp'.ch.byte (Memory.read s'.fb (cellAddr s.cfg u'.front.toNat sp'.x sp'.y)))
            < planeIntensity s.cfg (sp.ch.byte (Memory.read s.fb (cellAddr s.cfg u.front.toNat sp.x sp.y))))
      ∧ waitTotal events = waitTotal events')
  ∧ ∀ depth, 1 ≤ depth → depth ≤ 8 →
      (Config.gammaSq depth).getD 128 0 < (Config.gammaSq depth).getD 255 0
      ∧ (Config.gammaLin depth).getD 127 0 < (Config.gammaLin depth).getD 255 0
      ∧ ((Config.gammaLin depth).getD 128 0 < (Config.gammaLin depth).getD 255 0 ↔ 2 ≤ depth)
end

