-- ==== Sys2Proof/Laws/Config.lean ====
section
/-! SUPPORT. The linear reference table meets the gamma contract, and the check of the table in the words of the contract. -/

namespace Sys2Proof.Machine

@[simp] theorem gammaLin_getD (colorBits v : Nat) (h : v < 256) :
    (Config.gammaLin colorBits).getD v 0 = v >>> (8 - colorBits) := by
  simp [Config.gammaLin, List.getD, List.getElem?_range h]

/-- `GAMMA_LIN` meets the contract at every supported depth (spec/40_gamma_mapper.md R96). -/
theorem gammaLin_contract (colorBits : Nat) (h : colorBits ≤ 8) : GammaContract colorBits (Config.gammaLin colorBits) where
  total := by simp [Config.gammaLin]
  range := by
    intro v hv
    rw [gammaLin_getD colorBits v hv, Nat.shiftRight_eq_div_pow]
    have h1 : v / 2 ^ (8 - colorBits) < 2 ^ colorBits := by
      rw [Nat.div_lt_iff_lt_mul (by positivity), ← pow_add, show colorBits + (8 - colorBits) = 8 by omega]
      omega
    omega
  monotone := by
    intro u v huv hv
    rw [gammaLin_getD colorBits u (by omega), gammaLin_getD colorBits v hv, Nat.shiftRight_eq_div_pow,
      Nat.shiftRight_eq_div_pow]
    exact Nat.div_le_div_right huv
  black := by rw [gammaLin_getD colorBits 0 (by decide)]; simp

/-- What the check of the table's order says. -/
theorem nonDecreasing_iff (gamma : List Nat) :
    nonDecreasing gamma = true ↔ ∀ u v, u ≤ v → v < gamma.length → gamma.getD u 0 ≤ gamma.getD v 0 := by
  induction gamma with
  | nil => simp [nonDecreasing]
  | cons a gamma ih =>
    cases gamma with
    | nil =>
      simp only [nonDecreasing, true_iff]
      intro u v huv hv
      have hu : u = v := by simp at hv; omega
      rw [hu]
    | cons b gamma =>
      simp only [nonDecreasing, Bool.and_eq_true, decide_eq_true_eq, ih]
      refine ⟨fun ⟨hab, h⟩ u v huv hv => ?_, fun h => ⟨by simpa using h 0 1 (by omega) (by simp), fun u v huv hv => ?_⟩⟩
      · cases v with
        | zero =>
          obtain rfl : u = 0 := by omega
          exact le_refl _
        | succ v =>
          cases u with
          | zero =>
            have h1 := h 0 v (by omega) (by simpa using hv)
            simp at h1 ⊢
            omega
          | succ u => exact h u v (by omega) (by simpa using hv)
      · exact h (u + 1) (v + 1) (by omega) (by simpa using hv)

/-- The check of the table is the contract of spec/40_gamma_mapper.md R91. -/
theorem gammaCheck_iff (colorBits : Nat) (gamma : List Nat) :
    gammaCheck colorBits gamma = true ↔ GammaContract colorBits gamma := by
  unfold gammaCheck
  simp only [Bool.and_eq_true, decide_eq_true_eq, List.all_eq_true, nonDecreasing_iff]
  constructor
  · rintro ⟨⟨⟨h1, h2⟩, h3⟩, h4⟩
    refine ⟨h1, fun v hv => ?_, fun u v huv hv => h3 u v huv (h1 ▸ hv), ?_⟩
    · rw [List.getD_eq_getElem _ _ (h1 ▸ hv)]
      exact h2 _ (List.getElem_mem _)
    · cases gamma with
      | nil => simp at h4
      | cons a gamma => simpa using h4
  · rintro ⟨h1, h2, h3, h4⟩
    refine ⟨⟨⟨h1, fun e he => ?_⟩, fun u v huv hv => h3 u v huv (h1 ▸ hv)⟩, ?_⟩
    · obtain ⟨v, hv, rfl⟩ := List.getElem_of_mem he
      have h := h2 v (h1 ▸ hv)
      rwa [List.getD_eq_getElem _ _ hv] at h
    · cases gamma with
      | nil => simp at h1
      | cons a gamma => simpa using h4

end Sys2Proof.Machine
end

