-- ==== Sys2Proof/Laws/Decode.lean ====
section
/-! SUPPORT. What the field readers find in the words that the formats build, and the range of a sign-extended field. -/

namespace Sys2Proof

@[simp] theorem getLsbD_placeIn (m : Nat) {n : Nat} (v : BitVec n) (pos i : Nat) :
    (placeIn m v pos).getLsbD i = (decide (i < m) && decide (pos ≤ i) && v.getLsbD (i - pos)) := by
  simp only [placeIn, BitVec.getLsbD_shiftLeft, BitVec.getLsbD_setWidth]
  by_cases h : i < m <;> by_cases h' : pos ≤ i
  · simp [h, h', show i - pos < m by omega]
  all_goals simp [h, h']

@[simp] theorem getLsbD_place {n : Nat} (v : BitVec n) (pos i : Nat) :
    (place v pos).getLsbD i = (decide (i < 64) && decide (pos ≤ i) && v.getLsbD (i - pos)) :=
  getLsbD_placeIn 64 v pos i

@[simp] theorem getLsbD_placeBit (m : Nat) (b : Bool) (pos i : Nat) :
    (placeBit m b pos).getLsbD i = (decide (i < m) && decide (i = pos) && b) := by
  rw [placeBit, getLsbD_placeIn]
  by_cases h : i = pos
  · simp [h]
  · by_cases h' : pos ≤ i
    · simp [h, h', BitVec.getLsbD_ofBool, show i - pos ≠ 0 by omega]
    · simp [h, h']

@[simp] theorem getElem_placeIn (m : Nat) {n : Nat} (v : BitVec n) (pos i : Nat) (h : i < m) :
    (placeIn m v pos)[i] = (decide (pos ≤ i) && v.getLsbD (i - pos)) := by
  rw [← BitVec.getLsbD_eq_getElem, getLsbD_placeIn]
  simp [h]

@[simp] theorem getElem_place {n : Nat} (v : BitVec n) (pos i : Nat) (h : i < 64) :
    (place v pos)[i] = (decide (pos ≤ i) && v.getLsbD (i - pos)) :=
  getElem_placeIn 64 v pos i h

@[simp] theorem getElem_placeBit (m : Nat) (b : Bool) (pos i : Nat) (h : i < m) :
    (placeBit m b pos)[i] = (decide (i = pos) && b) := by
  rw [← BitVec.getLsbD_eq_getElem, getLsbD_placeBit]
  simp [h]

/-- A 16-bit sign extension is a coordinate. -/
theorem coordFits_toInt (v : BitVec 16) : coordFits v.toInt = true := by
  have h1 := BitVec.toInt_lt (x := v)
  have h2 := BitVec.le_toInt (x := v)
  simp [coordFits]
  omega

/-- A 32-bit sign extension is a brightness amount. -/
theorem deltaFits_toInt (v : BitVec 32) : deltaFits v.toInt = true := by
  have h1 := BitVec.toInt_lt (x := v)
  have h2 := BitVec.le_toInt (x := v)
  simp [deltaFits]
  omega

/-- The fields of a word of format P. -/
theorem formatP_fields (op : BitVec 8) (y x : BitVec 16) (r g b : Byte) :
    (formatP op y x r g b).extractLsb' 56 8 = op ∧ (formatP op y x r g b).extractLsb' 40 16 = y
      ∧ (formatP op y x r g b).extractLsb' 24 16 = x ∧ (formatP op y x r g b).extractLsb' 16 8 = r
      ∧ (formatP op y x r g b).extractLsb' 8 8 = g ∧ (formatP op y x r g b).extractLsb' 0 8 = b := by
  refine ⟨?_, ?_, ?_, ?_, ?_, ?_⟩
  all_goals
    apply BitVec.eq_of_getLsbD_eq
    intro i hi
    simp [formatP]
    interval_cases i <;> simp

/-- The fields of a word of format V. -/
theorem formatV_fields (op : BitVec 8) (imm : BitVec 32) :
    (formatV op imm).extractLsb' 56 8 = op ∧ (formatV op imm).extractLsb' 32 24 = 0
      ∧ (formatV op imm).extractLsb' 0 32 = imm := by
  refine ⟨?_, ?_, ?_⟩
  all_goals
    apply BitVec.eq_of_getLsbD_eq
    intro i hi
    simp [formatV]
    interval_cases i <;> simp

/-- The fields of a word of format N. -/
theorem formatN_fields (op : BitVec 8) :
    (formatN op).extractLsb' 56 8 = op ∧ (formatN op).extractLsb' 0 56 = 0 := by
  refine ⟨?_, ?_⟩
  all_goals
    apply BitVec.eq_of_getLsbD_eq
    intro i hi
    simp [formatN]
    interval_cases i <;> simp

/-- A coordinate survives its 16-bit field. -/
theorem toInt_ofInt_of_coordFits {v : Int} (h : coordFits v = true) : (BitVec.ofInt 16 v).toInt = v := by
  simp [coordFits] at h
  rw [BitVec.toInt_ofInt]
  exact Int.bmod_eq_of_le (by omega) (by omega)

/-- A brightness amount survives its 32-bit field. -/
theorem toInt_ofInt_of_deltaFits {v : Int} (h : deltaFits v = true) : (BitVec.ofInt 32 v).toInt = v := by
  simp [deltaFits] at h
  rw [BitVec.toInt_ofInt]
  exact Int.bmod_eq_of_le (by omega) (by omega)

/-- A phase code names the phase it came from, and the reserved codes name none. -/
@[simp] theorem Phase.ofCode_code (ph : Phase) : Phase.ofCode ph.code = some ph := by cases ph <;> rfl

/-- A code that names a phase is that phase's code. -/
theorem Phase.code_of_ofCode {c : BitVec 4} {ph : Phase} (h : Phase.ofCode c = some ph) : c = ph.code := by
  revert h
  revert c ph
  decide

end Sys2Proof
end

