-- ==== Sys2Proof/Laws/Memory.lean ====
section
/-! SUPPORT. The laws of the frame-buffer memory: what a read sees after a fill or a write, and that the canonical form is kept. -/

namespace Sys2Proof.Machine

@[simp] theorem Memory.read_nil (a : Nat) : Memory.read [] a = Memory.unlistedPixel := rfl

theorem Memory.wf_nil : Memory.wf [] := ⟨List.Pairwise.nil, by simp⟩

/-- The run of cells that a fill lists. -/
theorem find_run (base n a : Nat) (v : Pixel) :
    ((List.range n).map fun i => (base + i, v)).find? (fun e => e.1 == a)
      = if base ≤ a ∧ a < base + n then some (a, v) else none := by
  induction n with
  | zero => simp
  | succ n ih =>
    rw [List.range_succ, List.map_append, List.find?_append, ih]
    by_cases h : base ≤ a ∧ a < base + n
    · rw [if_pos h, if_pos (by omega)]; rfl
    · rw [if_neg h]
      by_cases h' : base + n = a
      · subst h'; simp
      · rw [if_neg (by omega)]; simp [h']

/-- A filter that keeps cell `a` does not change what `find?` gives for it. -/
theorem find_filter_keep (m : Memory) (a : Nat) (q : Nat → Bool) (h : q a = true) :
    (m.filter fun e => q e.1).find? (fun e => e.1 == a) = m.find? fun e => e.1 == a := by
  induction m with
  | nil => rfl
  | cons e m ih =>
    by_cases he : e.1 = a
    · simp [he, h]
    · by_cases hq : q e.1 = true <;> simp [he, hq, ih]

/-- A filter that drops cell `a` leaves nothing to find. -/
theorem find_filter_drop (m : Memory) (a : Nat) (q : Nat → Bool) (h : q a = false) :
    (m.filter fun e => q e.1).find? (fun e => e.1 == a) = none := by
  rw [List.find?_eq_none]
  intro e he
  rw [List.mem_filter] at he
  intro h'
  rw [beq_iff_eq] at h'
  rw [h', h] at he
  simp at he

/-- The part of a filled memory that the fill lists. -/
theorem find_filled (base n a : Nat) (v : Pixel) :
    (if v = Memory.unlistedPixel then [] else (List.range n).map fun i => (base + i, v)).find? (fun e => e.1 == a)
      = if (base ≤ a ∧ a < base + n) ∧ v ≠ Memory.unlistedPixel then some (a, v) else none := by
  by_cases hv : v = Memory.unlistedPixel
  · rw [if_pos hv, if_neg (fun h => h.2 hv)]; rfl
  · rw [if_neg hv, find_run]
    by_cases h : base ≤ a ∧ a < base + n
    · rw [if_pos h, if_pos ⟨h, hv⟩]
    · rw [if_neg h, if_neg (fun h' => h h'.1)]

/-- What a read sees after a fill: inside the run the new pixel, outside it the old one. -/
theorem Memory.read_fill (m : Memory) (base n a : Nat) (v : Pixel) :
    Memory.read (Memory.fill m base n v) a = if base ≤ a ∧ a < base + n then v else Memory.read m a := by
  unfold Memory.read Memory.fill
  rw [List.find?_append, List.find?_append, find_filled]
  by_cases hlow : a < base
  · have hin : ¬(base ≤ a ∧ a < base + n) := by omega
    rw [find_filter_keep m a (fun k => decide (k < base)) (by simpa using hlow),
      find_filter_drop m a (fun k => decide (base + n ≤ k)) (by simp; omega)]
    simp [hin]
  · rw [find_filter_drop m a (fun k => decide (k < base)) (by simpa using hlow)]
    have hge : base ≤ a := by omega
    by_cases hin : a < base + n
    · rw [find_filter_drop m a (fun k => decide (base + n ≤ k)) (by simp; omega)]
      by_cases hv : v = Memory.unlistedPixel <;> simp [hge, hin, hv]
    · rw [find_filter_keep m a (fun k => decide (base + n ≤ k)) (by simp; omega)]
      simp [hin]

/-- What a read sees after a write. -/
theorem Memory.read_write (m : Memory) (a b : Nat) (v : Pixel) :
    Memory.read (Memory.write m a v) b = if b = a then v else Memory.read m b := by
  rw [Memory.write, Memory.read_fill]
  by_cases h : b = a
  · rw [if_pos h, if_pos (by omega)]
  · rw [if_neg h, if_neg (by omega)]

/-- The entries of a filled memory. -/
theorem Memory.mem_fill {m : Memory} {base n : Nat} {v : Pixel} {e : Nat × Pixel}
    (h : e ∈ Memory.fill m base n v) :
    e ∈ m ∨ (base ≤ e.1 ∧ e.1 < base + n ∧ e.2 = v ∧ v ≠ Memory.unlistedPixel) := by
  unfold Memory.fill at h
  rw [List.mem_append, List.mem_append] at h
  obtain (h | h) | h := h
  · exact .inl (List.mem_filter.1 h).1
  · split at h
    · simp at h
    · rw [List.mem_map] at h
      obtain ⟨i, hi, rfl⟩ := h
      rw [List.mem_range] at hi
      exact .inr ⟨by simp, by simpa using hi, rfl, ‹_›⟩
  · exact .inl (List.mem_filter.1 h).1

/-- A fill keeps the canonical form. -/
theorem Memory.fill_wf {m : Memory} (h : Memory.wf m) (base n : Nat) (v : Pixel) :
    Memory.wf (Memory.fill m base n v) := by
  refine ⟨?_, fun e he => ?_⟩
  · unfold Memory.fill
    rw [List.pairwise_append, List.pairwise_append]
    refine ⟨⟨h.1.filter _, ?_, ?_⟩, h.1.filter _, ?_⟩
    · split
      · exact List.Pairwise.nil
      · rw [List.pairwise_map]
        exact List.pairwise_lt_range.imp fun h => by simpa using h
    · intro e he f hf
      split at hf
      · simp at hf
      · simp at he hf
        obtain ⟨i, -, rfl⟩ := hf
        omega
    · intro e he f hf
      rw [List.mem_append] at he
      simp at hf
      obtain he | he := he
      · simp at he; omega
      · split at he
        · simp at he
        · simp at he
          obtain ⟨i, hi, rfl⟩ := he
          omega
  · obtain he | ⟨-, -, he, hv⟩ := Memory.mem_fill he
    · exact h.2 e he
    · rw [he]; exact hv

/-- A write keeps the canonical form. -/
theorem Memory.write_wf {m : Memory} (h : Memory.wf m) (a : Nat) (v : Pixel) : Memory.wf (Memory.write m a v) :=
  Memory.fill_wf h a 1 v

/-- A fill inside the memory lists no cell outside it. -/
theorem Memory.fill_bound {m : Memory} {bound base n : Nat} (h : ∀ e ∈ m, e.1 < bound) (hn : base + n ≤ bound)
    (v : Pixel) : ∀ e ∈ Memory.fill m base n v, e.1 < bound := by
  intro e he
  obtain he | ⟨-, he, -, -⟩ := Memory.mem_fill he
  · exact h e he
  · omega

/-- The memory that a list of cells describes is in canonical form and lists only cells that exist. -/
theorem Memory.ofCells_form (bound : Nat) (cells : List (Nat × Pixel)) :
    Memory.wf (Memory.ofCells bound cells) ∧ ∀ e ∈ Memory.ofCells bound cells, e.1 < bound := by
  suffices h : ∀ m : Memory, (Memory.wf m ∧ ∀ e ∈ m, e.1 < bound) →
      (Memory.wf (cells.foldl (fun m e => if e.1 < bound then Memory.write m e.1 e.2 else m) m)
        ∧ ∀ e ∈ cells.foldl (fun m e => if e.1 < bound then Memory.write m e.1 e.2 else m) m, e.1 < bound) from
    h [] ⟨Memory.wf_nil, by simp⟩
  induction cells with
  | nil => exact fun m h => h
  | cons c cells ih =>
    intro m h
    rw [List.foldl_cons]
    apply ih
    split
    · exact ⟨Memory.write_wf h.1 _ _, Memory.fill_bound h.2 (by omega) _⟩
    · exact h

end Sys2Proof.Machine
end

