-- ==== Sys2Proof/Laws/State.lean ====
section
/-! SUPPORT. One lemma per field per state operation, so that no proof unfolds a record update. -/

namespace Sys2Proof.Machine

/-! ### An event -/

@[simp] theorem State.emit_cfg (s : State) (e : Event) : (s.emit e).cfg = s.cfg := rfl
@[simp] theorem State.emit_bri (s : State) (e : Event) : (s.emit e).bri = s.bri := rfl
@[simp] theorem State.emit_unit (s : State) (e : Event) : (s.emit e).unit = s.unit := rfl
@[simp] theorem State.emit_hold (s : State) (e : Event) : (s.emit e).hold = s.hold := rfl
@[simp] theorem State.emit_resp (s : State) (e : Event) : (s.emit e).resp = s.resp := rfl
@[simp] theorem State.emit_phase (s : State) (e : Event) : (s.emit e).phase = s.phase := rfl
@[simp] theorem State.emit_p (s : State) (e : Event) : (s.emit e).p = s.p := rfl
@[simp] theorem State.emit_r (s : State) (e : Event) : (s.emit e).r = s.r := rfl
@[simp] theorem State.emit_c (s : State) (e : Event) : (s.emit e).c = s.c := rfl
@[simp] theorem State.emit_front (s : State) (e : Event) : (s.emit e).front = s.front := rfl
@[simp] theorem State.emit_swapPending (s : State) (e : Event) : (s.emit e).swapPending = s.swapPending := rfl
@[simp] theorem State.emit_cancelPending (s : State) (e : Event) : (s.emit e).cancelPending = s.cancelPending := rfl
@[simp] theorem State.emit_done (s : State) (e : Event) : (s.emit e).done = s.done := rfl
@[simp] theorem State.emit_cancelled (s : State) (e : Event) : (s.emit e).cancelled = s.cancelled := rfl
@[simp] theorem State.emit_cmderr (s : State) (e : Event) : (s.emit e).cmderr = s.cmderr := rfl
@[simp] theorem State.emit_tmrArmed (s : State) (e : Event) : (s.emit e).tmrArmed = s.tmrArmed := rfl
@[simp] theorem State.emit_tmrN (s : State) (e : Event) : (s.emit e).tmrN = s.tmrN := rfl
@[simp] theorem State.emit_fb (s : State) (e : Event) : (s.emit e).fb = s.fb := rfl
@[simp] theorem State.emit_pins (s : State) (e : Event) : (s.emit e).pins = s.pins := rfl
@[simp] theorem State.emit_now (s : State) (e : Event) : (s.emit e).now = s.now := rfl
@[simp] theorem State.emit_tmrDeadline (s : State) (e : Event) : (s.emit e).tmrDeadline = s.tmrDeadline := rfl
@[simp] theorem State.emit_trace (s : State) (e : Event) : (s.emit e).trace = e :: s.trace := rfl
@[simp] theorem State.emit_reads (s : State) (e : Event) : (s.emit e).reads = s.reads := rfl
@[simp] theorem State.emit_host (s : State) (e : Event) : (s.emit e).host = s.host := rfl
@[simp] theorem State.emit_agenda (s : State) (e : Event) : (s.emit e).agenda = s.agenda := rfl

/-! ### The pins event -/

@[simp] theorem State.emitPins_cfg (s : State) : (s.emitPins).cfg = s.cfg := rfl
@[simp] theorem State.emitPins_bri (s : State) : (s.emitPins).bri = s.bri := rfl
@[simp] theorem State.emitPins_unit (s : State) : (s.emitPins).unit = s.unit := rfl
@[simp] theorem State.emitPins_hold (s : State) : (s.emitPins).hold = s.hold := rfl
@[simp] theorem State.emitPins_resp (s : State) : (s.emitPins).resp = s.resp := rfl
@[simp] theorem State.emitPins_phase (s : State) : (s.emitPins).phase = s.phase := rfl
@[simp] theorem State.emitPins_p (s : State) : (s.emitPins).p = s.p := rfl
@[simp] theorem State.emitPins_r (s : State) : (s.emitPins).r = s.r := rfl
@[simp] theorem State.emitPins_c (s : State) : (s.emitPins).c = s.c := rfl
@[simp] theorem State.emitPins_front (s : State) : (s.emitPins).front = s.front := rfl
@[simp] theorem State.emitPins_swapPending (s : State) : (s.emitPins).swapPending = s.swapPending := rfl
@[simp] theorem State.emitPins_cancelPending (s : State) : (s.emitPins).cancelPending = s.cancelPending := rfl
@[simp] theorem State.emitPins_done (s : State) : (s.emitPins).done = s.done := rfl
@[simp] theorem State.emitPins_cancelled (s : State) : (s.emitPins).cancelled = s.cancelled := rfl
@[simp] theorem State.emitPins_cmderr (s : State) : (s.emitPins).cmderr = s.cmderr := rfl
@[simp] theorem State.emitPins_tmrArmed (s : State) : (s.emitPins).tmrArmed = s.tmrArmed := rfl
@[simp] theorem State.emitPins_tmrN (s : State) : (s.emitPins).tmrN = s.tmrN := rfl
@[simp] theorem State.emitPins_fb (s : State) : (s.emitPins).fb = s.fb := rfl
@[simp] theorem State.emitPins_pins (s : State) : (s.emitPins).pins = s.pins := rfl
@[simp] theorem State.emitPins_now (s : State) : (s.emitPins).now = s.now := rfl
@[simp] theorem State.emitPins_tmrDeadline (s : State) : (s.emitPins).tmrDeadline = s.tmrDeadline := rfl
@[simp] theorem State.emitPins_trace (s : State) : (s.emitPins).trace = .pins s.pins.word :: s.trace := rfl
@[simp] theorem State.emitPins_reads (s : State) : (s.emitPins).reads = s.reads := rfl
@[simp] theorem State.emitPins_host (s : State) : (s.emitPins).host = s.host := rfl
@[simp] theorem State.emitPins_agenda (s : State) : (s.emitPins).agenda = s.agenda := rfl

/-! ### The illegal command -/

@[simp] theorem State.illegalCommand_cfg (s : State) : (s.illegalCommand).cfg = s.cfg := rfl
@[simp] theorem State.illegalCommand_bri (s : State) : (s.illegalCommand).bri = s.bri := rfl
@[simp] theorem State.illegalCommand_unit (s : State) : (s.illegalCommand).unit = s.unit := rfl
@[simp] theorem State.illegalCommand_hold (s : State) : (s.illegalCommand).hold = s.hold := rfl
@[simp] theorem State.illegalCommand_resp (s : State) : (s.illegalCommand).resp = s.resp := rfl
@[simp] theorem State.illegalCommand_phase (s : State) : (s.illegalCommand).phase = s.phase := rfl
@[simp] theorem State.illegalCommand_p (s : State) : (s.illegalCommand).p = s.p := rfl
@[simp] theorem State.illegalCommand_r (s : State) : (s.illegalCommand).r = s.r := rfl
@[simp] theorem State.illegalCommand_c (s : State) : (s.illegalCommand).c = s.c := rfl
@[simp] theorem State.illegalCommand_front (s : State) : (s.illegalCommand).front = s.front := rfl
@[simp] theorem State.illegalCommand_swapPending (s : State) : (s.illegalCommand).swapPending = s.swapPending := rfl
@[simp] theorem State.illegalCommand_cancelPending (s : State) : (s.illegalCommand).cancelPending = s.cancelPending := rfl
@[simp] theorem State.illegalCommand_done (s : State) : (s.illegalCommand).done = s.done := rfl
@[simp] theorem State.illegalCommand_cancelled (s : State) : (s.illegalCommand).cancelled = s.cancelled := rfl
@[simp] theorem State.illegalCommand_cmderr (s : State) : (s.illegalCommand).cmderr = true := rfl
@[simp] theorem State.illegalCommand_tmrArmed (s : State) : (s.illegalCommand).tmrArmed = s.tmrArmed := rfl
@[simp] theorem State.illegalCommand_tmrN (s : State) : (s.illegalCommand).tmrN = s.tmrN := rfl
@[simp] theorem State.illegalCommand_fb (s : State) : (s.illegalCommand).fb = s.fb := rfl
@[simp] theorem State.illegalCommand_pins (s : State) : (s.illegalCommand).pins = s.pins := rfl
@[simp] theorem State.illegalCommand_now (s : State) : (s.illegalCommand).now = s.now := rfl
@[simp] theorem State.illegalCommand_tmrDeadline (s : State) : (s.illegalCommand).tmrDeadline = s.tmrDeadline := rfl
@[simp] theorem State.illegalCommand_trace (s : State) : (s.illegalCommand).trace = s.trace := rfl
@[simp] theorem State.illegalCommand_reads (s : State) : (s.illegalCommand).reads = s.reads := rfl
@[simp] theorem State.illegalCommand_host (s : State) : (s.illegalCommand).host = s.host := rfl
@[simp] theorem State.illegalCommand_agenda (s : State) : (s.illegalCommand).agenda = s.agenda := rfl

/-! ### The cancel step -/

@[simp] theorem State.cancelStep_cfg (s : State) : (s.cancelStep).cfg = s.cfg := rfl
@[simp] theorem State.cancelStep_bri (s : State) : (s.cancelStep).bri = s.bri := rfl
@[simp] theorem State.cancelStep_unit (s : State) : (s.cancelStep).unit = s.unit := rfl
@[simp] theorem State.cancelStep_hold (s : State) : (s.cancelStep).hold = s.hold := rfl
@[simp] theorem State.cancelStep_resp (s : State) : (s.cancelStep).resp = s.resp := rfl
@[simp] theorem State.cancelStep_phase (s : State) : (s.cancelStep).phase = .idle := rfl
@[simp] theorem State.cancelStep_p (s : State) : (s.cancelStep).p = s.p := rfl
@[simp] theorem State.cancelStep_r (s : State) : (s.cancelStep).r = s.r := rfl
@[simp] theorem State.cancelStep_c (s : State) : (s.cancelStep).c = s.c := rfl
@[simp] theorem State.cancelStep_front (s : State) : (s.cancelStep).front = s.front := rfl
@[simp] theorem State.cancelStep_swapPending (s : State) : (s.cancelStep).swapPending = s.swapPending := rfl
@[simp] theorem State.cancelStep_cancelPending (s : State) : (s.cancelStep).cancelPending = false := rfl
@[simp] theorem State.cancelStep_done (s : State) : (s.cancelStep).done = s.done := rfl
@[simp] theorem State.cancelStep_cancelled (s : State) : (s.cancelStep).cancelled = true := rfl
@[simp] theorem State.cancelStep_cmderr (s : State) : (s.cancelStep).cmderr = s.cmderr := rfl
@[simp] theorem State.cancelStep_tmrArmed (s : State) : (s.cancelStep).tmrArmed = false := rfl
@[simp] theorem State.cancelStep_tmrN (s : State) : (s.cancelStep).tmrN = s.tmrN := rfl
@[simp] theorem State.cancelStep_fb (s : State) : (s.cancelStep).fb = s.fb := rfl
@[simp] theorem State.cancelStep_pins (s : State) : (s.cancelStep).pins = { s.pins with oe := false } := rfl
@[simp] theorem State.cancelStep_now (s : State) : (s.cancelStep).now = s.now := rfl
@[simp] theorem State.cancelStep_tmrDeadline (s : State) : (s.cancelStep).tmrDeadline = s.tmrDeadline := rfl
@[simp] theorem State.cancelStep_trace (s : State) : (s.cancelStep).trace = .cancelled :: .pins (Pins.word { s.pins with oe := false }) :: s.trace := rfl
@[simp] theorem State.cancelStep_reads (s : State) : (s.cancelStep).reads = s.reads := rfl
@[simp] theorem State.cancelStep_host (s : State) : (s.cancelStep).host = s.host := rfl
@[simp] theorem State.cancelStep_agenda (s : State) : (s.cancelStep).agenda = s.agenda := rfl

/-! ### The timer's completion -/

@[simp] theorem State.timerComplete_cfg (s : State) : (s.timerComplete).cfg = s.cfg := rfl
@[simp] theorem State.timerComplete_bri (s : State) : (s.timerComplete).bri = s.bri := rfl
@[simp] theorem State.timerComplete_unit (s : State) : (s.timerComplete).unit = s.unit := rfl
@[simp] theorem State.timerComplete_hold (s : State) : (s.timerComplete).hold = s.hold := rfl
@[simp] theorem State.timerComplete_resp (s : State) : (s.timerComplete).resp = s.resp := rfl
@[simp] theorem State.timerComplete_phase (s : State) : (s.timerComplete).phase = .oeoff := rfl
@[simp] theorem State.timerComplete_p (s : State) : (s.timerComplete).p = s.p := rfl
@[simp] theorem State.timerComplete_r (s : State) : (s.timerComplete).r = s.r := rfl
@[simp] theorem State.timerComplete_c (s : State) : (s.timerComplete).c = s.c := rfl
@[simp] theorem State.timerComplete_front (s : State) : (s.timerComplete).front = s.front := rfl
@[simp] theorem State.timerComplete_swapPending (s : State) : (s.timerComplete).swapPending = s.swapPending := rfl
@[simp] theorem State.timerComplete_cancelPending (s : State) : (s.timerComplete).cancelPending = s.cancelPending := rfl
@[simp] theorem State.timerComplete_done (s : State) : (s.timerComplete).done = s.done := rfl
@[simp] theorem State.timerComplete_cancelled (s : State) : (s.timerComplete).cancelled = s.cancelled := rfl
@[simp] theorem State.timerComplete_cmderr (s : State) : (s.timerComplete).cmderr = s.cmderr := rfl
@[simp] theorem State.timerComplete_tmrArmed (s : State) : (s.timerComplete).tmrArmed = false := rfl
@[simp] theorem State.timerComplete_tmrN (s : State) : (s.timerComplete).tmrN = s.tmrN := rfl
@[simp] theorem State.timerComplete_fb (s : State) : (s.timerComplete).fb = s.fb := rfl
@[simp] theorem State.timerComplete_pins (s : State) : (s.timerComplete).pins = s.pins := rfl
@[simp] theorem State.timerComplete_now (s : State) : (s.timerComplete).now = s.now := rfl
@[simp] theorem State.timerComplete_tmrDeadline (s : State) : (s.timerComplete).tmrDeadline = s.tmrDeadline := rfl
@[simp] theorem State.timerComplete_trace (s : State) : (s.timerComplete).trace = .waitDone :: s.trace := rfl
@[simp] theorem State.timerComplete_reads (s : State) : (s.timerComplete).reads = s.reads := rfl
@[simp] theorem State.timerComplete_host (s : State) : (s.timerComplete).host = s.host := rfl
@[simp] theorem State.timerComplete_agenda (s : State) : (s.timerComplete).agenda = s.agenda := rfl

/-! ### A filled buffer -/

@[simp] theorem State.fillBuffer_cfg (s : State) (b : Nat) (v : Pixel) : (s.fillBuffer b v).cfg = s.cfg := rfl
@[simp] theorem State.fillBuffer_bri (s : State) (b : Nat) (v : Pixel) : (s.fillBuffer b v).bri = s.bri := rfl
@[simp] theorem State.fillBuffer_unit (s : State) (b : Nat) (v : Pixel) : (s.fillBuffer b v).unit = s.unit := rfl
@[simp] theorem State.fillBuffer_hold (s : State) (b : Nat) (v : Pixel) : (s.fillBuffer b v).hold = s.hold := rfl
@[simp] theorem State.fillBuffer_resp (s : State) (b : Nat) (v : Pixel) : (s.fillBuffer b v).resp = s.resp := rfl
@[simp] theorem State.fillBuffer_phase (s : State) (b : Nat) (v : Pixel) : (s.fillBuffer b v).phase = s.phase := rfl
@[simp] theorem State.fillBuffer_p (s : State) (b : Nat) (v : Pixel) : (s.fillBuffer b v).p = s.p := rfl
@[simp] theorem State.fillBuffer_r (s : State) (b : Nat) (v : Pixel) : (s.fillBuffer b v).r = s.r := rfl
@[simp] theorem State.fillBuffer_c (s : State) (b : Nat) (v : Pixel) : (s.fillBuffer b v).c = s.c := rfl
@[simp] theorem State.fillBuffer_front (s : State) (b : Nat) (v : Pixel) : (s.fillBuffer b v).front = s.front := rfl
@[simp] theorem State.fillBuffer_swapPending (s : State) (b : Nat) (v : Pixel) : (s.fillBuffer b v).swapPending = s.swapPending := rfl
@[simp] theorem State.fillBuffer_cancelPending (s : State) (b : Nat) (v : Pixel) : (s.fillBuffer b v).cancelPending = s.cancelPending := rfl
@[simp] theorem State.fillBuffer_done (s : State) (b : Nat) (v : Pixel) : (s.fillBuffer b v).done = s.done := rfl
@[simp] theorem State.fillBuffer_cancelled (s : State) (b : Nat) (v : Pixel) : (s.fillBuffer b v).cancelled = s.cancelled := rfl
@[simp] theorem State.fillBuffer_cmderr (s : State) (b : Nat) (v : Pixel) : (s.fillBuffer b v).cmderr = s.cmderr := rfl
@[simp] theorem State.fillBuffer_tmrArmed (s : State) (b : Nat) (v : Pixel) : (s.fillBuffer b v).tmrArmed = s.tmrArmed := rfl
@[simp] theorem State.fillBuffer_tmrN (s : State) (b : Nat) (v : Pixel) : (s.fillBuffer b v).tmrN = s.tmrN := rfl
@[simp] theorem State.fillBuffer_fb (s : State) (b : Nat) (v : Pixel) : (s.fillBuffer b v).fb = Memory.fill s.fb (b * npix s.cfg) (npix s.cfg) v := rfl
@[simp] theorem State.fillBuffer_pins (s : State) (b : Nat) (v : Pixel) : (s.fillBuffer b v).pins = s.pins := rfl
@[simp] theorem State.fillBuffer_now (s : State) (b : Nat) (v : Pixel) : (s.fillBuffer b v).now = s.now := rfl
@[simp] theorem State.fillBuffer_tmrDeadline (s : State) (b : Nat) (v : Pixel) : (s.fillBuffer b v).tmrDeadline = s.tmrDeadline := rfl
@[simp] theorem State.fillBuffer_trace (s : State) (b : Nat) (v : Pixel) : (s.fillBuffer b v).trace = s.trace := rfl
@[simp] theorem State.fillBuffer_reads (s : State) (b : Nat) (v : Pixel) : (s.fillBuffer b v).reads = s.reads := rfl
@[simp] theorem State.fillBuffer_host (s : State) (b : Nat) (v : Pixel) : (s.fillBuffer b v).host = s.host := rfl
@[simp] theorem State.fillBuffer_agenda (s : State) (b : Nat) (v : Pixel) : (s.fillBuffer b v).agenda = s.agenda := rfl

/-! ### Reset -/

@[simp] theorem State.resetStep_cfg (s : State) (cells : List (Nat × Pixel)) : (s.resetStep cells).cfg = s.cfg := rfl
@[simp] theorem State.resetStep_bri (s : State) (cells : List (Nat × Pixel)) : (s.resetStep cells).bri = s.cfg.initBrightness := rfl
@[simp] theorem State.resetStep_unit (s : State) (cells : List (Nat × Pixel)) : (s.resetStep cells).unit = s.cfg.initUnit := rfl
@[simp] theorem State.resetStep_hold (s : State) (cells : List (Nat × Pixel)) : (s.resetStep cells).hold = 0 := rfl
@[simp] theorem State.resetStep_resp (s : State) (cells : List (Nat × Pixel)) : (s.resetStep cells).resp = 0 := rfl
@[simp] theorem State.resetStep_phase (s : State) (cells : List (Nat × Pixel)) : (s.resetStep cells).phase = .idle := rfl
@[simp] theorem State.resetStep_p (s : State) (cells : List (Nat × Pixel)) : (s.resetStep cells).p = 0 := rfl
@[simp] theorem State.resetStep_r (s : State) (cells : List (Nat × Pixel)) : (s.resetStep cells).r = 0 := rfl
@[simp] theorem State.resetStep_c (s : State) (cells : List (Nat × Pixel)) : (s.resetStep cells).c = 0 := rfl
@[simp] theorem State.resetStep_front (s : State) (cells : List (Nat × Pixel)) : (s.resetStep cells).front = false := rfl
@[simp] theorem State.resetStep_swapPending (s : State) (cells : List (Nat × Pixel)) : (s.resetStep cells).swapPending = false := rfl
@[simp] theorem State.resetStep_cancelPending (s : State) (cells : List (Nat × Pixel)) : (s.resetStep cells).cancelPending = false := rfl
@[simp] theorem State.resetStep_done (s : State) (cells : List (Nat × Pixel)) : (s.resetStep cells).done = false := rfl
@[simp] theorem State.resetStep_cancelled (s : State) (cells : List (Nat × Pixel)) : (s.resetStep cells).cancelled = false := rfl
@[simp] theorem State.resetStep_cmderr (s : State) (cells : List (Nat × Pixel)) : (s.resetStep cells).cmderr = false := rfl
@[simp] theorem State.resetStep_tmrArmed (s : State) (cells : List (Nat × Pixel)) : (s.resetStep cells).tmrArmed = false := rfl
@[simp] theorem State.resetStep_tmrN (s : State) (cells : List (Nat × Pixel)) : (s.resetStep cells).tmrN = 0 := rfl
@[simp] theorem State.resetStep_fb (s : State) (cells : List (Nat × Pixel)) : (s.resetStep cells).fb = Memory.ofCells (cellCount s.cfg) cells := rfl
@[simp] theorem State.resetStep_pins (s : State) (cells : List (Nat × Pixel)) : (s.resetStep cells).pins = ⟨0, 0, false, false, false⟩ := rfl
@[simp] theorem State.resetStep_now (s : State) (cells : List (Nat × Pixel)) : (s.resetStep cells).now = s.now := rfl
@[simp] theorem State.resetStep_tmrDeadline (s : State) (cells : List (Nat × Pixel)) : (s.resetStep cells).tmrDeadline = 0 := rfl
@[simp] theorem State.resetStep_trace (s : State) (cells : List (Nat × Pixel)) : (s.resetStep cells).trace = .pins 0 :: s.trace := rfl
@[simp] theorem State.resetStep_reads (s : State) (cells : List (Nat × Pixel)) : (s.resetStep cells).reads = s.reads := rfl
@[simp] theorem State.resetStep_host (s : State) (cells : List (Nat × Pixel)) : (s.resetStep cells).host = s.host := rfl
@[simp] theorem State.resetStep_agenda (s : State) (cells : List (Nat × Pixel)) : (s.resetStep cells).agenda = s.agenda := rfl

/-! ### A tick -/

@[simp] theorem tickTurn_cfg (s : State) : (tickTurn s).cfg = s.cfg := rfl
@[simp] theorem tickTurn_bri (s : State) : (tickTurn s).bri = s.bri := rfl
@[simp] theorem tickTurn_unit (s : State) : (tickTurn s).unit = s.unit := rfl
@[simp] theorem tickTurn_hold (s : State) : (tickTurn s).hold = s.hold := rfl
@[simp] theorem tickTurn_resp (s : State) : (tickTurn s).resp = s.resp := rfl
@[simp] theorem tickTurn_phase (s : State) : (tickTurn s).phase = s.phase := rfl
@[simp] theorem tickTurn_p (s : State) : (tickTurn s).p = s.p := rfl
@[simp] theorem tickTurn_r (s : State) : (tickTurn s).r = s.r := rfl
@[simp] theorem tickTurn_c (s : State) : (tickTurn s).c = s.c := rfl
@[simp] theorem tickTurn_front (s : State) : (tickTurn s).front = s.front := rfl
@[simp] theorem tickTurn_swapPending (s : State) : (tickTurn s).swapPending = s.swapPending := rfl
@[simp] theorem tickTurn_cancelPending (s : State) : (tickTurn s).cancelPending = s.cancelPending := rfl
@[simp] theorem tickTurn_done (s : State) : (tickTurn s).done = s.done := rfl
@[simp] theorem tickTurn_cancelled (s : State) : (tickTurn s).cancelled = s.cancelled := rfl
@[simp] theorem tickTurn_cmderr (s : State) : (tickTurn s).cmderr = s.cmderr := rfl
@[simp] theorem tickTurn_tmrArmed (s : State) : (tickTurn s).tmrArmed = s.tmrArmed := rfl
@[simp] theorem tickTurn_tmrN (s : State) : (tickTurn s).tmrN = s.tmrN := rfl
@[simp] theorem tickTurn_fb (s : State) : (tickTurn s).fb = s.fb := rfl
@[simp] theorem tickTurn_pins (s : State) : (tickTurn s).pins = s.pins := rfl
@[simp] theorem tickTurn_now (s : State) : (tickTurn s).now = s.now + 1 := rfl
@[simp] theorem tickTurn_tmrDeadline (s : State) : (tickTurn s).tmrDeadline = s.tmrDeadline := rfl
@[simp] theorem tickTurn_trace (s : State) : (tickTurn s).trace = s.trace := rfl
@[simp] theorem tickTurn_reads (s : State) : (tickTurn s).reads = s.reads := rfl
@[simp] theorem tickTurn_host (s : State) : (tickTurn s).host = s.host := rfl
@[simp] theorem tickTurn_agenda (s : State) : (tickTurn s).agenda = s.agenda := rfl

end Sys2Proof.Machine
end

