-- ==== Sys2Proof/Laws/Ops.lean ====
section
/-! SUPPORT. One lemma per shared operation, saying once everything it can do. -/

namespace Sys2Proof.Machine

/-- `whenPhase` either runs the micro-operation in its phase or faults. -/
theorem whenPhase_of_eq {ph : Phase} {s : State} {k : Host.Outcome State Fault Refusal} (h : s.phase = ph) :
    whenPhase ph s k = k := if_pos h

theorem whenPhase_of_ne {ph : Phase} {s : State} {k : Host.Outcome State Fault Refusal} (h : s.phase ≠ ph) :
    whenPhase ph s k = .fault .notEnabled := if_neg h

/-- A micro-operation that answers a next state was in its phase. -/
theorem whenPhase_next {ph : Phase} {s t : State} {k : Host.Outcome State Fault Refusal}
    (h : whenPhase ph s k = .next t) : s.phase = ph ∧ k = .next t := by
  unfold whenPhase at h
  split at h
  · exact ⟨‹_›, h⟩
  · cases h

/-- The draw buffer exists. -/
theorem State.draw_lt_nbuf (s : State) : s.draw < nbuf s.cfg := by
  unfold State.draw nbuf
  cases s.cfg.dbuf <;> simp

/-- The range check in inequalities. -/
theorem inRange_iff (cfg : Config) (x y : Int) :
    inRange cfg x y = true ↔ (0 ≤ x ∧ x < cfg.width) ∧ (0 ≤ y ∧ y < cfg.height) := by
  simp [inRange, and_assoc]

/-- An in-range pixel of buffer `b` has a cell of that buffer. -/
theorem cellAddr_bounds {cfg : Config} {b x y : Nat} (hx : x < cfg.width) (hy : y < cfg.height) :
    b * npix cfg ≤ cellAddr cfg b x y ∧ cellAddr cfg b x y < (b + 1) * npix cfg := by
  have hy' : (y + 1) * cfg.width ≤ cfg.height * cfg.width := Nat.mul_le_mul_right _ hy
  unfold cellAddr npix
  rw [Nat.add_mul] at hy' ⊢
  rw [Nat.mul_comm cfg.height] at hy'
  omega

/-- Buffers that exist hold only cells that exist. -/
theorem buffer_le_cellCount {cfg : Config} {b : Nat} (hb : b < nbuf cfg) : (b + 1) * npix cfg ≤ cellCount cfg :=
  Nat.mul_le_mul_right _ hb

/-- Everything `pixelCell` can answer. -/
theorem pixelCell_eq_some {cfg : Config} {b a : Nat} {x y : Int} (h : pixelCell cfg b x y = some a) :
    (0 ≤ x ∧ x < cfg.width) ∧ (0 ≤ y ∧ y < cfg.height) ∧ a = cellAddr cfg b x.toNat y.toNat
      ∧ (b < nbuf cfg → a < cellCount cfg) := by
  unfold pixelCell at h
  split at h
  · rename_i hin
    rw [inRange_iff] at hin
    injection h with h
    subst h
    refine ⟨hin.1, hin.2, rfl, fun hb => ?_⟩
    have h1 := (cellAddr_bounds (b := b) (show x.toNat < cfg.width by omega) (show y.toNat < cfg.height by omega)).2
    exact Nat.lt_of_lt_of_le h1 (buffer_le_cellCount hb)
  · cases h

/-- The pixel of an in-range pair of a buffer that exists. -/
theorem State.pixelAt_of_inRange {s : State} {b : Nat} {x y : Int} (hb : b < nbuf s.cfg)
    (hin : inRange s.cfg x y = true) :
    s.pixelAt b x y = some (Memory.read s.fb (cellAddr s.cfg b x.toNat y.toNat)) := by
  have h : pixelCell s.cfg b x y = some (cellAddr s.cfg b x.toNat y.toNat) := by rw [pixelCell, if_pos hin]
  rw [State.pixelAt, h, Option.bind_some, State.memRead, if_pos ((pixelCell_eq_some h).2.2.2 hb)]

/-- The scan buffer exists where a block with one buffer has `FRONT` = 0 (spec/70_reset_and_hazards.md R209). -/
theorem State.scan_lt_nbuf {s : State} (h : s.cfg.dbuf = false → s.front = false) : s.scan < nbuf s.cfg := by
  unfold State.scan nbuf
  cases hd : s.cfg.dbuf
  · simp [h hd]
  · cases s.front <;> simp

/-- The pixel of the scan buffer that DATA fetches. -/
theorem State.pixelAt_scan {s : State} {x y : Nat} (h : s.cfg.dbuf = false → s.front = false) (hx : x < s.cfg.width)
    (hy : y < s.cfg.height) : s.pixelAt s.scan x y = some (Memory.read s.fb (cellAddr s.cfg s.scan x y)) := by
  have hin : inRange s.cfg x y = true := by
    rw [inRange_iff]
    omega
  simpa using State.pixelAt_of_inRange (State.scan_lt_nbuf h) hin

/-- Everything a `MemWrite` can answer. -/
theorem State.memWrite_next {s t : State} {a : Nat} {v : Pixel} (h : s.memWrite a v = .next t) :
    a < cellCount s.cfg ∧ t = { s with fb := Memory.write s.fb a v } := by
  unfold State.memWrite at h
  split at h
  · injection h with h
    exact ⟨‹_›, h.symm⟩
  · cases h

/-- SETPX never meets a cell that does not exist. -/
theorem execSetpx_cases (x y : Int) (r g b : Byte) (s : State) :
    (inRange s.cfg x y = true ∧ execSetpx x y r g b s
      = .next { s with fb := Memory.write s.fb (cellAddr s.cfg s.draw x.toNat y.toNat) (color r g b) })
    ∨ (inRange s.cfg x y = false ∧ execSetpx x y r g b s = .next s) := by
  by_cases hin : inRange s.cfg x y = true
  · have h : pixelCell s.cfg s.draw x y = some (cellAddr s.cfg s.draw x.toNat y.toNat) := by
      rw [pixelCell, if_pos hin]
    refine .inl ⟨hin, ?_⟩
    rw [execSetpx, h]
    exact if_pos ((pixelCell_eq_some h).2.2.2 s.draw_lt_nbuf)
  · refine .inr ⟨by simpa using hin, ?_⟩
    rw [execSetpx, pixelCell, if_neg hin]

/-- GETPX never meets a cell that does not exist. -/
theorem execGetpx_cases (x y : Int) (s : State) :
    (inRange s.cfg x y = true ∧ execGetpx x y s
      = .next { s with resp := respWord true (Memory.read s.fb (cellAddr s.cfg s.draw x.toNat y.toNat)) })
    ∨ (inRange s.cfg x y = false ∧ execGetpx x y s = .next { s with resp := respWord false 0 }) := by
  by_cases hin : inRange s.cfg x y = true
  · have h : pixelCell s.cfg s.draw x y = some (cellAddr s.cfg s.draw x.toNat y.toNat) := by
      rw [pixelCell, if_pos hin]
    refine .inl ⟨hin, ?_⟩
    rw [execGetpx, h]
    simp only [State.memRead, if_pos ((pixelCell_eq_some h).2.2.2 s.draw_lt_nbuf)]
  · refine .inr ⟨by simpa using hin, ?_⟩
    rw [execGetpx, pixelCell, if_neg hin]

/-- The timer's turn completes the wait or passes. -/
theorem timerTurn_cases (s : State) :
    (s.timerEnabled = true ∧ timerTurn s = s.timerComplete) ∨ (s.timerEnabled = false ∧ timerTurn s = s) := by
  unfold timerTurn
  cases h : s.timerEnabled
  · exact .inr ⟨rfl, rfl⟩
  · exact .inl ⟨rfl, rfl⟩

end Sys2Proof.Machine
end

