-- ==== Sys2Proof/Laws/Exec.lean ====
section
/-! SUPPORT. What no meaning touches, said once for every instruction, and the step of a state whose agenda names a turn. -/

namespace Sys2Proof.Machine

/-- The parts of the state that no instruction writes: configuration, time, the host's acts, the agenda, and CMDERR. -/
def State.environment (s : State) : Config × Nat × List HostAct × List Turn × Bool :=
  (s.cfg, s.now, s.host, s.agenda, s.cmderr)

/-- No instruction writes the environment. -/
theorem exec_environment {i : Instr} {s t : State} (h : exec i s = .next t) : t.environment = s.environment := by
  cases i with
  | setpx x y r g b =>
    obtain ⟨-, h'⟩ | ⟨-, h'⟩ := execSetpx_cases x y r g b s
    all_goals rw [exec, h'] at h; injection h with h; subst h; rfl
  | getpx x y =>
    obtain ⟨-, h'⟩ | ⟨-, h'⟩ := execGetpx_cases x y s
    all_goals rw [exec, h'] at h; injection h with h; subst h; rfl
  | clear r g b => injection h with h; subst h; rfl
  | setbri level => injection h with h; subst h; rfl
  | adjbri delta => injection h with h; subst h; rfl
  | setunit ticks => injection h with h; subst h; rfl
  | rdcsr n => injection h with h; subst h; rfl
  | swap =>
    simp only [exec, execSwap] at h
    repeat' split at h
    all_goals injection h with h; subst h; rfl
  | start =>
    simp only [exec, execStart] at h
    split at h
    all_goals injection h with h; subst h; rfl
  | cancel =>
    simp only [exec, execCancel] at h
    split at h
    all_goals injection h with h; subst h; rfl
  | data =>
    have h' := (whenPhase_next h).2
    split at h'
    · split at h'
      · injection h' with h'; subst h'; rfl
      · cases h'
    · cases h'
  | hold =>
    have h' := (whenPhase_next h).2
    split at h'
    all_goals injection h' with h'; subst h'; rfl
  | oeoff =>
    have h' := (whenPhase_next h).2
    repeat' split at h'
    all_goals injection h' with h'; subst h'; rfl
  | idle => have h' := (whenPhase_next h).2; injection h' with h'; subst h'; rfl
  | plane => have h' := (whenPhase_next h).2; injection h' with h'; subst h'; rfl
  | blank => have h' := (whenPhase_next h).2; injection h' with h'; subst h'; rfl
  | addr => have h' := (whenPhase_next h).2; injection h' with h'; subst h'; rfl
  | clkh => have h' := (whenPhase_next h).2; injection h' with h'; subst h'; rfl
  | clkl => have h' := (whenPhase_next h).2; injection h' with h'; subst h'; rfl
  | lath => have h' := (whenPhase_next h).2; injection h' with h'; subst h'; rfl
  | latl => have h' := (whenPhase_next h).2; injection h' with h'; subst h'; rfl
  | oeon => have h' := (whenPhase_next h).2; injection h' with h'; subst h'; rfl

theorem exec_cfg {i : Instr} {s t : State} (h : exec i s = .next t) : t.cfg = s.cfg :=
  congrArg (fun e => e.1) (exec_environment h)

theorem exec_now {i : Instr} {s t : State} (h : exec i s = .next t) : t.now = s.now :=
  congrArg (fun e => e.2.1) (exec_environment h)

theorem exec_host {i : Instr} {s t : State} (h : exec i s = .next t) : t.host = s.host :=
  congrArg (fun e => e.2.2.1) (exec_environment h)

theorem exec_agenda {i : Instr} {s t : State} (h : exec i s = .next t) : t.agenda = s.agenda :=
  congrArg (fun e => e.2.2.2.1) (exec_environment h)

theorem exec_cmderr {i : Instr} {s t : State} (h : exec i s = .next t) : t.cmderr = s.cmderr :=
  congrArg (fun e => e.2.2.2.2) (exec_environment h)

/-- The step of a state whose agenda names a turn. -/
theorem step_of_agenda {s : State} {t : Turn} {rest : List Turn} (h : s.agenda = t :: rest) :
    step s = takeTurn t { s with agenda := rest } := by
  simp only [step, State.nextTurn, h]

/-- The step of a state whose agenda is empty. -/
theorem step_of_empty {s : State} (h : s.agenda = []) : step s = takeTurn s.eagerTurn s := by
  simp only [step, State.nextTurn, h]

end Sys2Proof.Machine
end

