-- ==== Sys2Proof/Laws/Operands.lean ====
section
/-! SUPPORT. What the operand computations give, in plain arithmetic: the least power of two, the hold length, the brightness sum, the address pins. -/

namespace Sys2Proof.Machine

/-- `2 ^ clog2 n` reaches `n`. -/
theorem le_two_pow_clog2 (n : Nat) : n ≤ 2 ^ clog2 n := by
  unfold clog2
  cases h : (List.range (n + 1)).find? fun k => decide (n ≤ 2 ^ k) with
  | none => exact Nat.lt_two_pow_self.le
  | some k => simpa using List.find?_some h

/-- No smaller exponent reaches `n`. -/
theorem clog2_le {n k : Nat} (hk : n ≤ 2 ^ k) : clog2 n ≤ k := by
  unfold clog2
  cases h : (List.range (n + 1)).find? fun k => decide (n ≤ 2 ^ k) with
  | none =>
    rw [List.find?_eq_none] at h
    exact absurd Nat.lt_two_pow_self.le (by simpa using h n (by simp))
  | some j =>
    by_contra hc
    have hc : k < j := by simpa using hc
    rw [List.find?_range_eq_some] at h
    exact absurd hk (by simpa using h.2.2 k hc)

/-- The scaled unit fits in 32 bits (spec/42_sequencer_microops.md R112). -/
theorem scaledUnit_lt (unit : BitVec 32) (bri : BitVec 8) : scaledUnit unit bri < 2 ^ 32 := by
  have h : unit.toNat * bri.toNat ≤ (2 ^ 32 - 1) * 255 :=
    Nat.mul_le_mul (by have := unit.isLt; omega) (by have := bri.isLt; omega)
  unfold scaledUnit
  omega

/-- The hold length loses no bit (R112, R132 (a)). -/
theorem holdLength_toNat (unit : BitVec 32) (bri : BitVec 8) (p : BitVec 3) :
    (holdLength unit bri p).toNat = 2 ^ p.toNat * scaledUnit unit bri := by
  have h1 := scaledUnit_lt unit bri
  have h2 : 2 ^ p.toNat ≤ 2 ^ 7 := Nat.pow_le_pow_right (by decide) (by have := p.isLt; omega)
  have h3 := Nat.mul_le_mul h2 h1.le
  rw [holdLength, BitVec.toNat_ofNat, Nat.shiftLeft_eq, Nat.mul_comm]
  exact Nat.mod_eq_of_lt (by omega)

/-- The brightness sum saturates (spec/43_control_commands.md R142). -/
theorem adjustedBri_toNat (bri : BitVec 8) (delta : Int) :
    ((adjustedBri bri delta).toNat : Int) = max 0 (min 255 (bri.toNat + delta)) := by
  have hb := bri.isLt
  unfold adjustedBri clampByte
  rw [BitVec.toNat_ofInt]
  split_ifs <;> norm_num at * <;> omega

/-- One address pin (spec/42_sequencer_microops.md R114). -/
theorem addressPins_getLsbD (cfg : Config) (r : BitVec 5) {i : Nat} (hi : i < 5) :
    (addressPins cfg r).getLsbD i = (decide (i < cfg.nAddr) && r.getLsbD i) := by
  simp only [addressPins, BitVec.getLsbD_and, BitVec.getLsbD_ofNat, Nat.testBit_two_pow_sub_one, hi]
  simp [Bool.and_comm]

end Sys2Proof.Machine
end

