-- ==== Sys2Proof/Laws/Panel.lean ====
section
/-! SUPPORT. What the panel observer does with one event and with a trace in parts. -/

namespace Sys2Proof.Machine

@[simp] theorem Panel.watch_nil (cfg : Config) (cut : Nat → Nat) (sp : SubPixel) (pn : Panel) :
    Panel.watch cfg cut sp pn [] = pn := rfl

/-- The newest event is seen last. -/
@[simp] theorem Panel.watch_cons (cfg : Config) (cut : Nat → Nat) (sp : SubPixel) (pn : Panel) (e : Event)
    (trace : List Event) :
    Panel.watch cfg cut sp pn (e :: trace) = (Panel.watch cfg cut sp pn trace).see cfg cut sp e := rfl

/-- A trace is watched part by part, the older part first. -/
theorem Panel.watch_append (cfg : Config) (cut : Nat → Nat) (sp : SubPixel) (pn : Panel) (newer older : List Event) :
    Panel.watch cfg cut sp pn (newer ++ older) = Panel.watch cfg cut sp (Panel.watch cfg cut sp pn older) newer := by
  simp only [Panel.watch, List.foldr_append]

/-- With no wait in flight nothing is cut short. -/
theorem Panel.cutShort_of_none {pn : Panel} (cut : Nat → Nat) (h : pn.waiting = none) : pn.cutShort cut = pn := by
  simp only [Panel.cutShort, h]

/-- A wait that is cut short lights for at most its length, and leaves pins and registers alone. -/
theorem Panel.cutShort_bounds (cut : Nat → Nat) (pn : Panel) :
    pn.litTime ≤ (pn.cutShort cut).litTime ∧ (pn.cutShort cut).litTime ≤ pn.litTime + pn.waiting.getD 0
      ∧ (pn.cutShort cut).waiting = none ∧ (pn.cutShort cut).pins = pn.pins ∧ (pn.cutShort cut).sr = pn.sr
      ∧ (pn.cutShort cut).lr = pn.lr := by
  cases h : pn.waiting <;> simp [Panel.cutShort, h]

/-- Pins that do not fall OE change the pins, the shift register and the latched row only. -/
theorem Panel.seePins_of_oe {pn : Panel} {v : BitVec 14} (cut : Nat → Nat) (h : (wordOe pn.pins && !wordOe v) = false) :
    pn.seePins cut v = { pn with
      pins := v
      sr := if !wordClk pn.pins && wordClk v then pn.sr.drop 1 ++ [wordData v] else pn.sr
      lr := if !wordLat pn.pins && wordLat v then pn.sr else pn.lr } := by
  simp only [Panel.seePins, h]
  rfl

/-- A wait that ends by the timer lights the LED for its whole length. -/
@[simp] theorem Panel.see_waitDone (cfg : Config) (cut : Nat → Nat) (sp : SubPixel) (pn : Panel) :
    pn.see cfg cut sp .waitDone = { pn with litTime := pn.litTime + pn.waiting.getD 0, waiting := none } := rfl

/-- A wait that is armed is in flight, and lights the LED if it is lit now. -/
@[simp] theorem Panel.see_wait (cfg : Config) (cut : Nat → Nat) (sp : SubPixel) (pn : Panel) (n : Ticks) :
    pn.see cfg cut sp (.wait n) = { pn with waiting := some (if pn.lit cfg sp then n.toNat else 0) } := rfl

end Sys2Proof.Machine
end

