-- ==== Sys2Proof/Laws/PerInstr.lean ====
section
/-! SUPPORT. The family DecodeWellFormed: what the decoder reads is well formed, one lemma per constructor. -/

namespace Sys2Proof.Laws.DecodeWellFormed

/-- Whatever code decodes to the instruction, the instruction is well formed. -/
def Statement (i : Instr) : Prop := ∀ code, decode code = some i → i.wellFormed = true

/-- A command word that is SETPX, GETPX or ADJBRI has operands in range. -/
theorem of_command {w : Word} {i : Instr} (h : decodeCommand w = some i) : i.wellFormed = true := by
  unfold decodeCommand at h
  repeat' split at h
  all_goals first
    | (injection h with h; subst h; simp only [Instr.wellFormed, xField, yField, coordFits_toInt, deltaFits_toInt, Bool.and_self])
    | cases h

theorem of_decode {code : Code} {i : Instr} (h : decode code = some i) : i.wellFormed = true := by
  cases code with
  | command w => exact of_command h
  | csr n => cases h; rfl
  | phase c =>
    simp only [decode, Option.map_eq_some_iff] at h
    obtain ⟨ph, -, rfl⟩ := h
    cases ph <;> rfl

theorem setpx (x y : Int) (r g b : Byte) : Statement (.setpx x y r g b) := fun _ => of_decode
theorem getpx (x y : Int) : Statement (.getpx x y) := fun _ => of_decode
theorem clear (r g b : Byte) : Statement (.clear r g b) := fun _ => of_decode
theorem swap : Statement .swap := fun _ => of_decode
theorem setbri (level : Byte) : Statement (.setbri level) := fun _ => of_decode
theorem adjbri (delta : Int) : Statement (.adjbri delta) := fun _ => of_decode
theorem setunit (ticks : BitVec 32) : Statement (.setunit ticks) := fun _ => of_decode
theorem start : Statement .start := fun _ => of_decode
theorem cancel : Statement .cancel := fun _ => of_decode
theorem rdcsr (n : BitVec 4) : Statement (.rdcsr n) := fun _ => of_decode
theorem idle : Statement .idle := fun _ => of_decode
theorem plane : Statement .plane := fun _ => of_decode
theorem blank : Statement .blank := fun _ => of_decode
theorem addr : Statement .addr := fun _ => of_decode
theorem data : Statement .data := fun _ => of_decode
theorem clkh : Statement .clkh := fun _ => of_decode
theorem clkl : Statement .clkl := fun _ => of_decode
theorem lath : Statement .lath := fun _ => of_decode
theorem latl : Statement .latl := fun _ => of_decode
theorem oeon : Statement .oeon := fun _ => of_decode
theorem hold : Statement .hold := fun _ => of_decode
theorem oeoff : Statement .oeoff := fun _ => of_decode

end Sys2Proof.Laws.DecodeWellFormed
end

