-- ==== Sys2Proof/Tests/Slice0.lean ====
section
/-! SUPPORT. Tests of the model against the vectors of spec/95_test_vectors.md, the smoke of the well-formedness check, and a witness for the hypotheses of every statement. -/

namespace Sys2Proof.Tests

open Sys2Proof.Machine

/-! ### Helpers -/

/-- A configuration in the order of spec/95_test_vectors.md. -/
def block (w h depth lines : Nat) (dbuf : Bool) (bri : BitVec 8) (unit : BitVec 32) (gamma : List Nat) : Config :=
  ⟨w, h, depth, lines, dbuf, bri, unit, gamma, ⟨1, by decide⟩, [], true, true, true⟩

/-- The configuration of program P1. -/
def small : Config := block 2 4 2 1 true 255 10 (Config.gammaLin 2)

/-- The same with one buffer. -/
def single : Config := block 2 4 2 1 false 255 10 (Config.gammaLin 2)

/-- The smallest block of vector A4, with full brightness and a unit of one tick. -/
def tiny : Config := block 1 2 1 0 false 255 1 (Config.gammaLin 1)

/-- A block of the configuration in a phase, with the pins and the timer as they are in that phase. -/
def inPhase (cfg : Config) (ph : Phase) : State :=
  { State.resetWith cfg [] with
    phase := ph
    tmrArmed := decide (ph = .hold)
    pins := ⟨0, 0, decide (ph = .clkl), decide (ph = .latl), decide (ph = .hold ∨ ph = .oeoff)⟩ }

/-- What is read off the next state, if the outcome is one. -/
def seen {α : Type} (f : State → α) (o : Host.Outcome State Fault Refusal) : Option α :=
  match o with
  | .next t => some (f t)
  | .fault _ => none
  | .refused _ => none

/-- What is read off a next state is read off some next state. -/
theorem exists_of_seen {α : Type} {f : State → α} {o : Host.Outcome State Fault Refusal} {v : α}
    (h : seen f o = some v) : ∃ t, o = .next t ∧ f t = v := by
  cases o with
  | next t => exact ⟨t, rfl, by simpa [seen] using h⟩
  | fault r => simp [seen] at h
  | refused r => simp [seen] at h

/-! ### Well-formedness smoke -/

theorem test_wellFormed_setpx_x : (Instr.setpx 32768 0 1 2 3).wellFormed = false := by decide
theorem test_wellFormed_setpx_y : (Instr.setpx 0 (-32769) 1 2 3).wellFormed = false := by decide
theorem test_wellFormed_getpx_x : (Instr.getpx (-32769) 0).wellFormed = false := by decide
theorem test_wellFormed_getpx_y : (Instr.getpx 0 32768).wellFormed = false := by decide
theorem test_wellFormed_adjbri_high : (Instr.adjbri 2147483648).wellFormed = false := by decide
theorem test_wellFormed_adjbri_low : (Instr.adjbri (-2147483649)).wellFormed = false := by decide
theorem test_wellFormed_bounds :
    (Instr.setpx 32767 (-32768) 0 0 0).wellFormed = true ∧ (Instr.adjbri (-2147483648)).wellFormed = true := by decide

/-! ### Decoding: words written out from spec/30_encoding.md (vectors E1 to E19) -/

/-- E1: op, y, x, r, g, b written out field by field. -/
theorem test_decode_setpx_bits :
    decodeCommand (0b00000001#8 ++ 0b0000000000000001#16 ++ 0b0000000000000011#16 ++ 0b11111111#8 ++ 0b10000000#8 ++ 0b00000000#8)
      = some (.setpx 3 1 255 128 0) := by decide

/-- E2, E3, E18. -/
theorem test_decode_setpx_signed :
    decodeCommand 0x010000FFFF010203 = some (.setpx (-1) 0 1 2 3)
    ∧ decodeCommand 0x0180007FFF000000 = some (.setpx 32767 (-32768) 0 0 0)
    ∧ decodeCommand 0x01FFFFFFFFFFFFFF = some (.setpx (-1) (-1) 255 255 255) := by decide

/-- E4, with the fields of R72 written out. -/
theorem test_decode_getpx :
    decodeCommand (0b00000010#8 ++ 0b0000000000000001#16 ++ 0b0000000000000011#16 ++ 0b000000000000000000000000#24)
      = some (.getpx 3 1) := by decide

/-- E5. -/
theorem test_decode_clear : decodeCommand 0x0300000000102030 = some (.clear 16 32 48) := by decide

/-- E6: format N, the 56 reserved bits written out as zero. -/
theorem test_decode_no_operand :
    decodeCommand (0b00000100#8 ++ 0#56) = some .swap ∧ decodeCommand (0b00100000#8 ++ 0#56) = some .start
    ∧ decodeCommand (0b00100001#8 ++ 0#56) = some .cancel := by decide

/-- E7. -/
theorem test_decode_setbri :
    decodeCommand (0b00010000#8 ++ 0#48 ++ 0b11111010#8) = some (.setbri 250)
    ∧ decodeCommand 0x10000000000000FF = some (.setbri 255) := by decide

/-- E8. -/
theorem test_decode_adjbri :
    decodeCommand (0b00010001#8 ++ 0#24 ++ 0b11111111111111111111111111101100#32) = some (.adjbri (-20))
    ∧ decodeCommand 0x1100000080000000 = some (.adjbri (-2147483648))
    ∧ decodeCommand 0x110000007FFFFFFF = some (.adjbri 2147483647) := by decide

/-- E9. -/
theorem test_decode_setunit :
    decodeCommand (0b00010010#8 ++ 0#24 ++ 0b00000000000000000000001111101000#32) = some (.setunit 1000)
    ∧ decodeCommand 0x12000000FFFFFFFF = some (.setunit 4294967295) := by decide

/-- E11, E12: an unassigned `op`. -/
theorem test_decode_unassigned :
    decodeCommand 0x0000000000000000 = none ∧ decodeCommand 0x0500000000000000 = none
    ∧ decodeCommand 0x1300000000000000 = none ∧ decodeCommand 0x2200000000000000 = none
    ∧ decodeCommand 0xFF00000000000000 = none := by decide

/-- E13 to E17: a reserved bit set. -/
theorem test_decode_reserved :
    decodeCommand 0x0400000000000001 = none ∧ decodeCommand 0x2000000000000001 = none
    ∧ decodeCommand 0x2180000000000000 = none ∧ decodeCommand 0x1000000000000100 = none
    ∧ decodeCommand 0x1100000100000000 = none ∧ decodeCommand 0x1200800000000000 = none
    ∧ decodeCommand 0x0200010003000001 = none ∧ decodeCommand 0x0300000001000000 = none := by decide

/-- R78: the codes of the twelve phases, written out. -/
theorem test_decode_phases :
    decode (.phase 0b0000#4) = some .idle ∧ decode (.phase 0b0001#4) = some .plane
    ∧ decode (.phase 0b0010#4) = some .blank ∧ decode (.phase 0b0011#4) = some .addr
    ∧ decode (.phase 0b0100#4) = some .data ∧ decode (.phase 0b0101#4) = some .clkh
    ∧ decode (.phase 0b0110#4) = some .clkl ∧ decode (.phase 0b0111#4) = some .lath
    ∧ decode (.phase 0b1000#4) = some .latl ∧ decode (.phase 0b1001#4) = some .oeon
    ∧ decode (.phase 0b1010#4) = some .hold ∧ decode (.phase 0b1011#4) = some .oeoff
    ∧ decode (.phase 0b1100#4) = none ∧ decode (.phase 0b1111#4) = none := by decide

/-- R81. -/
theorem test_decode_csr : decode (.csr 0b0111#4) = some (.rdcsr 7) ∧ decode (.csr 0b1111#4) = some (.rdcsr 15) := by decide

/-- The words of the opcode table as the table numbers their bits. -/
theorem test_decodeTableWord :
    decodeTableWord 64 0x2100000000000000 = some .cancel ∧ decodeTableWord 8 0b1011 = some .oeoff
    ∧ decodeTableWord 8 0b1111 = some (.rdcsr 15) := by decide

/-- R63: eight bytes, the byte with bits 7:0 first. -/
theorem test_word_bytes :
    wordToBytes 0x0100010003FF8000 = [0x00, 0x80, 0xFF, 0x03, 0x00, 0x01, 0x00, 0x01]
    ∧ wordOfBytes [0x00, 0x80, 0xFF, 0x03, 0x00, 0x01, 0x00, 0x01] = some 0x0100010003FF8000
    ∧ wordOfBytes [0x00] = none := by decide

/-- E10, R82: `dim 5` and `clearblack`. -/
theorem test_assemble_dim : assembleLine ['d', 'i', 'm', ' ', '5'] = some [.command 0x11000000FFFFFFFB] := by decide

/-- E2: the text puts x before y. -/
theorem test_assemble_setpx :
    assembleLine ['s', 'e', 't', 'p', 'x', ' ', '-', '1', ',', ' ', '0', ',', ' ', '1', ',', ' ', '2', ',', ' ', '0', 'x', '3', ' ', ';', 'e']
      = some [.command 0x010000FFFF010203] := by decide

/-- R82: an operand outside its range is an assembler error. -/
theorem test_assemble_range : assembleLine ['s', 'e', 't', 'b', 'r', 'i', ' ', '2', '5', '6'] = none := by decide

/-! ### Configuration (vectors A1, A2, A5 to A16, B13) -/

/-- A1. -/
theorem test_address_bits :
    [2, 4, 6, 8, 10, 16, 18, 32, 34, 64].map (fun h => addressBits (block 1 h 1 5 true 0 0 [])) = [0, 1, 2, 2, 3, 3, 4, 4, 5, 5] := by
  decide

/-- A2, B13. -/
theorem test_geom : geomWord Config.sample = 0x322200040 := by decide

/-- A3. -/
theorem test_geom_single : geomWord (block 64 64 8 5 false 0 0 []) = 0x16C400040 := by decide

/-- A5 to A12: the first error of R162. -/
theorem test_config_errors :
    configCheck (block 1 64 1 3 true 0 0 []) = some .addressLines
    ∧ configCheck (block 1 33 1 5 true 0 0 []) = some .oddHeight
    ∧ configCheck (block 1 65 1 5 true 0 0 []) = some .heightRange
    ∧ configCheck (block 32768 2 1 5 true 0 0 []) = some .widthRange
    ∧ configCheck (block 1 2 9 5 true 0 0 []) = some .colorBitsRange
    ∧ configCheck (block 1 2 1 6 true 0 0 []) = some .addrLinesRange
    ∧ configCheck (block 0 33 9 5 true 0 0 []) = some .widthRange := by decide

/-! ### The mapper (vectors G4, G10, G11) -/

/-- G4. -/
theorem test_gammaSq :
    [64, 65, 66, 127, 128, 200, 254, 255].map (fun v => (Config.gammaSq 4).getD v 0) = [0, 0, 1, 3, 3, 9, 14, 15] := by decide

/-- G10. -/
theorem test_sixbits_lin :
    (List.finRange 4).map (fun p => sixbits (block 1 2 4 0 true 0 0 (Config.gammaLin 4)) 0xFF00C8 0x100F80 p)
      = [0b001001, 0b000001, 0b000101, 0b100101] := by decide

/-- G11. -/
theorem test_sixbits_sq :
    (List.finRange 4).map (fun p => sixbits (block 1 2 4 0 true 0 0 (Config.gammaSq 4)) 0xFF00C8 0x100F80 p)
      = [0b100101, 0b100001, 0b000001, 0b000101] := by decide

/-! ### Frame-buffer commands (vectors F1 to F12) -/

/-- The block of vectors F1 to F8 in a phase. -/
def frame (dbuf : Bool) (ph : Phase) : State := inPhase (block 4 4 2 1 dbuf 0 0 []) ph

/-- F1: cell 23 of the back buffer. -/
theorem test_setpx : seen (fun t => t.fb) (exec (.setpx 3 1 255 128 0) (frame true .idle)) = some [(23, 0xFF8000)] := by decide

/-- F3: out of range, F12: single buffer. -/
theorem test_setpx_range :
    seen (fun t => (t.fb, t.cmderr)) (exec (.setpx 4 1 1 1 1) (frame true .idle)) = some ([], false)
    ∧ seen (fun t => t.fb) (exec (.setpx 3 1 1 2 3) (frame false .idle)) = some [(7, 0x010203)] := by decide

/-- F1: the pixel just written. -/
theorem test_getpx :
    seen (fun t => t.resp) (exec (.getpx 3 1) { frame true .idle with fb := [(23, 0xFF8000)] }) = some 0x1FF8000 := by decide

/-- F4: out of range. -/
theorem test_getpx_range :
    seen (fun t => t.resp) (exec (.getpx (-1) (-1)) { frame true .idle with resp := 0x1FF8000 }) = some 0 := by decide

/-- F6: cells 16 to 31 and no other. -/
theorem test_clear :
    seen (fun t => [15, 16, 31, 32].map (Memory.read t.fb)) (exec (.clear 16 32 48) { frame true .idle with fb := [(15, 7), (20, 8)] })
      = some [7, 0x102030, 0x102030, 0] := by decide

/-- Clearing to what an unlisted cell reads lists nothing. -/
theorem test_clear_black :
    seen (fun t => t.fb) (exec (.clear 0 0 0) { frame true .idle with fb := [(15, 7), (20, 8)] }) = some [(15, 7)] := by decide

/-- F8, F11: at once when idle, the pending swap left alone. -/
theorem test_swap_idle :
    seen (fun t => (t.front, t.swapPending)) (exec .swap { frame true .idle with swapPending := true }) = some (true, true) := by decide

/-- F9, F10: nothing with one buffer; deferred while busy. -/
theorem test_swap_busy :
    seen (fun t => (t.front, t.swapPending)) (exec .swap (frame false .idle)) = some (false, false)
    ∧ seen (fun t => (t.front, t.swapPending)) (exec .swap (frame true .data)) = some (false, true) := by decide

/-! ### Brightness, unit, control (vectors B1 to B15) -/

/-- B1. -/
theorem test_setbri : seen (fun t => (t.bri, t.hold)) (exec (.setbri 250) (inPhase small .hold)) = some (250, 0) := by decide

/-- B4, B5: no wrap. -/
theorem test_adjbri :
    seen (fun t => t.bri) (exec (.adjbri (-20)) { inPhase small .idle with bri := 5 }) = some 0
    ∧ seen (fun t => t.bri) (exec (.adjbri 155) { inPhase small .idle with bri := 100 }) = some 255 := by decide

/-- B7: the sum is not reduced modulo anything. -/
theorem test_adjbri_extreme :
    seen (fun t => t.bri) (exec (.adjbri 2147483647) { inPhase small .idle with bri := 0 }) = some 255
    ∧ seen (fun t => t.bri) (exec (.adjbri (-2147483648)) (inPhase small .idle)) = some 0 := by decide

/-- B8. -/
theorem test_setunit : seen (fun t => t.unit) (exec (.setunit 4294967295) (inPhase small .idle)) = some 4294967295 := by decide

/-- B9. -/
theorem test_start :
    seen (fun t => (t.statusWord, t.trace)) (exec .start { inPhase small .idle with swapPending := true, done := true })
      = some (0x031, [.refreshStart true]) := by decide

/-- B10. -/
theorem test_start_busy : exec .start (inPhase small .clkh) = .next (inPhase small .clkh) := rfl

/-- B11, B12. -/
theorem test_cancel :
    seen (fun t => t.cancelPending) (exec .cancel (inPhase small .idle)) = some false
    ∧ seen (fun t => t.cancelPending) (exec .cancel (inPhase small .data)) = some true := by decide

/-- B13. -/
theorem test_rdcsr :
    [1, 2, 3, 4, 5, 6, 7, 8, 15].map State.reset.csr = [0, 0, 255, 1000, 0, 0, 0, 0, 0] := by decide

/-- B14. -/
theorem test_rdcsr_position :
    seen (fun t => t.reads) (exec (.rdcsr 2) { inPhase small .hold with p := 1, c := 2 }) = some [⟨2, 0x000201⟩]
    ∧ (inPhase small .hold).statusWord = 0x81A := by decide

/-! ### Micro-operations (vectors M1 to M24) -/

/-- R111. -/
theorem test_idle : exec .idle (inPhase small .idle) = .next (inPhase small .idle) := rfl

/-- M1, M3. -/
theorem test_plane :
    seen (fun t => (t.hold, t.r, t.phase)) (exec .plane { inPhase small .plane with unit := 1000, bri := 128, p := 2, r := 1 })
      = some (2004, 0, .blank)
    ∧ seen (fun t => t.hold) (exec .plane { inPhase small .plane with unit := 4294967295, bri := 255, p := 7 })
      = some 0x7FFFFFFF80 := by decide

/-- M5, M7: the floor comes before the weight. -/
theorem test_plane_floor :
    seen (fun t => t.hold) (exec .plane { inPhase small .plane with unit := 254, bri := 1, p := 3 }) = some 0
    ∧ seen (fun t => t.hold) (exec .plane { inPhase small .plane with unit := 10, bri := 200, p := 1 }) = some 14 := by decide

/-- M10. -/
theorem test_blank :
    seen (fun t => (t.pins.word, t.phase, t.trace)) (exec .blank { inPhase small .blank with pins := ⟨1, 1, false, false, false⟩ })
      = some (0x0041, .addr, [.pins 0x0041]) := by decide

/-- M11. -/
theorem test_addr :
    seen (fun t => (t.pins.word, t.c, t.phase)) (exec .addr { inPhase (block 2 32 4 4 true 0 0 []) .addr with r := 5, c := 2 })
      = some (0x0140, 0, .data) := by decide

/-- M13: no wired line. -/
theorem test_addr_unwired :
    seen (fun t => (t.pins.word, t.c, t.trace))
        (exec .addr { inPhase (block 1 2 1 0 true 0 0 []) .addr with c := 1, pins := ⟨0x3F, 0, false, false, false⟩ })
      = some (0x003F, 0, [.pins 0x003F]) := by decide

/-- M14. -/
theorem test_data :
    seen (fun t => (t.pins.word, t.phase))
        (exec .data { inPhase (block 1 32 4 4 false 0 0 (Config.gammaLin 4)) .data with
          p := 3, r := 5, pins := ⟨0, 5, false, false, false⟩, fb := [(5, 0xFF00C8), (21, 0x100F80)] })
      = some (0x0165, .clkh) := by decide

/-- Program P1, step 7: column 1 of the front buffer. -/
theorem test_data_column :
    seen (fun t => t.pins.word)
        (exec .data { inPhase small .data with c := 1, fb := [(0, 0xFF0000), (1, 0x008040), (4, 0x404040), (7, 0xFFFFFF), (9, 0xFFFFFF)] })
      = some 0x0004 := by decide

/-- M15. -/
theorem test_clkh :
    seen (fun t => (t.pins.word, t.phase)) (exec .clkh { inPhase small .clkh with pins := ⟨0x25, 5, false, false, false⟩ })
      = some (0x0965, .clkl) := by decide

/-- M16. -/
theorem test_clkl :
    seen (fun t => (t.pins.word, t.c, t.phase)) (exec .clkl { inPhase small .clkl with pins := ⟨0x25, 5, true, false, false⟩ })
      = some (0x0165, 1, .data)
    ∧ seen (fun t => (t.c, t.phase)) (exec .clkl { inPhase small .clkl with c := 1 }) = some (2, .lath) := by decide

/-- M18. -/
theorem test_lath :
    seen (fun t => (t.pins.word, t.phase)) (exec .lath { inPhase small .lath with pins := ⟨0x25, 5, false, false, false⟩ })
      = some (0x1165, .latl) := by decide

/-- M18. -/
theorem test_latl :
    seen (fun t => (t.pins.word, t.phase)) (exec .latl { inPhase small .latl with pins := ⟨0x25, 5, false, true, false⟩ })
      = some (0x0165, .oeon) := by decide

/-- M19, and the deadline of R127's example. -/
theorem test_oeon :
    seen (fun t => (t.pins.word, t.tmrArmed, t.tmrN, t.tmrDeadline, t.trace))
        (exec .oeon { inPhase small .oeon with hold := 2004, now := 50000, pins := ⟨0x25, 5, false, false, false⟩ })
      = some (0x2165, true, 2004, 52004, [.wait 2004, .pins 0x2165]) := by decide

/-- T1. -/
theorem test_hold_cancel :
    seen (fun t => (t.statusWord, t.trace))
        (exec .hold { inPhase small .hold with cancelPending := true, pins := ⟨0x25, 1, false, false, true⟩ })
      = some (0x200, [.cancelled, .pins 0x0065]) := by decide

/-- R121: suspended. -/
theorem test_hold_waits : exec .hold (inPhase small .hold) = .next (inPhase small .hold) := rfl

/-- M22. -/
theorem test_oeoff_loops :
    seen (fun t => (t.p, t.r, t.phase, t.pins.oe)) (exec .oeoff (inPhase small .oeoff)) = some (0, 1, .blank, false)
    ∧ seen (fun t => (t.p, t.r, t.phase)) (exec .oeoff { inPhase small .oeoff with r := 1 }) = some (1, 1, .plane) := by decide

/-- M22, M24. -/
theorem test_oeoff_ends :
    seen (fun t => (t.phase, t.done, t.cancelled, t.cancelPending, t.trace))
        (exec .oeoff { inPhase small .oeoff with p := 1, r := 1, cancelPending := true })
      = some (.idle, true, false, false, [.refreshDone, .pins 0]) := by decide

/-! ### Timer, reset, illegal command (vectors T5, T6, M21) -/

/-- M21. -/
theorem test_timer :
    seen (fun t => (t.tmrArmed, t.phase, t.pins.oe, t.trace)) (step { inPhase small .hold with agenda := [.timer] })
      = some (false, .oeoff, true, [.waitDone]) := by decide

/-- T5. -/
theorem test_reset :
    seen (fun t => (t.statusWord, t.pins.word, t.bri, t.fb))
        (step { inPhase small .hold with cmderr := true, bri := 3, agenda := [.reset [(3, 5), (99, 5)]] })
      = some (0, 0, 255, [(3, 5)]) := by decide

/-- T6. -/
theorem test_illegal :
    seen (fun t => (t.statusWord, t.pins.oe, t.tmrArmed))
        (step { inPhase small .hold with host := [.command 0x0500000000000000], agenda := [.host] })
      = some (0xC1A, true, true) := by decide

/-- G5-style sample of what the panel sees: the pulse shifts one column, the latch commits it. -/
theorem test_panel :
    let panel : Panel := ⟨0, [1, 2], [0, 0], none, 0, 0⟩
    let sp : SubPixel := ⟨1, 0, .red⟩
    let after := Panel.watch small (fun _ => 0) sp panel [.waitDone, .wait 10, .pins 0x2001, .pins 0x0001, .pins 0x1001, .pins 0x0001, .pins 0x0801, .pins 0x0001]
    after.sr = [2, 1] ∧ after.lr = [2, 1] ∧ after.litTime = 10 := by decide

/-- Two waits cut short, one by a cancellation and one by a reset: each has a value of its own, at most its length (R214, U21). -/
theorem test_panel_cut :
    let panel : Panel := ⟨0, [0, 0], [0, 1], none, 0, 0⟩
    let sp : SubPixel := ⟨1, 0, .red⟩
    let cut : Nat → Nat := fun k => if k = 0 then 3 else 12
    let after := Panel.watch small cut sp panel [.pins 0, .wait 10, .pins 0x2000, .cancelled, .pins 0, .wait 10, .pins 0x2000]
    after.litTime = 13 ∧ after.cuts = 2 ∧ after.waiting = none := by decide

/-- R6, U7: a configuration carries durations of its own, of a micro-operation and of a command. -/
theorem test_opTime :
    opTime { small with tOp := [((.clkh, 2), 7), ((.swap, 0), 3)] } .clkh 2 = 7
    ∧ opTime { small with tOp := [((.clkh, 2), 7), ((.swap, 0), 3)] } .swap 0 = 3 := by decide

/-! ### States that meet the invariant -/

theorem valid_small : ValidConfig small where
  width := by decide
  height := by decide
  even := by decide
  colorBits := by decide
  nAddr := by decide
  lines := by decide
  gamma := gammaLin_contract 2 (by decide)

theorem valid_single : ValidConfig single := ⟨by decide, by decide, by decide, by decide, by decide, by decide, gammaLin_contract 2 (by decide)⟩

theorem valid_tiny : ValidConfig tiny := ⟨by decide, by decide, by decide, by decide, by decide, by decide, gammaLin_contract 1 (by decide)⟩

/-- A block in a phase meets the invariant. -/
theorem inv_inPhase {cfg : Config} (h : ValidConfig cfg) (ph : Phase) : Inv (inPhase cfg ph) where
  config := h
  oe := ⟨by simp [inPhase], by simp [inPhase], fun _ => rfl, fun _ => rfl⟩
  pulse := ⟨by simp [inPhase], by simp [inPhase]⟩
  flags := ⟨fun _ => ⟨rfl, rfl⟩, fun hb => Bool.noConfusion hb.1, fun hb => by simp [inPhase, State.resetWith] at hb⟩
  counters :=
    { p := Nat.lt_of_lt_of_le Nat.zero_lt_one h.colorBits.1
      r := by
        have := h.height.1
        show 0 < cfg.height / 2
        omega
      c := Nat.zero_le _
      column := fun _ => Nat.lt_of_lt_of_le Nat.zero_lt_one h.width.1
      hold := by
        show (0 : Nat) < 2 ^ 39
        decide
      unwired := fun i _ => by simp [inPhase] }
  memory := ⟨Memory.wf_nil, by simp [inPhase, State.resetWith]⟩

/-! ### Witnesses: the hypotheses of each statement are met -/

theorem witness_EncodeOfDecode : decode (.command 0x0200010003000000) = some (.getpx 3 1) ∧ decode (.csr 15) = some (.rdcsr 15)
    ∧ decode (.phase 11) = some .oeoff := by decide

theorem witness_DecodeOfEncode : (Instr.setpx (-32768) 32767 0 255 0).wellFormed = true ∧ (Instr.adjbri 2147483647).wellFormed = true := by
  decide

theorem witness_AssemblerProducesLegalWords :
    assembleLine ['s', 'w', 'a', 'p'] = some [.command 0x0400000000000000]
      ∧ HostAct.command 0x0400000000000000 ∈ [HostAct.command 0x0400000000000000] := by decide

/-- Two rows need one line, and one is the least. -/
theorem witness_DerivedConstants : rows small ≤ 2 ^ 1 := by decide

theorem witness_ConstructionAcceptsExactlyValidConfigs : ValidConfig small ∧ ¬ValidConfig (block 0 4 2 1 true 0 0 []) :=
  ⟨valid_small, fun h => absurd h.width.1 (by decide)⟩

/-- One configuration for each clause, at the edge of the range it leaves. -/
theorem witness_FirstConfigErrorIsReported :
    ¬(1 ≤ 0 ∧ 0 ≤ 32767)
    ∧ ((1 ≤ 32767 ∧ 32767 ≤ 32767) ∧ ¬(2 ≤ 65 ∧ 65 ≤ 64))
    ∧ ((2 ≤ 63 ∧ 63 ≤ 64) ∧ ¬63 % 2 = 0)
    ∧ ((2 ≤ 64 ∧ 64 ≤ 64) ∧ 64 % 2 = 0 ∧ ¬(1 ≤ 9 ∧ 9 ≤ 8))
    ∧ ((1 ≤ 8 ∧ 8 ≤ 8) ∧ ¬6 ≤ 5)
    ∧ ((block 1 64 8 4 true 0 0 []).nAddr ≤ 5 ∧ ¬addressBits (block 1 64 8 4 true 0 0 []) ≤ (block 1 64 8 4 true 0 0 []).nAddr)
    ∧ (addressBits (block 1 64 8 5 true 0 0 []) ≤ (block 1 64 8 5 true 0 0 []).nAddr) := by decide

/-- The last clause: a table with no entry breaks the contract. -/
theorem witness_FirstConfigErrorIsReported_gamma : ¬GammaContract 8 [] := fun h => absurd h.total (by decide)

theorem witness_ResetSetsEveryPieceOfState :
    ({ inPhase small .hold with agenda := [.reset [(3, 5)]] } : State).agenda = .reset [(3, 5)] :: []
    ∧ ∃ t, construct small [(3, 5)] = .next t := by
  have h : configCheck small = none := by
    rw [configCheck, if_neg (by decide), if_neg (by decide), if_neg (by decide), if_neg (by decide), if_neg (by decide),
      if_neg (by decide), if_pos ((gammaCheck_iff _ _).2 valid_small.gamma)]
  exact ⟨rfl, _, by rw [construct, h]⟩

theorem witness_InvariantHoldsAtReset :
    ValidConfig small ∧ Memory.wf [(15, 5)] ∧ ∀ e ∈ ([(15, 5)] : Memory), e.1 < cellCount small :=
  ⟨valid_small, ⟨by simp, by decide⟩, by decide⟩

/-- A block whose host holds a word or another act, and whose next turn is given. -/
def withAct (ph : Phase) (act : HostAct) (turn : Turn) : State := { inPhase small ph with host := [act], agenda := [turn] }

theorem witness_StepRunsTheDecodedInstruction :
    ((withAct .hold (.command 0x0400000000000000) .host).host = [.command 0x0400000000000000]
      ∧ decode (.command 0x0400000000000000) = some .swap)
    ∧ ((withAct .hold (.readCsr 15) .host).host = [.readCsr 15] ∧ decode (.csr 15) = some (.rdcsr 15))
    ∧ ((withAct .oeoff .waitIdle .sequencer).agenda = [.sequencer] ∧ decode (.phase Phase.oeoff.code) = some .oeoff)
    ∧ (inPhase small .idle).agenda = [] := by decide

theorem witness_PlacedWordRunsNext : decodeTableWord 64 0x0200010003000000 = some (.getpx 3 1) := by decide

theorem witness_IllegalCommandSetsOnlyCmderr :
    ((withAct .hold (.command 0x0400000000000001) .host).host = [.command 0x0400000000000001] ∧ decodeCommand 0x0400000000000001 = none)
    ∧ (∃ t, step { withAct .hold (.command 0) .host with cmderr := true } = .next t)
    ∧ Turn.running .host = true
    ∧ ∃ t, step (withAct .hold (.command 0) .host) = .next t ∧ t.cmderr = true := by
  refine ⟨by decide, ⟨_, rfl⟩, rfl, _, rfl, rfl⟩

/-- Enabled exactly at the deadline; one tick before it, unarmed, or in another phase it is not. -/
theorem witness_TimerAndTickTurns :
    (({ inPhase small .hold with now := 7, tmrDeadline := 7 } : State).timerEnabled = true)
    ∧ (({ inPhase small .hold with now := 6, tmrDeadline := 7 } : State).timerEnabled = false)
    ∧ (({ inPhase small .hold with tmrArmed := false } : State).timerEnabled = false)
    ∧ ((inPhase small .oeoff).timerEnabled = false) := by decide

theorem witness_DirectivesPollStatus :
    (withAct .idle .waitIdle .host).statusWord.getLsbD 4 = false
    ∧ (withAct .oeoff .waitIdle .host).statusWord.getLsbD 4 = true
    ∧ (withAct .oeoff (.waitPhase .oeoff) .host).statusWord.extractLsb' 0 4 = Phase.oeoff.code
    ∧ (withAct .idle (.waitPhase .oeoff) .host).statusWord.extractLsb' 0 4 ≠ Phase.oeoff.code := by decide

/-- The last pixel is in range; one column or row further, or before the first, is not. -/
theorem witness_SetpxWritesOneCell :
    ((0 : Int) ≤ 1 ∧ (1 : Int) < small.width ∧ (0 : Int) ≤ 3 ∧ (3 : Int) < small.height)
    ∧ ((small.width : Int) ≤ 2 ∧ (small.height : Int) ≤ 4 ∧ (-1 : Int) < 0)
    ∧ opField 0x01FFFFFFFFFFFFFF = 0x01#8 := by decide

theorem witness_GetpxReadsIntoResp :
    ((0 : Int) ≤ 1 ∧ (1 : Int) < small.width ∧ (0 : Int) ≤ 3 ∧ (3 : Int) < small.height)
    ∧ ((small.width : Int) ≤ 2 ∧ (small.height : Int) ≤ 4 ∧ (-1 : Int) < 0)
    ∧ opField 0x0200010003000001 = 0x02#8 := by decide

/-- The last cell of the draw buffer is filled; the one below the first and the one above the last are not. -/
theorem witness_ClearFillsTheDrawBuffer :
    7 < small.width * small.height ∧ 7 < 1 * (small.width * small.height)
    ∧ 1 * (small.width * small.height) + small.width * small.height ≤ 16 ∧ opField 0x0300000000102030 = 0x03#8 := by decide

theorem witness_SwapFlipsOrDefers :
    single.dbuf = false ∧ (small.dbuf = true ∧ (inPhase small .idle).phase = .idle) ∧ (inPhase small .oeoff).phase ≠ .idle
    ∧ opField 0x0400000000000001 = 0x04#8 := by decide

theorem witness_GetpxReturnsWhatSetpxWrote :
    ((0 : Int) ≤ 1 ∧ (1 : Int) < small.width ∧ (0 : Int) ≤ 3 ∧ (3 : Int) < small.height)
    ∧ ∃ t u, exec (.setpx 1 3 255 128 0) (inPhase small .plane) = .next t ∧ (∀ τ ∈ [Turn.sequencer, .tick], τ.quiet = true)
        ∧ runTurns [.sequencer, .tick] t = .next u :=
  ⟨by decide, _, _, rfl, by decide, rfl⟩

theorem witness_SetbriSetsBrightness : opField 0x1000000000000100 = 0x10#8 ∧ opField 0x10000000000000FA = 0x10#8 := by decide

theorem witness_AdjbriSaturates : opField 0x1100000100000000 = 0x11#8 ∧ opField 0x11000000FFFFFFEC = 0x11#8 := by decide

theorem witness_SetunitSetsUnit : opField 0x1200800000000000 = 0x12#8 ∧ opField 0x12000000FFFFFFFF = 0x12#8 := by decide

theorem witness_StartBeginsOneRefresh :
    (inPhase small .idle).phase = .idle ∧ (inPhase small .plane).phase ≠ .idle ∧ opField 0x2000000000000001 = 0x20#8 := by decide

theorem witness_CancelRecordsTheRequest :
    (inPhase small .hold).phase ≠ .idle ∧ (inPhase small .idle).phase = .idle ∧ opField 0x2180000000000000 = 0x21#8 := by decide

/-- The first reserved CSR number and the last. -/
theorem witness_RdcsrReturnsTheRegister : 8 ≤ (8 : BitVec 4).toNat ∧ 8 ≤ (15 : BitVec 4).toNat := by decide

theorem witness_CsrLayouts : ValidConfig (inPhase small .hold).cfg := valid_small

/-- Every phase has a state that is in it and meets the invariant. -/
theorem witness_phase (ph : Phase) : (inPhase small ph).phase = ph ∧ Inv (inPhase small ph) := ⟨rfl, inv_inPhase valid_small ph⟩

theorem witness_IdleDoesNothing : (inPhase small .idle).phase = .idle := rfl

theorem witness_PlaneComputesTheHold : (inPhase small .plane).phase = .plane := rfl

theorem witness_BlankDisablesOutput : (inPhase small .blank).phase = .blank := rfl

/-- Row 1 fits one wired line, and row 31 fits five. -/
theorem witness_AddrDrivesTheRowAddress :
    ({ inPhase small .addr with r := 1 } : State).phase = .addr ∧ (1 : BitVec 5).toNat < 2 ^ small.nAddr ∧ (31 : BitVec 5).toNat < 2 ^ 5 := by
  decide

/-- The last column, row and bitplane, of the front buffer of either mode. -/
theorem witness_DataPresentsOneColumn :
    (1 : BitVec 16).toNat < small.width ∧ (1 : BitVec 5).toNat < small.height / 2 ∧ (1 : BitVec 3).toNat < small.colorBits
    ∧ (inPhase single .data).front = false
    ∧ small.dbuf = true ∧ (inPhase small .data).phase = .data := by decide

theorem witness_ClockAndLatchPulses :
    (inPhase small .clkh).phase = .clkh ∧ ((inPhase small .clkl).phase = .clkl ∧ (32766 : BitVec 16).toNat < 65535)
    ∧ (inPhase small .lath).phase = .lath ∧ (inPhase small .latl).phase = .latl := by decide

theorem witness_OeonEnablesAndArms : (inPhase small .oeon).phase = .oeon := rfl

theorem witness_HoldCancelsOrWaits :
    ({ inPhase small .hold with cancelPending := true } : State).cancelPending = true
    ∧ (inPhase small .hold).cancelPending = false ∧ (inPhase small .hold).phase = .hold := by decide

/-- The last row but one, the last row of the last bitplane but one, and the last row of the last bitplane. -/
theorem witness_OeoffAdvancesOrFinishes :
    ((0 : BitVec 5).toNat + 1 < small.height / 2 ∧ (30 : BitVec 5).toNat < 31)
    ∧ (small.height / 2 ≤ (1 : BitVec 5).toNat + 1 ∧ (0 : BitVec 3).toNat + 1 < small.colorBits ∧ (6 : BitVec 3).toNat < 7)
    ∧ small.colorBits ≤ (1 : BitVec 3).toNat + 1 := by decide

theorem witness_MicroOpsAreDisabledOutsideTheirPhase : (inPhase small .idle).phase ≠ .plane ∧ (inPhase small .hold).phase ≠ .oeoff := by
  decide

/-- The first column, the first row, the first buffer and the first bitplane that do not exist. -/
theorem witness_DataStopsWhereNoCellExists :
    small.width ≤ (2 : BitVec 16).toNat ∧ small.height ≤ (2 : BitVec 5).toNat + small.height / 2
    ∧ ({ inPhase single .data with front := true } : State).front = true ∧ single.dbuf = false
    ∧ small.colorBits ≤ ({ inPhase small .data with p := 2 } : State).p.toNat ∧ (inPhase small .data).c.toNat < small.width
    ∧ (inPhase small .data).r.toNat < small.height / 2 ∧ (inPhase small .data).front = false := by decide

/-- A cancellation pending in HOLD, the wait over. -/
def cancelling : State := { inPhase small .hold with cancelPending := true }

theorem inv_cancelling : Inv cancelling :=
  let h := inv_inPhase valid_small .hold
  ⟨h.config, ⟨h.oe.oe, h.oe.armed, h.oe.length, fun hi => Phase.noConfusion hi⟩, ⟨h.pulse.clk, h.pulse.lat⟩,
    ⟨h.flags.single, h.flags.exclusive, h.flags.ended⟩,
    ⟨h.counters.p, h.counters.r, h.counters.c, h.counters.column, h.counters.hold, h.counters.unwired⟩, ⟨h.memory.wf, h.memory.cells⟩⟩

theorem witness_CancelAndTimerInEitherOrder :
    Inv cancelling ∧ cancelling.phase = .hold ∧ cancelling.cancelPending = true ∧ cancelling.tmrDeadline ≤ cancelling.now :=
  ⟨inv_cancelling, rfl, rfl, Nat.le_refl _⟩

/-- The other case: the last row of the last bitplane. -/
theorem witness_CancelAndTimerInEitherOrder_last :
    ({ cancelling with p := 1, r := 1 } : State).r.toNat + 1 = small.height / 2
    ∧ ({ cancelling with p := 1, r := 1 } : State).p.toNat + 1 = small.colorBits
    ∧ ¬(cancelling.r.toNat + 1 = small.height / 2 ∧ cancelling.p.toNat + 1 = small.colorBits) := by decide

theorem witness_EveryStepKeepsTheInvariant : Inv cancelling ∧ ∃ t, step cancelling = .next t := ⟨inv_cancelling, _, rfl⟩

theorem witness_ReachableStatesAreSafe :
    ValidConfig small ∧ Memory.wf [] ∧ ∃ t, runTurns [.host, .sequencer, .tick]
      { State.resetWith small [] with host := [.command 0x2000000000000000] } = .next t ∧ t.phase = .blank :=
  ⟨valid_small, Memory.wf_nil, exists_of_seen (f := fun t => t.phase) (by decide)⟩

theorem witness_NoStepFails : Inv cancelling := inv_cancelling

theorem witness_PinsChangeOnlyWhileBlanked :
    Inv (inPhase small .clkh) ∧ ∃ t, step { inPhase small .clkh with agenda := [.sequencer] } = .next t ∧ t.pins.clk = true :=
  ⟨inv_inPhase valid_small .clkh, _, rfl, rfl⟩

theorem witness_ScanBufferIsASnapshot :
    small.dbuf = true ∧ (withAct .data (.command 0x0300000000FFFFFF) .host).phase ≠ .idle
    ∧ ∃ t, step (withAct .data (.command 0x0300000000FFFFFF) .host) = .next t := ⟨rfl, by decide, _, rfl⟩

theorem witness_OnlyTheHostWritesMemory :
    Turn.quiet .sequencer = true ∧ ∃ t, step { inPhase small .blank with agenda := [.sequencer] } = .next t := ⟨rfl, _, rfl⟩

theorem witness_ConfigurationNeverChanges : ∃ t, step { inPhase small .hold with agenda := [.reset []] } = .next t := ⟨_, rfl⟩

theorem witness_FrameBufferCommandsLeaveTheSequencerAlone : ∃ x y r g b, Instr.setpx 3 1 255 128 0 = .setpx x y r g b :=
  ⟨3, 1, 255, 128, 0, rfl⟩

/-- Each clause has a step that it is about. -/
theorem witness_HoldLastsAtLeastItsLength :
    (∃ t, step (inPhase small .oeon) = .next t ∧ t.phase = .hold)
    ∧ (∃ t, step { inPhase small .hold with agenda := [.tick] } = .next t ∧ t.phase = .hold)
    ∧ (∃ t, step { inPhase small .hold with agenda := [.timer] } = .next t ∧ t.phase = .oeoff) :=
  ⟨⟨_, rfl, rfl⟩, ⟨_, rfl, rfl⟩, _, rfl, rfl⟩

theorem witness_RefreshTakesTheStatedSteps :
    (∃ t, Inv (inPhase small .clkl) ∧ step { inPhase small .clkl with agenda := [.sequencer] } = .next t)
    ∧ (∃ t, step { inPhase small .hold with agenda := [.timer] } = .next t ∧ (inPhase small .hold).tmrDeadline ≤ 0)
    ∧ ∃ t, exec .start (inPhase small .idle) = .next t :=
  ⟨⟨_, inv_inPhase valid_small .clkl, rfl⟩, ⟨_, rfl, Nat.le_refl _⟩, _, rfl⟩

theorem witness_EveryRefreshEnds : Inv (inPhase small .plane) ∧ (inPhase small .plane).agenda = [] ∧ (inPhase small .plane).host = [] :=
  ⟨inv_inPhase valid_small .plane, rfl, rfl⟩

/-- The first and the last bitplane that has a next one. -/
theorem witness_HoldsFollowTheWeightLaw : (0 : BitVec 3).toNat < 7 ∧ (6 : BitVec 3).toNat < 7 ∧ 8 ≤ 8 := by decide

/-- The ten sequencer steps and one timer step of vector M23, with the one tick that the hold lasts. -/
def tinyRefresh : List Turn :=
  List.replicate 9 .sequencer ++ [.tick, .timer, .sequencer]

/-- A refresh of the smallest block with a white pixel in the upper row: what is requested, and what the observer sees. -/
theorem tiny_run :
    ∃ u t, exec .start { inPhase tiny .idle with fb := [(0, 0xFFFFFF)] } = .next u ∧ runTurns tinyRefresh u = .next t
      ∧ (t.phase, waitTotal t.trace, (Panel.watch tiny (fun _ => 0) ⟨0, 0, .red⟩ ⟨0, [0], [0], none, 0, 0⟩ t.trace).litTime) = (.idle, 1, 1) :=
  ⟨_, (exists_of_seen (f := fun t => (t.phase, waitTotal t.trace,
    (Panel.watch tiny (fun _ => 0) ⟨0, 0, .red⟩ ⟨0, [0], [0], none, 0, 0⟩ t.trace).litTime)) (by decide)).imp fun _ h => ⟨rfl, h⟩⟩

/-- Such a refresh starts idle, with the invariant, and all its turns are quiet. -/
theorem tiny_quiet : Inv (inPhase tiny .idle) ∧ (inPhase tiny .idle).phase = .idle ∧ ∀ τ ∈ tinyRefresh, τ.quiet = true :=
  ⟨inv_inPhase valid_tiny .idle, rfl, by decide⟩

theorem witness_RefreshWaitTotal :
    Inv (inPhase tiny .idle) ∧ (∀ τ ∈ tinyRefresh, τ.quiet = true)
    ∧ ∃ u t, exec .start (inPhase tiny .idle) = .next u ∧ runTurns tinyRefresh u = .next t ∧ t.phase = .idle :=
  ⟨tiny_quiet.1, tiny_quiet.2.2, _, (exists_of_seen (f := fun t => t.phase) (by decide)).imp fun _ h => ⟨rfl, h⟩⟩

theorem witness_RowsAndBitplanesAscend :
    Inv (inPhase tiny .idle) ∧ (∀ τ ∈ tinyRefresh.take 9, τ.quiet = true)
    ∧ ∃ u t, exec .start (inPhase tiny .idle) = .next u ∧ runTurns (tinyRefresh.take 9) u = .next t ∧ t.phase = .hold :=
  ⟨tiny_quiet.1, by decide, _, (exists_of_seen (f := fun t => t.phase) (by decide)).imp fun _ h => ⟨rfl, h⟩⟩

theorem witness_OutputEnableCarriesNoPicture :
    (inPhase small .blank).withoutPicture = { inPhase small .blank with fb := [(0, 5)], resp := 7 }.withoutPicture
    ∧ (∃ t, step (inPhase small .blank) = .next t)
    ∧ ∃ t, step { inPhase small .blank with fb := [(0, 5)], resp := 7 } = .next t := ⟨rfl, ⟨_, rfl⟩, _, rfl⟩

theorem witness_SquareLawTableMeetsTheContract : 1 ≤ 1 ∧ 8 ≤ 8 := by decide

theorem witness_PlaneBitsRebuildTheIntensity : ValidConfig small ∧ (64 : Byte).toNat ≤ (255 : Byte).toNat := ⟨valid_small, by decide⟩

theorem witness_LowInputsCollapseToBlack : ValidConfig small := valid_small

theorem witness_ExposureLaw :
    Inv (inPhase tiny .idle) ∧ (∀ τ ∈ tinyRefresh, τ.quiet = true)
    ∧ (∃ u t, exec .start (inPhase tiny .idle) = .next u ∧ runTurns tinyRefresh u = .next t ∧ t.phase = .idle)
    ∧ (0 < tiny.width ∧ 1 < tiny.height ∧ (inPhase tiny .idle).pins.word = 0 ∧ ([0] : List (BitVec 6)).length = tiny.width) :=
  ⟨tiny_quiet.1, tiny_quiet.2.2, witness_RefreshWaitTotal.2.2, by decide⟩

/-- The two refreshes are of one block with a white and with a black pixel. -/
theorem witness_BrighterIsLitStrictlyLonger :
    (Inv (inPhase tiny .idle) ∧ Inv { inPhase tiny .idle with fb := [(0, 0xFFFFFF)] })
    ∧ (∃ u t, exec .start (inPhase tiny .idle) = .next u ∧ runTurns tinyRefresh u = .next t ∧ t.phase = .idle)
    ∧ (∃ u t, exec .start { inPhase tiny .idle with fb := [(0, 0xFFFFFF)] } = .next u ∧ runTurns tinyRefresh u = .next t
        ∧ t.phase = .idle)
    ∧ (0 < (inPhase tiny .idle).unit.toNat * (inPhase tiny .idle).bri.toNat / 255 ∧ 0 < tiny.width ∧ 1 < tiny.height
      ∧ (inPhase tiny .idle).pins.word = 0 ∧ ([0] : List (BitVec 6)).length = tiny.width)
    ∧ 1 ≤ 1 ∧ 8 ≤ 8 :=
  let h := inv_inPhase valid_tiny .idle
  ⟨⟨h, h.config, ⟨h.oe.oe, h.oe.armed, h.oe.length, h.oe.idle⟩, ⟨h.pulse.clk, h.pulse.lat⟩,
      ⟨h.flags.single, h.flags.exclusive, h.flags.ended⟩,
      ⟨h.counters.p, h.counters.r, h.counters.c, h.counters.column, h.counters.hold, h.counters.unwired⟩,
      ⟨⟨by simp, by decide⟩, by decide⟩⟩,
    witness_RefreshWaitTotal.2.2, ⟨_, (exists_of_seen (f := fun t => t.phase) (by decide)).imp fun _ h => ⟨rfl, h⟩⟩,
    by decide, by decide⟩

end Sys2Proof.Tests
end

/-! Settles the family of spec/00_scope.md: the derived constants, construction, the fixed configuration, the dispatch of a step, and the
enabling condition of the micro-operations. Each layer's lemmas stand before the theorem that uses them. -/

namespace Sys2Proof.Machine

/-! ### The derived constants (R7) -/

/-- Settles O7: `clog2` reaches its argument, and no smaller exponent does. -/
theorem derivedConstants : Obligations.DerivedConstants := by
  intro cfg
  exact ⟨rfl, rfl, rfl, le_two_pow_clog2 (rows cfg), fun _ hk => clog2_le hk⟩

/-! ### Construction (R8) -/

/-- The executable check finds no error exactly in the valid configurations. -/
theorem configCheck_eq_none_iff (cfg : Config) : configCheck cfg = none ↔ ValidConfig cfg := by
  constructor
  · intro h
    unfold configCheck at h
    split_ifs at h with hwidth hheight hodd hdepth hlines hfits hgamma
    exact ⟨by omega, by omega, by omega, by omega, by omega, by omega, (gammaCheck_iff _ _).1 hgamma⟩
  · rintro ⟨hwidth, hheight, heven, hdepth, hlines, hfits, hgamma⟩
    rw [configCheck, if_neg (by omega), if_neg (by omega), if_neg (by omega), if_neg (by omega), if_neg (by omega),
      if_neg (by omega), if_pos ((gammaCheck_iff _ _).2 hgamma)]

/-- Construction without a configuration error gives the block in its reset state. -/
theorem construct_of_check_none {cfg : Config} (fb : Memory) (h : configCheck cfg = none) :
    construct cfg fb = .next (State.resetWith cfg fb) := by
  rw [construct, h]

/-- Construction with a configuration error is refused with it. -/
theorem construct_of_check_some {cfg : Config} {kind : ConfigError} (fb : Memory) (h : configCheck cfg = some kind) :
    construct cfg fb = .refused (.configError kind) := by
  rw [construct, h]

/-- Settles O8: the check that construction runs is validity. -/
theorem constructionAcceptsExactlyValidConfigs : Obligations.ConstructionAcceptsExactlyValidConfigs := by
  intro cfg fb
  constructor
  · intro hvalid
    exact construct_of_check_none fb ((configCheck_eq_none_iff cfg).2 hvalid)
  · intro hinvalid
    obtain ⟨kind, hkind⟩ := Option.ne_none_iff_exists'.1 (mt (configCheck_eq_none_iff cfg).1 hinvalid)
    exact ⟨kind, construct_of_check_some fb hkind⟩

/-! ### The host's turn (R9, R80) -/

theorem presentCommand_of_some {w : Word} {i : Instr} (s : State) (h : decodeCommand w = some i) :
    presentCommand w s = exec i s := by
  rw [presentCommand, h]

theorem presentCommand_of_none {w : Word} (s : State) (h : decodeCommand w = none) :
    presentCommand w s = .next s.illegalCommand := by
  rw [presentCommand, h]

theorem hostTurn_of_nil {s : State} (h : s.host = []) : hostTurn s = .next s := by
  rw [hostTurn, h]

theorem hostTurn_of_command {s : State} {w : Word} {acts : List HostAct} (h : s.host = .command w :: acts) :
    hostTurn s = presentCommand w { s with host := acts } := by
  rw [hostTurn, h]

theorem hostTurn_of_readCsr {s : State} {n : BitVec 4} {acts : List HostAct} (h : s.host = .readCsr n :: acts) :
    hostTurn s = exec (.rdcsr n) { s with host := acts } := by
  rw [hostTurn, h]

theorem hostTurn_of_waitIdle {s : State} {acts : List HostAct} (h : s.host = .waitIdle :: acts) :
    hostTurn s = exec (.rdcsr 1) { s with host := afterPoll (decide (s.phase = .idle)) .waitIdle acts } := by
  rw [hostTurn, h]

theorem hostTurn_of_waitPhase {s : State} {ph : Phase} {acts : List HostAct} (h : s.host = .waitPhase ph :: acts) :
    hostTurn s = exec (.rdcsr 1) { s with host := afterPoll (decide (s.phase = ph)) (.waitPhase ph) acts } := by
  rw [hostTurn, h]

/-- Everything a turn of the host can be: it passes, presents a legal or an illegal word, or reads a CSR. -/
theorem hostTurn_cases (s : State) :
    (s.host = [] ∧ hostTurn s = .next s)
    ∨ (∃ w i acts, s.host = .command w :: acts ∧ decodeCommand w = some i ∧ hostTurn s = exec i { s with host := acts })
    ∨ (∃ w acts, s.host = .command w :: acts ∧ decodeCommand w = none
        ∧ hostTurn s = .next (State.illegalCommand { s with host := acts }))
    ∨ (∃ n acts, hostTurn s = exec (.rdcsr n) { s with host := acts }) := by
  cases hhost : s.host with
  | nil => exact .inl ⟨rfl, hostTurn_of_nil hhost⟩
  | cons act acts =>
    cases act with
    | command w =>
      cases hw : decodeCommand w with
      | some i => exact .inr (.inl ⟨w, i, acts, rfl, hw, (hostTurn_of_command hhost).trans (presentCommand_of_some _ hw)⟩)
      | none => exact .inr (.inr (.inl ⟨w, acts, rfl, hw, (hostTurn_of_command hhost).trans (presentCommand_of_none _ hw)⟩))
    | readCsr n => exact .inr (.inr (.inr ⟨n, acts, hostTurn_of_readCsr hhost⟩))
    | waitIdle => exact .inr (.inr (.inr ⟨1, _, hostTurn_of_waitIdle hhost⟩))
    | waitPhase ph => exact .inr (.inr (.inr ⟨1, _, hostTurn_of_waitPhase hhost⟩))

/-! ### The configuration is fixed (R6, R32) -/

theorem hostTurn_cfg {s t : State} (h : hostTurn s = .next t) : t.cfg = s.cfg := by
  obtain ⟨-, hrun⟩ | ⟨w, i, acts, -, -, hrun⟩ | ⟨w, acts, -, -, hrun⟩ | ⟨n, acts, hrun⟩ := hostTurn_cases s
  all_goals rw [hrun] at h
  · injection h with h
    rw [← h]
  · exact (exec_cfg h :)
  · injection h with h
    rw [← h, State.illegalCommand_cfg]
  · exact (exec_cfg h :)

theorem timerTurn_cfg (s : State) : (timerTurn s).cfg = s.cfg := by
  obtain ⟨-, hrun⟩ | ⟨-, hrun⟩ := timerTurn_cases s
  all_goals simp [hrun]

theorem takeTurn_cfg {τ : Turn} {s t : State} (h : takeTurn τ s = .next t) : t.cfg = s.cfg := by
  cases τ with
  | host => exact hostTurn_cfg h
  | sequencer => exact exec_cfg h
  | timer =>
    injection h with h
    rw [← h, timerTurn_cfg]
  | tick =>
    injection h with h
    rw [← h, tickTurn_cfg]
  | reset cells =>
    injection h with h
    rw [← h, State.resetStep_cfg]

@[simp] theorem State.nextTurn_cfg (s : State) : s.nextTurn.2.cfg = s.cfg := by
  unfold State.nextTurn
  cases s.agenda <;> rfl

/-- Settles O47: taking the turn off the agenda keeps the configuration, and so does every agent's step. -/
theorem configurationNeverChanges : Obligations.ConfigurationNeverChanges := by
  intro s t h
  exact (takeTurn_cfg h).trans s.nextTurn_cfg

/-! ### The dispatch of a step (R58, R78, R80, R81) -/

/-- The code of a phase decodes to the phase's micro-operation. -/
@[simp] theorem decode_phase_code (ph : Phase) : decode (.phase ph.code) = some ph.microOp := by
  rw [decode, Phase.ofCode_code, Option.map_some]

/-- Settles O12: each agent's turn runs what its encoding space decodes to. -/
theorem stepRunsTheDecodedInstruction : Obligations.StepRunsTheDecodedInstruction := by
  refine ⟨?_, ?_, ?_, fun s => step_of_empty⟩
  · intro s w i acts rest hagenda hhost hdecode
    calc step s = hostTurn { s with agenda := rest } := step_of_agenda hagenda
      _ = presentCommand w { s with agenda := rest, host := acts } := hostTurn_of_command hhost
      _ = exec i { s with agenda := rest, host := acts } := presentCommand_of_some _ hdecode
  · intro s n i acts rest hagenda hhost hdecode
    obtain rfl : Instr.rdcsr n = i := Option.some.inj hdecode
    calc step s = hostTurn { s with agenda := rest } := step_of_agenda hagenda
      _ = exec (.rdcsr n) { s with agenda := rest, host := acts } := hostTurn_of_readCsr hhost
  · intro s i rest hagenda hdecode
    obtain rfl : s.phase.microOp = i := Option.some.inj ((decode_phase_code s.phase).symm.trans hdecode)
    exact step_of_agenda hagenda

/-! ### Micro-operations are enabled in their phase only (R11, R110) -/

/-- Every micro-operation stands under the enabling condition of its phase. -/
theorem exec_microOp_eq_whenPhase (ph : Phase) (s : State) : ∃ k, exec ph.microOp s = whenPhase ph s k := by
  cases ph
  all_goals exact ⟨_, rfl⟩

/-- Settles O38: outside the phase the enabling condition answers the fault, whatever stands under it. -/
theorem microOpsAreDisabledOutsideTheirPhase : Obligations.MicroOpsAreDisabledOutsideTheirPhase := by
  intro s ph hphase
  obtain ⟨k, hk⟩ := exec_microOp_eq_whenPhase ph s
  rw [hk, whenPhase_of_ne hphase]

end Sys2Proof.Machine

/-! Settles the family of spec/10_state.md: reset, the invariant of a block just built, and the layouts of the CSRs. The rules about a
placed field, a field of a word, and a listed memory stand before the theorems that use them. -/

namespace Sys2Proof

/-! ### The fields of a word that is built from placed values (R10) -/

/-- A field at or above the start of a placed value is read from the value. -/
theorem extractLsb'_placeIn {m n pos lo : Nat} (v : BitVec n) (len : Nat) (hfits : pos + n ≤ m) (hlo : pos ≤ lo) :
    (placeIn m v pos).extractLsb' lo len = v.extractLsb' (lo - pos) len := by
  apply BitVec.eq_of_getLsbD_eq
  intro i _
  have hbit : lo + i - pos = lo - pos + i := by omega
  have hin : v.getLsbD (lo - pos + i) = true → lo + i < m := fun h => by
    have := BitVec.lt_of_getLsbD h
    omega
  simp only [BitVec.getLsbD_extractLsb', getLsbD_placeIn, hbit, show pos ≤ lo + i by omega]
  by_cases hset : v.getLsbD (lo - pos + i) = true
  · simp [hset, hin hset]
  · simp [hset]

/-- A placed value takes up its own bits. -/
@[simp] theorem extractLsb'_placeIn_self {m n : Nat} (v : BitVec n) (pos : Nat) (hfits : pos + n ≤ m) :
    (placeIn m v pos).extractLsb' pos n = v := by
  rw [extractLsb'_placeIn v n hfits le_rfl, Nat.sub_self, BitVec.extractLsb'_eq_self]

/-- A placed value takes up no bit below or above its own. -/
@[simp] theorem extractLsb'_placeIn_of_disjoint {m n pos lo len : Nat} (v : BitVec n)
    (h : lo + len ≤ pos ∨ pos + n ≤ lo) : (placeIn m v pos).extractLsb' lo len = 0 := by
  apply BitVec.eq_of_getLsbD_eq
  intro i hi
  rw [BitVec.getLsbD_extractLsb', getLsbD_placeIn]
  obtain h | h := h
  · simp [show ¬pos ≤ lo + i by omega]
  · simp [show n ≤ lo + i - pos by omega]

end Sys2Proof

namespace Sys2Proof.Machine

/-! ### Reset (R45, R190) -/

/-- The registers, the position, the flags, the timer and the pins hold their reset values for `cfg`: the table of R45 without the
cells. -/
def State.HasResetValues (cfg : Config) (t : State) : Prop :=
  t.bri = cfg.initBrightness ∧ t.unit = cfg.initUnit ∧ t.hold = 0 ∧ t.resp = 0
  ∧ t.phase = .idle ∧ t.p = 0 ∧ t.r = 0 ∧ t.c = 0
  ∧ t.front = false ∧ t.swapPending = false ∧ t.cancelPending = false
  ∧ t.done = false ∧ t.cancelled = false ∧ t.cmderr = false
  ∧ t.tmrArmed = false ∧ t.tmrN = 0 ∧ t.pins.word = 0

@[simp] theorem Pins.word_zero : Pins.word ⟨0, 0, false, false, false⟩ = 0 := by decide

theorem State.resetWith_hasResetValues (cfg : Config) (fb : Memory) : (State.resetWith cfg fb).HasResetValues cfg :=
  ⟨rfl, rfl, rfl, rfl, rfl, rfl, rfl, rfl, rfl, rfl, rfl, rfl, rfl, rfl, rfl, rfl, Pins.word_zero⟩

/-- Reset of a running block gives the values of the block that is built. -/
theorem State.resetStep_hasResetValues (s : State) (cells : List (Nat × Pixel)) :
    (s.resetStep cells).HasResetValues s.cfg :=
  State.resetWith_hasResetValues s.cfg (Memory.ofCells (cellCount s.cfg) cells)

/-- A block that is built is in the reset state. -/
theorem construct_next {cfg : Config} {fb : Memory} {t : State} (h : construct cfg fb = .next t) :
    t = State.resetWith cfg fb := by
  cases hcheck : configCheck cfg with
  | none =>
    rw [construct_of_check_none fb hcheck] at h
    injection h with h
    exact h.symm
  | some kind =>
    rw [construct_of_check_some fb hcheck] at h
    cases h

/-! ### Any contents of the cells (R31) -/

/-- The cells `0 .. n - 1` listed with their contents. -/
def Memory.listing (contents : Nat → Pixel) (n : Nat) : List (Nat × Pixel) :=
  (List.range n).map fun a => (a, contents a)

theorem Memory.listing_succ (contents : Nat → Pixel) (n : Nat) :
    Memory.listing contents (n + 1) = Memory.listing contents n ++ [(n, contents n)] := by
  simp [Memory.listing, List.range_succ]

/-- The last pair of a list, for a cell that exists, is written over what the pairs before it describe. -/
theorem Memory.ofCells_concat {bound a : Nat} (cells : List (Nat × Pixel)) (v : Pixel) (ha : a < bound) :
    Memory.ofCells bound (cells ++ [(a, v)]) = Memory.write (Memory.ofCells bound cells) a v := by
  simp [Memory.ofCells, ha]

/-- The memory that a listing describes holds the listed contents. -/
theorem Memory.read_ofCells_listing (contents : Nat → Pixel) {bound n a : Nat} (hn : n ≤ bound) (ha : a < n) :
    Memory.read (Memory.ofCells bound (Memory.listing contents n)) a = contents a := by
  induction n with
  | zero => omega
  | succ n ih =>
    rw [Memory.listing_succ, Memory.ofCells_concat _ _ hn, Memory.read_write]
    split
    · next heq => rw [heq]
    · exact ih (by omega) (by omega)

/-- Settles O10: both resets set the registers of `State.resetWith`, and a reset to the listing of the wanted contents leaves them in the
cells. -/
theorem resetSetsEveryPieceOfState : Obligations.ResetSetsEveryPieceOfState := by
  refine ⟨?_, ?_, ?_⟩
  · intro s cells rest hagenda
    exact ⟨_, step_of_agenda hagenda, rfl, State.resetStep_hasResetValues _ cells⟩
  · intro cfg fb t hbuilt
    rw [construct_next hbuilt]
    exact ⟨rfl, rfl, State.resetWith_hasResetValues cfg fb⟩
  · intro s contents rest
    refine ⟨Memory.listing contents (cellCount s.cfg), _,
      step_of_agenda (s := { s with agenda := .reset _ :: rest }) rfl, fun a ha => ?_⟩
    exact (if_pos ha).trans (congrArg some (Memory.read_ofCells_listing contents le_rfl ha))

/-! ### The invariant at reset (R206 to R210) -/

/-- The reset state of a valid configuration meets the invariant, whatever cells it lists in canonical form. -/
theorem inv_resetWith {cfg : Config} {fb : Memory} (hvalid : ValidConfig cfg) (hwf : Memory.wf fb)
    (hcells : ∀ e ∈ fb, e.1 < cellCount cfg) : Inv (State.resetWith cfg fb) where
  config := hvalid
  oe := ⟨by simp [State.resetWith], by simp [State.resetWith], fun _ => rfl, fun _ => rfl⟩
  pulse := ⟨by simp [State.resetWith], by simp [State.resetWith]⟩
  flags := ⟨fun _ => ⟨rfl, rfl⟩, by simp [State.resetWith], fun _ => rfl⟩
  counters :=
    { p := hvalid.colorBits.1
      r := Nat.div_pos hvalid.height.1 (by decide)
      c := Nat.zero_le _
      column := fun _ => hvalid.width.1
      hold := by simp [State.resetWith]
      unwired := by simp [State.resetWith] }
  memory := ⟨hwf, hcells⟩

theorem validConfig_sample : ValidConfig Config.sample where
  width := by decide
  height := by decide
  even := by decide
  colorBits := by decide
  nAddr := by decide
  lines := by decide
  gamma := gammaLin_contract 4 (by decide)

/-- Settles O11: the sample configuration is valid, and its block lists no cell. -/
theorem invariantHoldsAtReset : Obligations.InvariantHoldsAtReset := by
  refine ⟨fun cfg fb => inv_resetWith, inv_resetWith validConfig_sample Memory.wf_nil (by simp), ?_⟩
  intro cfg fb t hbuilt
  rw [construct_next hbuilt]
  rfl

/-! ### The pin word (R33) -/

@[simp] theorem wordData_word (pins : Pins) : wordData pins.word = pins.data := by
  simp [wordData, Pins.word, placeBit, BitVec.extractLsb'_or]

@[simp] theorem wordAddr_word (pins : Pins) : wordAddr pins.word = pins.addr := by
  simp [wordAddr, Pins.word, placeBit, BitVec.extractLsb'_or]

@[simp] theorem wordClk_word (pins : Pins) : wordClk pins.word = pins.clk := by
  simp [wordClk, Pins.word]

@[simp] theorem wordLat_word (pins : Pins) : wordLat pins.word = pins.lat := by
  simp [wordLat, Pins.word]

@[simp] theorem wordOe_word (pins : Pins) : wordOe pins.word = pins.oe := by
  simp [wordOe, Pins.word]

/-! ### The CSRs (R36 to R43) -/

/-- The fields of GEOM hold the parameters of a valid configuration without loss (R36). -/
theorem geomWord_fields {cfg : Config} (hvalid : ValidConfig cfg) :
    ((geomWord cfg).extractLsb' 0 16).toNat = cfg.width ∧ ((geomWord cfg).extractLsb' 16 7).toNat = cfg.height
      ∧ ((geomWord cfg).extractLsb' 23 4).toNat = cfg.colorBits
      ∧ ((geomWord cfg).extractLsb' 27 3).toNat = addressBits cfg
      ∧ ((geomWord cfg).extractLsb' 30 3).toNat = cfg.nAddr ∧ (geomWord cfg).getLsbD 33 = cfg.dbuf
      ∧ (geomWord cfg).extractLsb' 34 30 = 0 := by
  obtain ⟨hwidth, hheight, -, hdepth, hlines, hfits, -⟩ := hvalid
  refine ⟨?_, ?_, ?_, ?_, ?_, ?_, ?_⟩
  all_goals simp (disch := omega) [geomWord, place, placeBit, BitVec.extractLsb'_or, Nat.mod_eq_of_lt]

/-- The fields of STATUS (R37, R27). -/
theorem statusWord_fields (s : State) :
    s.statusWord.extractLsb' 0 4 = s.phase.code ∧ s.statusWord.getLsbD 4 = decide (s.phase ≠ .idle)
      ∧ s.statusWord.getLsbD 5 = s.front ∧ s.statusWord.getLsbD 6 = s.swapPending
      ∧ s.statusWord.getLsbD 7 = s.cancelPending ∧ s.statusWord.getLsbD 8 = s.done
      ∧ s.statusWord.getLsbD 9 = s.cancelled ∧ s.statusWord.getLsbD 10 = s.cmderr
      ∧ s.statusWord.getLsbD 11 = s.tmrArmed ∧ s.statusWord.extractLsb' 12 52 = 0 := by
  refine ⟨?_, ?_, ?_, ?_, ?_, ?_, ?_, ?_, ?_, ?_⟩
  all_goals simp [State.statusWord, State.busy, place, placeBit, BitVec.extractLsb'_or]

/-- The fields of POS (R38). -/
theorem posWord_fields (s : State) :
    s.posWord.extractLsb' 0 3 = s.p ∧ s.posWord.extractLsb' 3 5 = s.r ∧ s.posWord.extractLsb' 8 16 = s.c
      ∧ s.posWord.extractLsb' 24 40 = 0 := by
  simp [State.posWord, place, BitVec.extractLsb'_or]

/-- A CSR that shows one register has it in its low bits and zero above (R39 to R41, R43). -/
theorem place_zero_fields {n : Nat} (v : BitVec n) (hfits : n ≤ 64) :
    (place v 0).extractLsb' 0 n = v ∧ (place v 0).extractLsb' n (64 - n) = 0 := by
  simp [place, hfits]

/-- The fields of the CSR that shows the pin word (R42, R33). -/
theorem place_pinsWord_fields (pins : Pins) :
    (place pins.word 0).extractLsb' 0 6 = pins.data ∧ (place pins.word 0).extractLsb' 6 5 = pins.addr
      ∧ (place pins.word 0).getLsbD 11 = pins.clk ∧ (place pins.word 0).getLsbD 12 = pins.lat
      ∧ (place pins.word 0).getLsbD 13 = pins.oe ∧ (place pins.word 0).extractLsb' 14 50 = 0 := by
  refine ⟨?_, ?_, ?_, ?_, ?_, ?_⟩
  · rw [place, extractLsb'_placeIn _ _ (by decide) (by decide)]
    exact wordData_word pins
  · rw [place, extractLsb'_placeIn _ _ (by decide) (by decide)]
    exact wordAddr_word pins
  · exact (getLsbD_place _ _ _).trans (wordClk_word pins)
  · exact (getLsbD_place _ _ _).trans (wordLat_word pins)
  · exact (getLsbD_place _ _ _).trans (wordOe_word pins)
  · simp [place]

/-- Settles O28: each CSR number names one of the words whose fields are said above. -/
theorem csrLayouts : Obligations.CsrLayouts := fun s hvalid =>
  ⟨geomWord_fields hvalid, statusWord_fields s, posWord_fields s, place_zero_fields s.bri (by decide),
    place_zero_fields s.unit (by decide), place_zero_fields s.hold (by decide), place_pinsWord_fields s.pins,
    place_zero_fields s.resp (by decide)⟩

end Sys2Proof.Machine

/-! Settles the family of spec/20_memory.md: who writes the frame buffer, what stays of the scan buffer while a refresh runs, and where
DATA finds no cell or no bitplane. Each layer's lemmas stand before the theorem that uses them. -/

namespace Sys2Proof

/-- The instruction is a host command or the CSR read: no micro-operation. -/
def Instr.ofHost : Instr → Bool
  | .idle | .plane | .blank | .addr | .data | .clkh | .clkl | .lath | .latl | .oeon | .hold | .oeoff => false
  | _ => true

@[simp] theorem Phase.microOp_ofHost (ph : Phase) : ph.microOp.ofHost = false := by
  cases ph <;> rfl

end Sys2Proof

namespace Sys2Proof.Machine

/-! ### What only the host writes (R56) -/

/-- The parts of the state that the sequencer, the timer and time leave alone: BRI, UNIT, RESP, FRONT, SWAP_PENDING, the cells, and the
record of reads. -/
def State.hostWritten (s : State) : BitVec 8 × BitVec 32 × BitVec 25 × Bool × Bool × Memory × List CsrRead :=
  (s.bri, s.unit, s.resp, s.front, s.swapPending, s.fb, s.reads)

theorem State.hostWritten_front {s t : State} (h : t.hostWritten = s.hostWritten) : t.front = s.front :=
  congrArg (fun e => e.2.2.2.1) h

theorem State.hostWritten_fb {s t : State} (h : t.hostWritten = s.hostWritten) : t.fb = s.fb :=
  congrArg (fun e => e.2.2.2.2.2.1) h

/-- No micro-operation writes what is the host's to write. -/
theorem exec_hostWritten {i : Instr} {s t : State} (hi : i.ofHost = false) (h : exec i s = .next t) :
    t.hostWritten = s.hostWritten := by
  cases i with
  | setpx | getpx | clear | swap | setbri | adjbri | setunit | start | cancel | rdcsr => cases hi
  | data =>
    have hrun := (whenPhase_next h).2
    split at hrun
    · split at hrun
      · injection hrun with hrun; subst hrun; rfl
      · cases hrun
    · cases hrun
  | hold =>
    have hrun := (whenPhase_next h).2
    split at hrun
    all_goals injection hrun with hrun; subst hrun; rfl
  | oeoff =>
    have hrun := (whenPhase_next h).2
    repeat' split at hrun
    all_goals injection hrun with hrun; subst hrun; rfl
  | idle | plane | blank | addr | clkh | clkl | lath | latl | oeon =>
    have hrun := (whenPhase_next h).2
    injection hrun with hrun
    subst hrun
    rfl

theorem timerTurn_hostWritten (s : State) : (timerTurn s).hostWritten = s.hostWritten := by
  obtain ⟨-, hrun⟩ | ⟨-, hrun⟩ := timerTurn_cases s
  all_goals rw [hrun]
  rfl

/-- A quiet turn writes nothing of it. -/
theorem takeTurn_hostWritten {τ : Turn} {s t : State} (hquiet : τ.quiet = true) (h : takeTurn τ s = .next t) :
    t.hostWritten = s.hostWritten := by
  cases τ with
  | host | reset => cases hquiet
  | sequencer => exact exec_hostWritten s.phase.microOp_ofHost h
  | timer =>
    injection h with h
    rw [← h, timerTurn_hostWritten]
  | tick =>
    injection h with h
    subst h
    rfl

@[simp] theorem State.nextTurn_hostWritten (s : State) : s.nextTurn.2.hostWritten = s.hostWritten := by
  unfold State.nextTurn
  cases s.agenda <;> rfl

/-- Settles O46: the cells are among what a quiet turn leaves alone. -/
theorem onlyTheHostWritesMemory : Obligations.OnlyTheHostWritesMemory := by
  intro s t h hquiet
  exact State.hostWritten_fb ((takeTurn_hostWritten hquiet h).trans s.nextTurn_hostWritten)

/-! ### What stays while a refresh runs (R57) -/

/-- `t` has the FRONT of `s`, and every cell of `s` outside the draw buffer of `s`. -/
structure SameOutsideDraw (s t : State) : Prop where
  front : t.front = s.front
  cells : ∀ a, ¬(s.draw * npix s.cfg ≤ a ∧ a < (s.draw + 1) * npix s.cfg) → Memory.read t.fb a = Memory.read s.fb a

theorem SameOutsideDraw.of_fb {s t : State} (hfront : t.front = s.front) (hfb : t.fb = s.fb) : SameOutsideDraw s t :=
  ⟨hfront, fun _ _ => by rw [hfb]⟩

/-- Only the configuration, FRONT and the cells of the first state count. -/
theorem SameOutsideDraw.congr {s s' t : State} (h : SameOutsideDraw s' t) (hcfg : s'.cfg = s.cfg)
    (hfront : s'.front = s.front) (hfb : s'.fb = s.fb) : SameOutsideDraw s t := by
  obtain ⟨hfront', hcells⟩ := h
  simp only [State.draw, hcfg, hfb] at hcells
  rw [hfront] at hfront' hcells
  exact ⟨hfront', hcells⟩

/-- A write to an in-range pixel of the draw buffer. -/
theorem SameOutsideDraw.write {s : State} {x y : Int} (hin : inRange s.cfg x y = true) (v : Pixel) :
    SameOutsideDraw s { s with fb := Memory.write s.fb (cellAddr s.cfg s.draw x.toNat y.toNat) v } := by
  obtain ⟨hx, hy⟩ := (inRange_iff s.cfg x y).1 hin
  have hcell := cellAddr_bounds (b := s.draw) (show x.toNat < s.cfg.width by omega) (show y.toNat < s.cfg.height by omega)
  refine ⟨rfl, fun a ha => (Memory.read_write _ _ _ _).trans (if_neg ?_)⟩
  rintro rfl
  exact ha hcell

/-- A fill of the draw buffer. -/
theorem SameOutsideDraw.fillBuffer (s : State) (v : Pixel) : SameOutsideDraw s (s.fillBuffer s.draw v) := by
  refine ⟨rfl, fun a ha => (Memory.read_fill _ _ _ _ _).trans (if_neg ?_)⟩
  rwa [Nat.succ_mul] at ha

/-- While busy, an instruction keeps FRONT and writes no cell outside the draw buffer. -/
theorem exec_sameOutsideDraw {i : Instr} {s t : State} (hbusy : s.phase ≠ .idle) (h : exec i s = .next t) :
    SameOutsideDraw s t := by
  cases i with
  | setpx x y r g b =>
    obtain ⟨hin, hrun⟩ | ⟨-, hrun⟩ := execSetpx_cases x y r g b s
    all_goals rw [exec, hrun] at h; injection h with h; subst h
    · exact .write hin (color r g b)
    · exact .of_fb rfl rfl
  | clear r g b =>
    injection h with h
    subst h
    exact .fillBuffer s (color r g b)
  | getpx x y =>
    obtain ⟨-, hrun⟩ | ⟨-, hrun⟩ := execGetpx_cases x y s
    all_goals rw [exec, hrun] at h; injection h with h; subst h; exact .of_fb rfl rfl
  | swap =>
    rw [exec, execSwap, if_neg hbusy] at h
    split at h
    all_goals injection h with h; subst h; exact .of_fb rfl rfl
  | start =>
    rw [exec, execStart, if_neg hbusy] at h
    injection h with h
    subst h
    exact .of_fb rfl rfl
  | cancel =>
    rw [exec, execCancel, if_neg hbusy] at h
    injection h with h
    subst h
    exact .of_fb rfl rfl
  | setbri | adjbri | setunit | rdcsr =>
    injection h with h
    subst h
    exact .of_fb rfl rfl
  | idle | plane | blank | addr | data | clkh | clkl | lath | latl | oeon | hold | oeoff =>
    have hkept := exec_hostWritten rfl h
    exact .of_fb (State.hostWritten_front hkept) (State.hostWritten_fb hkept)

theorem hostTurn_sameOutsideDraw {s t : State} (hbusy : s.phase ≠ .idle) (h : hostTurn s = .next t) :
    SameOutsideDraw s t := by
  obtain ⟨-, hrun⟩ | ⟨w, i, acts, -, -, hrun⟩ | ⟨w, acts, -, -, hrun⟩ | ⟨n, acts, hrun⟩ := hostTurn_cases s
  all_goals rw [hrun] at h
  · injection h with h
    subst h
    exact .of_fb rfl rfl
  · exact (exec_sameOutsideDraw (s := { s with host := acts }) hbusy h).congr rfl rfl rfl
  · injection h with h
    subst h
    exact .of_fb rfl rfl
  · exact (exec_sameOutsideDraw (s := { s with host := acts }) hbusy h).congr rfl rfl rfl

/-- While busy, no turn but a reset changes FRONT or a cell outside the draw buffer. -/
theorem takeTurn_sameOutsideDraw {τ : Turn} {s t : State} (hrunning : τ.running = true) (hbusy : s.phase ≠ .idle)
    (h : takeTurn τ s = .next t) : SameOutsideDraw s t := by
  cases τ with
  | host => exact hostTurn_sameOutsideDraw hbusy h
  | reset => cases hrunning
  | sequencer | timer | tick =>
    have hkept := takeTurn_hostWritten rfl h
    exact .of_fb (State.hostWritten_front hkept) (State.hostWritten_fb hkept)

@[simp] theorem State.nextTurn_phase (s : State) : s.nextTurn.2.phase = s.phase := by
  unfold State.nextTurn
  cases s.agenda <;> rfl

theorem step_sameOutsideDraw {s t : State} (hrunning : s.nextTurn.1.running = true) (hbusy : s.phase ≠ .idle)
    (h : step s = .next t) : SameOutsideDraw s t := by
  have hturn := takeTurn_sameOutsideDraw hrunning (by rwa [State.nextTurn_phase]) h
  have hkept := s.nextTurn_hostWritten
  exact hturn.congr s.nextTurn_cfg (State.hostWritten_front hkept) (State.hostWritten_fb hkept)

/-- With two buffers, the cells of buffer FRONT are outside the draw buffer (R55). -/
theorem State.scanCell_outside_draw {s : State} {i : Nat} (hdbuf : s.cfg.dbuf = true) (hi : i < npix s.cfg) :
    ¬(s.draw * npix s.cfg ≤ s.scan * npix s.cfg + i ∧ s.scan * npix s.cfg + i < (s.draw + 1) * npix s.cfg) := by
  rw [State.draw, if_pos hdbuf, State.scan]
  cases s.front
  all_goals
    simp only [Bool.toNat_false, Bool.toNat_true]
    omega

/-- Settles O45: a busy step that is no reset writes at most the draw buffer, which is not the scan buffer. -/
theorem scanBufferIsASnapshot : Obligations.ScanBufferIsASnapshot := by
  intro s t h hrunning hdbuf hbusy
  obtain ⟨hfront, hcells⟩ := step_sameOutsideDraw hrunning hbusy h
  exact ⟨hfront, fun i hi => hcells _ (State.scanCell_outside_draw hdbuf hi)⟩

/-! ### Where DATA stops (R52, R54, R93, R115) -/

/-- Only an in-range pixel of a buffer that exists has contents. -/
theorem State.pixelAt_eq_some {s : State} {b : Nat} {x y : Int} {v : Pixel} (h : s.pixelAt b x y = some v) :
    (0 ≤ x ∧ x < s.cfg.width) ∧ (0 ≤ y ∧ y < s.cfg.height) ∧ b < nbuf s.cfg := by
  obtain ⟨a, hcell, hread⟩ := Option.bind_eq_some_iff.1 h
  obtain ⟨hx, hy, rfl, -⟩ := pixelCell_eq_some hcell
  refine ⟨hx, hy, ?_⟩
  by_contra hb
  have hlow := (cellAddr_bounds (b := b) (show x.toNat < s.cfg.width by omega) (show y.toNat < s.cfg.height by omega)).1
  have hall : cellCount s.cfg ≤ b * npix s.cfg := Nat.mul_le_mul_right _ (Nat.le_of_not_lt hb)
  rw [State.memRead, if_neg (by omega)] at hread
  cases hread

/-- DATA where one of its two cells does not exist. -/
theorem execData_of_noCell {s : State} (hphase : s.phase = .data)
    (hcell : ∀ up lo, s.pixelAt s.scan s.c.toNat s.r.toNat = some up →
      s.pixelAt s.scan s.c.toNat (s.r.toNat + rows s.cfg : Nat) ≠ some lo) :
    execData s = .fault .noSuchCell := by
  rw [execData, whenPhase_of_eq hphase]
  split
  · next up lo hup hlo => exact absurd hlo (hcell up lo hup)
  · rfl

/-- DATA where both cells exist and the bitplane does not. -/
theorem execData_of_noPlane {s : State} {up lo : Pixel} (hphase : s.phase = .data)
    (hup : s.pixelAt s.scan s.c.toNat s.r.toNat = some up)
    (hlo : s.pixelAt s.scan s.c.toNat (s.r.toNat + rows s.cfg : Nat) = some lo) (hplane : s.cfg.colorBits ≤ s.p.toNat) :
    execData s = .fault .noSuchPlane := by
  rw [execData, whenPhase_of_eq hphase, hup, hlo]
  exact dif_neg (Nat.not_lt.2 hplane)

/-- Settles O39: two pixels that are both there are inside the panel, in a buffer that exists. -/
theorem dataStopsWhereNoCellExists : Obligations.DataStopsWhereNoCellExists := by
  constructor
  · intro s hphase hmissing
    refine execData_of_noCell hphase fun up lo hup hlo => ?_
    obtain ⟨⟨-, hx⟩, -, hbuf⟩ := State.pixelAt_eq_some hup
    obtain ⟨-, ⟨-, hy⟩, -⟩ := State.pixelAt_eq_some hlo
    obtain hwidth | hheight | ⟨hdbuf, hfront⟩ := hmissing
    · omega
    · rw [rows] at hy
      omega
    · simp [State.scan, nbuf, hdbuf, hfront] at hbuf
  · intro s hphase hx hy hfront hplane
    exact execData_of_noPlane hphase (State.pixelAt_scan hfront hx (by omega))
      (State.pixelAt_scan hfront hx (by rw [rows]; omega)) hplane

end Sys2Proof.Machine

/-! Settles the family of spec/30_encoding.md: decoder and encoder undo each other, the decoder agrees with the table of match and mask
values, the worked encodings, the assembler, the polling directives and the placed word. Each layer's lemmas stand before the theorem
that uses them. -/

namespace Sys2Proof

/-! ### What the decoder reads, one opcode at a time (R72 to R77) -/

section
variable {w : Word}

theorem decodeCommand_of_setpx (hop : opField w = 0x01#8) :
    decodeCommand w = some (.setpx (xField w) (yField w) (rField w) (gField w) (bField w)) := by
  rw [decodeCommand, hop]
  rfl

theorem decodeCommand_of_getpx (hop : opField w = 0x02#8) :
    decodeCommand w = if w.extractLsb' 0 24 = 0#24 then some (.getpx (xField w) (yField w)) else none := by
  rw [decodeCommand, hop]
  rfl

theorem decodeCommand_of_clear (hop : opField w = 0x03#8) :
    decodeCommand w
      = if w.extractLsb' 24 32 = 0#32 then some (.clear (rField w) (gField w) (bField w)) else none := by
  rw [decodeCommand, hop]
  rfl

theorem decodeCommand_of_swap (hop : opField w = 0x04#8) :
    decodeCommand w = if w.extractLsb' 0 56 = 0#56 then some .swap else none := by
  rw [decodeCommand, hop]
  rfl

theorem decodeCommand_of_setbri (hop : opField w = 0x10#8) :
    decodeCommand w = if w.extractLsb' 8 48 = 0#48 then some (.setbri (w.extractLsb' 0 8)) else none := by
  rw [decodeCommand, hop]
  rfl

theorem decodeCommand_of_adjbri (hop : opField w = 0x11#8) :
    decodeCommand w = if w.extractLsb' 32 24 = 0#24 then some (.adjbri (immField w).toInt) else none := by
  rw [decodeCommand, hop]
  rfl

theorem decodeCommand_of_setunit (hop : opField w = 0x12#8) :
    decodeCommand w = if w.extractLsb' 32 24 = 0#24 then some (.setunit (immField w)) else none := by
  rw [decodeCommand, hop]
  rfl

theorem decodeCommand_of_start (hop : opField w = 0x20#8) :
    decodeCommand w = if w.extractLsb' 0 56 = 0#56 then some .start else none := by
  rw [decodeCommand, hop]
  rfl

theorem decodeCommand_of_cancel (hop : opField w = 0x21#8) :
    decodeCommand w = if w.extractLsb' 0 56 = 0#56 then some .cancel else none := by
  rw [decodeCommand, hop]
  rfl

end

/-- The opcodes of the table (R77). -/
def assignedOps : List (BitVec 8) := commandRows.map fun row => opField row.pattern

theorem assignedOps_eq :
    assignedOps = [0x01#8, 0x02#8, 0x03#8, 0x04#8, 0x10#8, 0x11#8, 0x12#8, 0x20#8, 0x21#8] := rfl

/-- The opcode of a word is one of the nine, or unassigned. -/
theorem opField_cases (w : Word) :
    opField w = 0x01#8 ∨ opField w = 0x02#8 ∨ opField w = 0x03#8 ∨ opField w = 0x04#8 ∨ opField w = 0x10#8
      ∨ opField w = 0x11#8 ∨ opField w = 0x12#8 ∨ opField w = 0x20#8 ∨ opField w = 0x21#8
      ∨ opField w ∉ assignedOps := by
  rw [assignedOps_eq]
  simp only [List.mem_cons, List.not_mem_nil, or_false]
  tauto

/-- A word with an unassigned opcode is illegal (R79). -/
theorem decodeCommand_of_unassigned {w : Word} (hop : opField w ∉ assignedOps) : decodeCommand w = none := by
  simp only [assignedOps_eq, List.mem_cons, List.not_mem_nil, or_false, not_or] at hop
  obtain ⟨h1, h2, h3, h4, h5, h6, h7, h8, h9⟩ := hop
  rw [decodeCommand, if_neg h1, if_neg h2, if_neg h3, if_neg h4, if_neg h5, if_neg h6, if_neg h7, if_neg h8, if_neg h9]

/-! ### Decoding an encoding (R71 to R78) -/

section
variable (op : BitVec 8) (y x : BitVec 16) (r g b : Byte) (imm : BitVec 32)

@[simp] theorem opField_formatP : opField (formatP op y x r g b) = op := by
  obtain ⟨hop, -⟩ := formatP_fields op y x r g b
  exact hop

@[simp] theorem yField_formatP : yField (formatP op y x r g b) = y.toInt := by
  obtain ⟨-, hy, -⟩ := formatP_fields op y x r g b
  exact congrArg BitVec.toInt hy

@[simp] theorem xField_formatP : xField (formatP op y x r g b) = x.toInt := by
  obtain ⟨-, -, hx, -⟩ := formatP_fields op y x r g b
  exact congrArg BitVec.toInt hx

@[simp] theorem rField_formatP : rField (formatP op y x r g b) = r := by
  obtain ⟨-, -, -, hr, -⟩ := formatP_fields op y x r g b
  exact hr

@[simp] theorem gField_formatP : gField (formatP op y x r g b) = g := by
  obtain ⟨-, -, -, -, hg, -⟩ := formatP_fields op y x r g b
  exact hg

@[simp] theorem bField_formatP : bField (formatP op y x r g b) = b := by
  obtain ⟨-, -, -, -, -, hb⟩ := formatP_fields op y x r g b
  exact hb

@[simp] theorem opField_formatV : opField (formatV op imm) = op := (formatV_fields op imm).1

@[simp] theorem reserved_formatV : (formatV op imm).extractLsb' 32 24 = 0#24 := (formatV_fields op imm).2.1

@[simp] theorem immField_formatV : immField (formatV op imm) = imm := (formatV_fields op imm).2.2

@[simp] theorem opField_formatN : opField (formatN op) = op := (formatN_fields op).1

@[simp] theorem reserved_formatN : (formatN op).extractLsb' 0 56 = 0#56 := (formatN_fields op).2

end

@[simp] theorem placeIn_zero (m n pos : Nat) : placeIn m 0#n pos = 0 := by
  simp [placeIn]

/-- A pixel format word without a colour has its colour bits 0 (R72). -/
theorem formatP_noColour (op : BitVec 8) (y x : BitVec 16) : (formatP op y x 0#8 0#8 0#8).extractLsb' 0 24 = 0#24 := by
  simp [formatP, place, BitVec.extractLsb'_or]

/-- A pixel format word without coordinates has its coordinate bits 0 (R72). -/
theorem formatP_noPosition (op : BitVec 8) (r g b : Byte) : (formatP op 0#16 0#16 r g b).extractLsb' 24 32 = 0#32 := by
  simp [formatP, place, BitVec.extractLsb'_or]

/-- A value format word whose immediate is a byte holds that byte, and 0 in every bit up to the opcode (R73). -/
theorem formatV_byte (op : BitVec 8) (v : Byte) :
    (formatV op (v.setWidth 32)).extractLsb' 8 48 = 0 ∧ (formatV op (v.setWidth 32)).extractLsb' 0 8 = v := by
  have hplace : place (v.setWidth 32) 0 = place v 0 := by simp [place, placeIn]
  rw [formatV, hplace]
  simp [place, BitVec.extractLsb'_or]

/-- Settles O4: the fields of the formatted word are the operands, and the reserved bits are 0. -/
theorem decodeOfEncode : Obligations.DecodeOfEncode := by
  intro i hwf
  cases i with
  | setpx x y r g b =>
    obtain ⟨hx, hy⟩ : coordFits x = true ∧ coordFits y = true := by simpa [Instr.wellFormed] using hwf
    simp [encode, decode, decodeCommand_of_setpx, toInt_ofInt_of_coordFits hx, toInt_ofInt_of_coordFits hy]
  | getpx x y =>
    obtain ⟨hx, hy⟩ : coordFits x = true ∧ coordFits y = true := by simpa [Instr.wellFormed] using hwf
    simp [encode, decode, decodeCommand_of_getpx, formatP_noColour, toInt_ofInt_of_coordFits hx,
      toInt_ofInt_of_coordFits hy]
  | clear r g b => simp [encode, decode, decodeCommand_of_clear, formatP_noPosition]
  | swap => exact (decodeCommand_of_swap (opField_formatN _)).trans (if_pos (reserved_formatN _))
  | setbri level => simp [encode, decode, decodeCommand_of_setbri, formatV_byte]
  | adjbri delta => simp [encode, decode, decodeCommand_of_adjbri, toInt_ofInt_of_deltaFits hwf]
  | setunit ticks => simp [encode, decode, decodeCommand_of_setunit]
  | start => exact (decodeCommand_of_start (opField_formatN _)).trans (if_pos (reserved_formatN _))
  | cancel => exact (decodeCommand_of_cancel (opField_formatN _)).trans (if_pos (reserved_formatN _))
  | rdcsr n => rfl
  | idle => rfl
  | plane => rfl
  | blank => rfl
  | addr => rfl
  | data => rfl
  | clkh => rfl
  | clkl => rfl
  | lath => rfl
  | latl => rfl
  | oeon => rfl
  | hold => rfl
  | oeoff => rfl

/-! ### Encoding what was decoded (R72 to R74, R77) -/

/-- Two adjacent fields of a word, each in its place, are the field that they make up. -/
theorem place_extractLsb'_or (w : Word) (lo m n : Nat) :
    place (w.extractLsb' (lo + m) n) (lo + m) ||| place (w.extractLsb' lo m) lo = place (w.extractLsb' lo (m + n)) lo := by
  apply BitVec.eq_of_getLsbD_eq
  intro i hi
  have hfields : ∀ pos len, (place (w.extractLsb' pos len) pos).getLsbD i
      = (decide (pos ≤ i ∧ i < pos + len) && w.getLsbD i) := by
    intro pos len
    by_cases hpos : pos ≤ i
    · simp [hpos, hi, show i - pos < len ↔ i < pos + len by omega]
    · simp [hpos]
  rw [BitVec.getLsbD_or, hfields, hfields, hfields, ← Bool.and_or_distrib_right, ← Bool.decide_or]
  congr 2
  apply propext
  omega

/-- Every bit of a field of zeros is zero. -/
theorem getLsbD_of_extractLsb'_zero {w : Word} {lo len i : Nat} (hzero : w.extractLsb' lo len = 0) (hlo : lo ≤ i)
    (hhi : i < lo + len) : w.getLsbD i = false := by
  have hbit := congrArg (BitVec.getLsbD · (i - lo)) hzero
  simpa [show i - lo < len by omega, show lo + (i - lo) = i by omega] using hbit

/-- A part of a field of zeros is zero. -/
theorem extractLsb'_of_zero {w : Word} {lo len lo' len' : Nat} (hzero : w.extractLsb' lo len = 0) (hlo : lo ≤ lo')
    (hhi : lo' + len' ≤ lo + len) : w.extractLsb' lo' len' = 0 := by
  apply BitVec.eq_of_getLsbD_eq
  intro i hi
  simp [hi, getLsbD_of_extractLsb'_zero hzero (show lo ≤ lo' + i by omega) (by omega)]

/-- The fields of a word, in format P, give the word (R72). -/
theorem formatP_of_fields (w : Word) :
    formatP (opField w) (w.extractLsb' 40 16) (w.extractLsb' 24 16) (rField w) (gField w) (bField w) = w := by
  rw [formatP, opField, place_extractLsb'_or w 40 16 8, place_extractLsb'_or w 24 16 24, rField,
    place_extractLsb'_or w 16 8 40, gField, place_extractLsb'_or w 8 8 48, bField, place_extractLsb'_or w 0 8 56]
  simp [place, placeIn]

/-- The opcode and the coordinates of a word whose colour bits are 0 give the word. -/
theorem formatP_of_position {w : Word} (hres : w.extractLsb' 0 24 = 0#24) :
    formatP (opField w) (w.extractLsb' 40 16) (w.extractLsb' 24 16) 0 0 0 = w := by
  have hr : rField w = 0 := extractLsb'_of_zero hres (by decide) (by decide)
  have hg : gField w = 0 := extractLsb'_of_zero hres (by decide) (by decide)
  have hb : bField w = 0 := extractLsb'_of_zero hres (by decide) (by decide)
  simpa only [hr, hg, hb] using formatP_of_fields w

/-- The opcode and the colour of a word whose coordinate bits are 0 give the word. -/
theorem formatP_of_colour {w : Word} (hres : w.extractLsb' 24 32 = 0#32) :
    formatP (opField w) 0 0 (rField w) (gField w) (bField w) = w := by
  have hy : w.extractLsb' 40 16 = 0 := extractLsb'_of_zero hres (by decide) (by decide)
  have hx : w.extractLsb' 24 16 = 0 := extractLsb'_of_zero hres (by decide) (by decide)
  simpa only [hy, hx] using formatP_of_fields w

/-- The opcode and the immediate of a word whose other bits are 0, in format V, give the word (R73). -/
theorem formatV_of_fields {w : Word} (hres : w.extractLsb' 32 24 = 0#24) : formatV (opField w) (immField w) = w := by
  have hhigh : place (opField w) 56 = place (w.extractLsb' 32 32) 32 := by
    rw [opField, ← place_extractLsb'_or w 32 24 8, hres]
    simp [place]
  rw [formatV, hhigh, immField, place_extractLsb'_or w 0 32 32]
  simp [place, placeIn]

/-- The opcode of a word whose other bits are 0, in format N, gives the word (R74). -/
theorem formatN_of_fields {w : Word} (hres : w.extractLsb' 0 56 = 0#56) : formatN (opField w) = w := by
  have hword : place (opField w) 56 ||| place (w.extractLsb' 0 56) 0 = w := by
    rw [opField, place_extractLsb'_or w 0 56 8]
    simp [place, placeIn]
  simpa [formatN, hres, place] using hword

/-- A 16-bit field comes back from the coordinate it is read as. -/
theorem ofInt_yField (w : Word) : BitVec.ofInt 16 (yField w) = w.extractLsb' 40 16 := BitVec.ofInt_toInt

theorem ofInt_xField (w : Word) : BitVec.ofInt 16 (xField w) = w.extractLsb' 24 16 := BitVec.ofInt_toInt

/-- The immediate of a word whose bits 31:8 are 0 is its low byte (R73). -/
theorem setWidth_lowByte {w : Word} (hres : w.extractLsb' 8 48 = 0#48) :
    (w.extractLsb' 0 8).setWidth 32 = immField w := by
  apply BitVec.eq_of_getLsbD_eq
  intro i hi
  by_cases hbyte : i < 8
  · simp [immField, hi, hbyte]
  · simp [immField, hi, hbyte, getLsbD_of_extractLsb'_zero hres (show 8 ≤ i by omega) (by omega)]

/-- A command that is decoded only where its reserved bits pass a check has to encode to the word only where they do. -/
theorem encode_of_checked {c : Prop} [Decidable c] {w : Word} {i j : Instr}
    (h : (if c then some j else none) = some i) (henc : c → encode j = .command w) : encode i = .command w := by
  obtain ⟨hc, rfl⟩ := by simpa using h
  exact henc hc

/-- A legal command word is the encoding of its command: its opcode, its operands, and zeros. -/
theorem encode_of_decodeCommand {w : Word} {i : Instr} (h : decodeCommand w = some i) : encode i = .command w := by
  obtain hop | hop | hop | hop | hop | hop | hop | hop | hop | hop := opField_cases w
  · obtain rfl := Option.some.inj ((decodeCommand_of_setpx hop).symm.trans h)
    rw [encode, ← hop, ofInt_yField, ofInt_xField, formatP_of_fields]
  · refine encode_of_checked ((decodeCommand_of_getpx hop).symm.trans h) fun hres => ?_
    rw [encode, ← hop, ofInt_yField, ofInt_xField, formatP_of_position hres]
  · refine encode_of_checked ((decodeCommand_of_clear hop).symm.trans h) fun hres => ?_
    rw [encode, ← hop, formatP_of_colour hres]
  · refine encode_of_checked ((decodeCommand_of_swap hop).symm.trans h) fun hres => ?_
    rw [encode, ← hop, formatN_of_fields hres]
  · refine encode_of_checked ((decodeCommand_of_setbri hop).symm.trans h) fun hres => ?_
    rw [encode, ← hop, setWidth_lowByte hres, formatV_of_fields (extractLsb'_of_zero hres (by decide) (by decide))]
  · refine encode_of_checked ((decodeCommand_of_adjbri hop).symm.trans h) fun hres => ?_
    rw [encode, ← hop, BitVec.ofInt_toInt, formatV_of_fields hres]
  · refine encode_of_checked ((decodeCommand_of_setunit hop).symm.trans h) fun hres => ?_
    rw [encode, ← hop, formatV_of_fields hres]
  · refine encode_of_checked ((decodeCommand_of_start hop).symm.trans h) fun hres => ?_
    rw [encode, ← hop, formatN_of_fields hres]
  · refine encode_of_checked ((decodeCommand_of_cancel hop).symm.trans h) fun hres => ?_
    rw [encode, ← hop, formatN_of_fields hres]
  · cases (decodeCommand_of_unassigned hop).symm.trans h

/-- Settles O5: a legal command word is the word of its format, and a phase code is its phase's. -/
theorem encodeOfDecode : Obligations.EncodeOfDecode := by
  intro code i h
  cases code with
  | command w => exact encode_of_decodeCommand h
  | csr n =>
    obtain rfl := Option.some.inj h
    rfl
  | phase c =>
    obtain ⟨ph, hph, rfl⟩ := Option.map_eq_some_iff.1 h
    rw [Phase.code_of_ofCode hph]
    cases ph <;> rfl

/-! ### The table of match and mask values (R77) -/

/-- Every mask covers the opcode, so a word that matches a row has the row's opcode. -/
theorem opField_of_matches {row : CommandRow} (hrow : row ∈ commandRows) {w : Word} (h : row.matches w = true) :
    opField w = opField row.pattern := by
  have hmask : ∀ row ∈ commandRows, opField row.mask = BitVec.allOnes 8 := by decide
  have hand : w &&& row.mask = row.pattern := of_decide_eq_true h
  calc opField w = opField w &&& opField row.mask := by rw [hmask row hrow, BitVec.and_allOnes]
    _ = opField (w &&& row.mask) := BitVec.extractLsb'_and.symm
    _ = opField row.pattern := by rw [hand]

theorem assignedOps_nodup : assignedOps.Nodup := by decide

/-- The only row that a word can match is the one of its opcode. -/
theorem find?_matches {row : CommandRow} (hrow : row ∈ commandRows) {w : Word} (hop : opField w = opField row.pattern) :
    (commandRows.find? fun r => r.matches w) = if row.matches w = true then some row else none := by
  cases hfind : commandRows.find? fun r => r.matches w with
  | none => rw [if_neg (List.find?_eq_none.1 hfind row hrow)]
  | some r =>
    have hr : r.matches w = true := List.find?_some (p := fun r : CommandRow => r.matches w) hfind
    have hmem := List.mem_of_find?_eq_some hfind
    obtain rfl := List.inj_on_of_nodup_map assignedOps_nodup hmem hrow ((opField_of_matches hmem hr).symm.trans hop)
    rw [if_pos hr]

/-- A word with the opcode of a row matches it exactly when the row's reserved bits, `len` bits from `lo`, are 0. -/
theorem matches_iff {row : CommandRow} {w : Word} {lo len : Nat} (hfits : lo + len ≤ 56)
    (hpattern : row.pattern = place (opField w) 56)
    (hmask : row.mask = place (BitVec.allOnes 8) 56 ||| place (BitVec.allOnes len) lo) :
    row.matches w = true ↔ w.extractLsb' lo len = 0 := by
  rw [CommandRow.matches, decide_eq_true_iff, hpattern, hmask]
  constructor
  · intro h
    have hfield := congrArg (BitVec.extractLsb' lo len) h
    simpa [place, BitVec.extractLsb'_and, BitVec.extractLsb'_or, hfits, show lo + len ≤ 64 by omega] using hfield
  · intro hzero
    apply BitVec.eq_of_getLsbD_eq
    intro i hi
    by_cases hop : 56 ≤ i
    · simp [-BitVec.reduceAllOnes, opField, hop, hi, show i - 56 < 8 by omega]
    · by_cases hin : lo ≤ i ∧ i < lo + len
      · simp [hop, getLsbD_of_extractLsb'_zero hzero hin.1 hin.2]
      · simp [hop, hi]
        omega

/-- Where the decoder checks the bits that the row of the opcode masks, and names the row's command, decoder and table agree. -/
theorem decoder_agrees_with_row {w : Word} {op : BitVec 8} {lo len : Nat} {i : Instr} (hop : opField w = op)
    (hdecode : decodeCommand w = if w.extractLsb' lo len = 0 then some i else none) {row : CommandRow}
    (hrow : row ∈ commandRows) (hfits : lo + len ≤ 56) (hpattern : row.pattern = place op 56)
    (hmask : row.mask = place (BitVec.allOnes 8) 56 ||| place (BitVec.allOnes len) lo)
    (hname : i.mnemonic = row.mnemonic) :
    (decodeCommand w).map Instr.mnemonic
      = (commandRows.find? fun r => r.matches w).map CommandRow.mnemonic := by
  subst hop
  have hopRow : opField row.pattern = opField w := by simp [hpattern, opField, place]
  rw [hdecode, find?_matches hrow hopRow.symm, if_congr (matches_iff hfits hpattern hmask) rfl rfl]
  split
  · exact congrArg some hname
  · rfl

/-- Settles O3: opcode by opcode, the reserved bits the decoder checks are those of the row's mask; and two rows have two opcodes. -/
theorem decoderAgreesWithMatchMaskTable : Obligations.DecoderAgreesWithMatchMaskTable := by
  constructor
  · intro w
    obtain hop | hop | hop | hop | hop | hop | hop | hop | hop | hop := opField_cases w
    · exact decoder_agrees_with_row (lo := 0) (len := 0) hop
        ((decodeCommand_of_setpx hop).trans (if_pos BitVec.of_length_zero).symm)
        (row := commandRows[0]) (List.getElem_mem _) (by decide) rfl rfl rfl
    · exact decoder_agrees_with_row hop (decodeCommand_of_getpx hop)
        (row := commandRows[1]) (List.getElem_mem _) (by decide) rfl rfl rfl
    · exact decoder_agrees_with_row hop (decodeCommand_of_clear hop)
        (row := commandRows[2]) (List.getElem_mem _) (by decide) rfl rfl rfl
    · exact decoder_agrees_with_row hop (decodeCommand_of_swap hop)
        (row := commandRows[3]) (List.getElem_mem _) (by decide) rfl rfl rfl
    · exact decoder_agrees_with_row hop (decodeCommand_of_setbri hop)
        (row := commandRows[4]) (List.getElem_mem _) (by decide) rfl rfl rfl
    · exact decoder_agrees_with_row hop (decodeCommand_of_adjbri hop)
        (row := commandRows[5]) (List.getElem_mem _) (by decide) rfl rfl rfl
    · exact decoder_agrees_with_row hop (decodeCommand_of_setunit hop)
        (row := commandRows[6]) (List.getElem_mem _) (by decide) rfl rfl rfl
    · exact decoder_agrees_with_row hop (decodeCommand_of_start hop)
        (row := commandRows[7]) (List.getElem_mem _) (by decide) rfl rfl rfl
    · exact decoder_agrees_with_row hop (decodeCommand_of_cancel hop)
        (row := commandRows[8]) (List.getElem_mem _) (by decide) rfl rfl rfl
    · have hnone : (commandRows.find? fun r => r.matches w) = none :=
        List.find?_eq_none.2 fun row hrow hmatches =>
          hop (List.mem_map.2 ⟨row, hrow, (opField_of_matches hrow hmatches).symm⟩)
      rw [decodeCommand_of_unassigned hop, hnone]
      rfl
  · refine (List.pairwise_map.1 assignedOps_nodup).imp_of_mem fun ha hb hne w hboth => hne ?_
    exact (opField_of_matches ha hboth.1).symm.trans (opField_of_matches hb hboth.2)

/-! ### The worked encodings, the phase codes and the CSR numbers (R84, R78, R79, R81) -/

/-- Settles O1: the decoder is run on the words; the encoder's side follows from O5. -/
theorem workedEncodingsDecode : Obligations.WorkedEncodingsDecode := by
  constructor
  · intro e he
    have hdecode : decodeCommand e.2 = some e.1 := by
      revert e
      simp only [List.forall_mem_cons]
      exact ⟨rfl, rfl, rfl, rfl, rfl, rfl, rfl, rfl, rfl, rfl, rfl, by simp⟩
    exact ⟨encode_of_decodeCommand hdecode, hdecode⟩
  · simp only [List.forall_mem_cons]
    exact ⟨rfl, rfl, rfl, rfl, rfl, by simp⟩

/-- Settles O2: the sixteen phase codes are run; a CSR number is never refused. -/
theorem phaseCodesAndCsrNumbersDecode : Obligations.PhaseCodesAndCsrNumbersDecode :=
  ⟨by decide, fun _ => rfl⟩

/-! ### Operand ranges and phase codes (R76, R78) -/

theorem wellFormed_adjbri {v : Int} (hlo : -2147483648 ≤ v) (hhi : v ≤ 2147483647) :
    (Instr.adjbri v).wellFormed = true := by
  simp [Instr.wellFormed, deltaFits, hlo, hhi]

theorem Phase.code_inj {ph ph' : Phase} : ph.code = ph'.code ↔ ph = ph' := by
  constructor
  · intro h
    have hcode := Phase.ofCode_code ph
    rw [h, Phase.ofCode_code] at hcode
    exact (Option.some.inj hcode).symm
  · exact congrArg Phase.code

theorem Phase.code_toNat_lt (ph : Phase) : ph.code.toNat < 12 := by
  cases ph <;> decide

/-- A phase code of the table is read as that phase code (log entry 9). -/
theorem tableCode_phase (ph : Phase) : tableCode 8 ph.code.toNat = some (.phase ph.code) := by
  rw [tableCode, if_neg (by decide), if_pos (Phase.code_toNat_lt ph), BitVec.ofNat_toNat, BitVec.setWidth_eq]

end Sys2Proof

namespace Sys2Proof.Machine

/-! ### The assembler (R82, R83) -/

/-- Every command word among the acts decodes to a command. -/
def LegalActs (acts : List HostAct) : Prop := ∀ w, .command w ∈ acts → ∃ i, decodeCommand w = some i

/-- Whatever a form assembles to, its command words are legal. -/
def LegalForm (form : Option (List HostAct)) : Prop := ∀ acts, form = some acts → LegalActs acts

theorem LegalActs.append {acts more : List HostAct} (h : LegalActs acts) (hmore : LegalActs more) :
    LegalActs (acts ++ more) := by
  intro w hw
  exact (List.mem_append.1 hw).elim (h w) (hmore w)

/-- A well-formed instruction is issued by a legal word, if by a word at all. -/
theorem legalActs_issue {i : Instr} (hwf : i.wellFormed = true) : LegalActs (issue i) := by
  intro w hw
  have hdecode := decodeOfEncode i hwf
  unfold issue at hw
  cases henc : encode i with
  | command v =>
    rw [henc] at hw hdecode
    obtain rfl : w = v := by simpa using hw
    exact ⟨i, hdecode⟩
  | csr n => simp [henc] at hw
  | phase c => simp [henc] at hw

theorem legalForm_none : LegalForm none := fun _ h => nomatch h

theorem legalForm_some {acts : List HostAct} (h : LegalActs acts) : LegalForm (some acts) := by
  intro _ hacts
  exact Option.some.inj hacts ▸ h

/-- A form that goes on with an operand is legal if it is so with every value the operand can take. -/
theorem LegalForm.bind {α : Type} {o : Option α} {f : α → Option (List HostAct)} (h : ∀ v, o = some v → LegalForm (f v)) :
    LegalForm (o.bind f) := by
  intro acts hacts
  obtain ⟨v, hv, hf⟩ := Option.bind_eq_some_iff.1 hacts
  exact h v hv acts hf

theorem LegalForm.map {α : Type} {o : Option α} {f : α → List HostAct} (h : ∀ v, o = some v → LegalActs (f v)) :
    LegalForm (o.map f) := by
  intro acts hacts
  obtain ⟨v, hv, rfl⟩ := Option.map_eq_some_iff.1 hacts
  exact h v hv

/-- An operand that is accepted is in its range. -/
theorem operand_range {lo hi v : Int} {cs : List Char} (h : operand lo hi cs = some v) : lo ≤ v ∧ v ≤ hi := by
  obtain ⟨u, -, hu⟩ := Option.bind_eq_some_iff.1 h
  unfold ranged at hu
  split at hu
  · next hrange => exact Option.some.inj hu ▸ hrange
  · cases hu

theorem coordOperand_fits {v : Int} {cs : List Char} (h : coordOperand cs = some v) : coordFits v = true := by
  have hrange := operand_range h
  simp [coordFits, hrange]

theorem legalForm_asmSetpx (ops : List (List Char)) : LegalForm (asmSetpx ops) := by
  unfold asmSetpx
  split
  · refine .bind fun x hx => .bind fun y hy => .bind fun r _ => .bind fun g _ => .bind fun b _ =>
      legalForm_some (legalActs_issue ?_)
    rw [Instr.wellFormed, coordOperand_fits hx, coordOperand_fits hy]
    rfl
  · exact legalForm_none

theorem legalForm_asmGetpx (ops : List (List Char)) : LegalForm (asmGetpx ops) := by
  unfold asmGetpx
  split
  · refine .bind fun x hx => .bind fun y hy => legalForm_some (legalActs_issue ?_)
    rw [Instr.wellFormed, coordOperand_fits hx, coordOperand_fits hy]
    rfl
  · exact legalForm_none

theorem legalForm_asmClear (ops : List (List Char)) : LegalForm (asmClear ops) := by
  unfold asmClear
  split
  · exact .bind fun r _ => .bind fun g _ => .bind fun b _ => legalForm_some (legalActs_issue rfl)
  · exact legalForm_none

/-- A form of one operand is legal if its instruction is well formed in the whole range of the operand. -/
theorem legalForm_asmOne {lo hi : Int} {f : Int → Instr} (hwf : ∀ v, lo ≤ v → v ≤ hi → (f v).wellFormed = true)
    (ops : List (List Char)) : LegalForm (asmOne lo hi f ops) := by
  unfold asmOne
  split
  · refine .map fun v hv => legalActs_issue ?_
    obtain ⟨hlo, hhi⟩ := operand_range hv
    exact hwf v hlo hhi
  · exact legalForm_none

theorem legalForm_asmRdcsr (ops : List (List Char)) : LegalForm (asmRdcsr ops) := by
  unfold asmRdcsr
  split
  · exact .map fun n _ => legalActs_issue rfl
  · exact legalForm_none

/-- The directives have no encoding. -/
theorem legalActs_waitIdle : LegalActs [.waitIdle] := by
  simp [LegalActs]

theorem legalForm_asmWaitphase (ops : List (List Char)) : LegalForm (asmWaitphase ops) := by
  unfold asmWaitphase
  split
  · exact .map fun ph _ => by simp [LegalActs]
  · exact legalForm_none

theorem legalForm_asmNone {acts : List HostAct} (h : LegalActs acts) (ops : List (List Char)) :
    LegalForm (asmNone acts ops) := by
  unfold asmNone
  split
  · exact legalForm_some h
  · exact legalForm_none

/-- Every form of the tables of R82 and R83 is legal. -/
theorem legalForm_assembleForm (m : List Char) (ops : List (List Char)) : LegalForm (assembleForm m ops) := by
  unfold assembleForm
  refine iteInduction (fun _ => legalForm_asmSetpx ops) fun _ => ?_
  refine iteInduction (fun _ => legalForm_asmGetpx ops) fun _ => ?_
  refine iteInduction (fun _ => legalForm_asmClear ops) fun _ => ?_
  refine iteInduction (fun _ => legalForm_asmNone (legalActs_issue rfl) ops) fun _ => ?_
  refine iteInduction (fun _ => legalForm_asmOne (fun _ _ _ => rfl) ops) fun _ => ?_
  refine iteInduction (fun _ => legalForm_asmOne (fun _ => wellFormed_adjbri) ops) fun _ => ?_
  refine iteInduction (fun _ => legalForm_asmOne (fun _ _ _ => rfl) ops) fun _ => ?_
  refine iteInduction (fun _ => legalForm_asmNone (legalActs_issue rfl) ops) fun _ => ?_
  refine iteInduction (fun _ => legalForm_asmNone (legalActs_issue rfl) ops) fun _ => ?_
  refine iteInduction (fun _ => legalForm_asmRdcsr ops) fun _ => ?_
  refine iteInduction (fun _ => legalForm_asmOne (fun n _ _ => wellFormed_adjbri (v := n) (by omega) (by omega)) ops) fun _ => ?_
  refine iteInduction (fun _ => legalForm_asmOne (fun n _ _ => wellFormed_adjbri (v := -n) (by omega) (by omega)) ops) fun _ => ?_
  refine iteInduction (fun _ => legalForm_asmNone (legalActs_issue rfl) ops) fun _ => ?_
  refine iteInduction (fun _ => legalForm_asmNone legalActs_waitIdle ops) fun _ => ?_
  refine iteInduction (fun _ => legalForm_asmWaitphase ops) fun _ => ?_
  exact iteInduction (fun _ => legalForm_asmNone ((legalActs_issue rfl).append legalActs_waitIdle) ops)
    fun _ => legalForm_none

/-- Settles O6: the operand ranges keep every issued instruction well formed, and a well-formed one decodes from its word (O4). -/
theorem assemblerProducesLegalWords : Obligations.AssemblerProducesLegalWords := by
  intro line acts w hline hw
  have hform : LegalForm (assembleLine line) :=
    iteInduction (fun _ => legalForm_some (by simp [LegalActs])) fun _ => legalForm_assembleForm _ _
  exact hform acts hline w hw

/-! ### The polling directives (R83, R37) -/

/-- A step that polls STATUS records the word read and drops the directive exactly when its condition is met: neither the agenda nor
the host's acts are part of STATUS. -/
theorem step_of_poll {s : State} {act : HostAct} {acts : List HostAct} {rest : List Turn} {met : Bool}
    (hhost : s.host = act :: acts)
    (hstep : step s = exec (.rdcsr 1) { s with agenda := rest, host := afterPoll met act acts }) :
    ∃ t, step s = .next t ∧ t.reads = ⟨1, s.statusWord⟩ :: s.reads
      ∧ (met = true → t.host = acts) ∧ (met = false → t.host = s.host) := by
  refine ⟨_, hstep, rfl, ?_, ?_⟩
  · rintro rfl
    rfl
  · rintro rfl
    exact hhost.symm

/-- Settles O16: the conditions on the word read are the conditions on `PHASE` that the host's turn tests. -/
theorem directivesPollStatus : Obligations.DirectivesPollStatus := by
  constructor
  · intro s acts rest hagenda hhost
    obtain ⟨-, hbusy, -⟩ := statusWord_fields s
    obtain ⟨t, ht, hreads, hmet, hunmet⟩ := step_of_poll hhost
      ((step_of_agenda hagenda).trans (hostTurn_of_waitIdle (s := { s with agenda := rest }) hhost))
    exact ⟨t, ht, hreads, fun hclear => hmet (by simpa using hbusy.symm.trans hclear),
      fun hset => hunmet (by simpa using hbusy.symm.trans hset)⟩
  · intro s ph acts rest hagenda hhost
    obtain ⟨hcode, -⟩ := statusWord_fields s
    obtain ⟨t, ht, hreads, hmet, hunmet⟩ := step_of_poll hhost
      ((step_of_agenda hagenda).trans (hostTurn_of_waitPhase (s := { s with agenda := rest }) hhost))
    rw [hcode, ne_eq, Phase.code_inj]
    exact ⟨t, ht, hreads, fun heq => hmet (decide_eq_true heq), fun hne => hunmet (decide_eq_false hne)⟩

/-! ### The placed word (R71, R78, R80) -/

/-- Settles O13: the placed word is taken up by the turn that is placed with it, and nothing else of the state has changed. -/
theorem placedWordRunsNext : Obligations.PlacedWordRunsNext := by
  constructor
  · intro s w i hdecode
    calc step (s.withFetchWord 64 w)
        = hostTurn { s with host := .command (BitVec.ofNat 64 w) :: s.host } :=
          step_of_agenda (s := s.withFetchWord 64 w) rfl
      _ = presentCommand (BitVec.ofNat 64 w) s := hostTurn_of_command rfl
      _ = exec i s := presentCommand_of_some s hdecode
  · intro s ph
    have hplaced : s.withFetchWord 8 ph.code.toNat = { s with phase := ph, agenda := .sequencer :: s.agenda } := by
      simp [State.withFetchWord, tableCode_phase, State.withCode]
    rw [hplaced]
    exact step_of_agenda (s := { s with phase := ph, agenda := .sequencer :: s.agenda }) rfl

end Sys2Proof.Machine

/-! Settles the family of spec/40_gamma_mapper.md: the square-law reference table, the intensities and their plane bits, and the inputs
that collapse to black. -/

namespace Sys2Proof.Machine

/-! ### The square-law reference table (R96) -/

@[simp] theorem gammaSq_getD (colorBits v : Nat) (h : v < 256) :
    (Config.gammaSq colorBits).getD v 0 = v * v * (2 ^ colorBits - 1) / 65025 := by
  simp [Config.gammaSq, List.getD, List.getElem?_range h]

/-- The last entry of `GAMMA_SQ` is full scale: `65025` is `255 * 255`. -/
theorem gammaSq_getD_last (colorBits : Nat) : (Config.gammaSq colorBits).getD 255 0 = 2 ^ colorBits - 1 := by
  rw [gammaSq_getD colorBits 255 (by decide)]
  exact Nat.mul_div_cancel_left _ (by decide)

/-- The square law, scaled and floored, does not decrease. -/
theorem gammaSq_monotone (colorBits u v : Nat) (huv : u ≤ v) (hv : v < 256) :
    (Config.gammaSq colorBits).getD u 0 ≤ (Config.gammaSq colorBits).getD v 0 := by
  rw [gammaSq_getD colorBits u (by omega), gammaSq_getD colorBits v hv]
  exact Nat.div_le_div_right (Nat.mul_le_mul_right _ (Nat.mul_le_mul huv huv))

/-- `GAMMA_SQ` meets the contract of R91; no entry exceeds the last one, which is full scale. -/
theorem gammaSq_contract (colorBits : Nat) : GammaContract colorBits (Config.gammaSq colorBits) where
  total := by simp [Config.gammaSq]
  range := fun v hv => gammaSq_getD_last colorBits ▸ gammaSq_monotone colorBits v 255 (by omega) (by decide)
  monotone := gammaSq_monotone colorBits
  black := by rw [gammaSq_getD colorBits 0 (by decide)]; simp

/-- Settles O56: the contract holds at every depth, and the last entry is full scale. -/
theorem squareLawTableMeetsTheContract : Obligations.SquareLawTableMeetsTheContract :=
  fun depth _ _ => ⟨gammaSq_contract depth, gammaSq_getD_last depth⟩

/-! ### Intensities (R92) -/

section
variable {cfg : Config} (h : GammaContract cfg.colorBits cfg.gamma)
include h

theorem planeIntensity_le (v : Byte) : planeIntensity cfg v ≤ 2 ^ cfg.colorBits - 1 := h.range _ v.isLt

theorem planeIntensity_lt (v : Byte) : planeIntensity cfg v < 2 ^ cfg.colorBits :=
  Nat.lt_of_le_pred (Nat.two_pow_pos _) (planeIntensity_le h v)

theorem planeIntensity_mono {u v : Byte} (huv : u.toNat ≤ v.toNat) : planeIntensity cfg u ≤ planeIntensity cfg v :=
  h.monotone _ _ huv v.isLt

theorem planeIntensity_black : planeIntensity cfg 0 = 0 := h.black

/-- A black channel has every plane bit 0. -/
theorem planeBit_black (p : Fin cfg.colorBits) : planeBit cfg 0 p = false := by
  rw [planeBit, planeIntensity_black h, Nat.zero_testBit]

end

/-! ### The plane bits rebuild the intensity (R93) -/

/-- The lowest `n` bits of a number, each with its weight, sum to the number modulo `2 ^ n`. -/
theorem sum_testBit_finRange (x n : Nat) :
    ((List.finRange n).map fun p => (x.testBit p.val).toNat * 2 ^ p.val).sum = x % 2 ^ n := by
  induction n with
  | zero => simp [Nat.mod_one]
  | succ n ih =>
    rw [Nat.mod_pow_succ, ← ih, ← Nat.toNat_testBit, Nat.mul_comm (2 ^ n)]
    simp [List.finRange_succ_last, Function.comp_def]

/-- The binary expansion of an intensity, which is below `2^COLOR_BITS`. -/
theorem sum_planeBit {cfg : Config} (h : GammaContract cfg.colorBits cfg.gamma) (v : Byte) :
    ((List.finRange cfg.colorBits).map fun p => (planeBit cfg v p).toNat * 2 ^ p.val).sum = planeIntensity cfg v := by
  simp only [planeBit, sum_testBit_finRange]
  exact Nat.mod_eq_of_lt (planeIntensity_lt h v)

/-- Settles O57: the contract of the gamma table read through the mapper, and the binary expansion of an intensity. -/
theorem planeBitsRebuildTheIntensity : Obligations.PlaneBitsRebuildTheIntensity := by
  intro cfg hvalid
  have h := hvalid.gamma
  exact ⟨fun v => ⟨planeIntensity_le h v, sum_planeBit h v⟩, fun u v => planeIntensity_mono h, planeBit_black h⟩

/-! ### The inputs that collapse to black (R95) -/

/-- The numbers below `n` that satisfy a downward closed predicate are exactly those below their count. -/
theorem lt_count_iff_of_downward {p : Nat → Prop} [DecidablePred p] {n v : Nat}
    (hdown : ∀ u w, u ≤ w → w < n → p w → p u) (hv : v < n) : v < Nat.count p n ↔ p v := by
  constructor
  · intro hlt
    by_contra hpv
    have hnone : Nat.count (fun k => p (v + k)) (n - v) = 0 :=
      Nat.count_iff_forall_not.2 fun k hk hp => hpv (hdown v (v + k) (by omega) (by omega) hp)
    have hsplit := Nat.count_add (p := p) v (n - v)
    have hle := Nat.count_le (p := p) (n := v)
    rw [hnone, Nat.add_sub_cancel' hv.le] at hsplit
    omega
  · intro hpv
    calc v + 1 = Nat.count p (v + 1) :=
          (Nat.count_iff_forall.2 fun u hu => hdown u v (Nat.le_of_lt_succ hu) hv hpv).symm
      _ ≤ Nat.count p n := Nat.count_monotone p hv

/-- With the order of the table, the entries that are 0 are an initial segment of it. -/
theorem lt_count_zeros_iff {colorBits : Nat} {gamma : List Nat} (h : GammaContract colorBits gamma) {v : Nat} (hv : v < 256) :
    v < Nat.count (fun u => gamma.getD u 0 = 0) 256 ↔ gamma.getD v 0 = 0 :=
  lt_count_iff_of_downward
    (fun u w huw hw hzero => Nat.eq_zero_of_le_zero ((h.monotone u w huw hw).trans_eq hzero)) hv

/-- Settles O58: the zero entries are an initial segment of the table, and entry 0 is one of them. -/
theorem lowInputsCollapseToBlack : Obligations.LowInputsCollapseToBlack := by
  intro cfg hvalid
  simp only [← List.countP_eq_length_filter]
  have h := hvalid.gamma
  exact ⟨(lt_count_zeros_iff h (by decide)).2 h.black, fun v => (lt_count_zeros_iff h v.isLt).symm⟩

end Sys2Proof.Machine

/-! Settles the family of spec/41_framebuffer_commands.md: the four frame-buffer commands in every state, the words that are these
commands, and the pixel that is read back. Each layer's lemmas stand before the theorem that uses them. -/

namespace Sys2Proof.Machine

/-! ### A word with a reserved field (R79, R80) -/

/-- A word that is a command only where its reserved bits pass a check runs it there, and raises IllegalCommand elsewhere. -/
theorem presentCommand_of_checked {c : Prop} [Decidable c] {w : Word} {i : Instr} (s : State)
    (h : decodeCommand w = if c then some i else none) :
    presentCommand w s = if c then exec i s else .next { s with cmderr := true } := by
  by_cases hc : c
  · rw [if_pos hc] at h ⊢
    exact presentCommand_of_some s h
  · rw [if_neg hc] at h ⊢
    exact presentCommand_of_none s h

/-! ### SETPX (R100) -/

/-- Out of range, in inequalities. -/
theorem inRange_eq_false_iff (cfg : Config) (x y : Int) :
    inRange cfg x y = false ↔ x < 0 ∨ cfg.width ≤ x ∨ y < 0 ∨ cfg.height ≤ y := by
  rw [← Bool.not_eq_true, inRange_iff]
  omega

theorem exec_setpx_of_inRange {s : State} {x y : Int} (r g b : Byte) (hin : inRange s.cfg x y = true) :
    exec (.setpx x y r g b) s
      = .next { s with fb := Memory.write s.fb (cellAddr s.cfg s.draw x.toNat y.toNat) (color r g b) } := by
  obtain ⟨-, hrun⟩ | ⟨hout, -⟩ := execSetpx_cases x y r g b s
  · exact hrun
  · cases hin.symm.trans hout

theorem exec_setpx_of_outOfRange {s : State} {x y : Int} (r g b : Byte) (hout : inRange s.cfg x y = false) :
    exec (.setpx x y r g b) s = .next s := by
  obtain ⟨hin, -⟩ | ⟨-, hrun⟩ := execSetpx_cases x y r g b s
  · cases hin.symm.trans hout
  · exact hrun

/-- Settles O17: an in-range SETPX is one write to the cell of R54, and opcode 0x01 has no reserved field. -/
theorem setpxWritesOneCell : Obligations.SetpxWritesOneCell := by
  refine ⟨?_, ?_, ?_⟩
  · intro s x y r g b hx0 hx hy0 hy
    refine ⟨_, exec_setpx_of_inRange r g b ((inRange_iff _ _ _).2 ⟨⟨hx0, hx⟩, hy0, hy⟩), ?_, fun a ha => ?_⟩
    · exact (Memory.read_write _ _ _ _).trans (if_pos rfl)
    · exact (Memory.read_write _ _ _ _).trans (if_neg ha)
  · intro s x y r g b hout
    exact exec_setpx_of_outOfRange r g b ((inRange_eq_false_iff _ _ _).2 hout)
  · intro s w hop
    exact presentCommand_of_some s (decodeCommand_of_setpx hop)

/-! ### GETPX (R101) -/

theorem exec_getpx_of_inRange {s : State} {x y : Int} (hin : inRange s.cfg x y = true) :
    exec (.getpx x y) s
      = .next { s with resp := respWord true (Memory.read s.fb (cellAddr s.cfg s.draw x.toNat y.toNat)) } := by
  obtain ⟨-, hrun⟩ | ⟨hout, -⟩ := execGetpx_cases x y s
  · exact hrun
  · cases hin.symm.trans hout

theorem exec_getpx_of_outOfRange {s : State} {x y : Int} (hout : inRange s.cfg x y = false) :
    exec (.getpx x y) s = .next { s with resp := respWord false 0 } := by
  obtain ⟨hin, -⟩ | ⟨-, hrun⟩ := execGetpx_cases x y s
  · cases hin.symm.trans hout
  · exact hrun

/-- Settles O18: an in-range GETPX reads the cell of R54, and opcode 0x02 has the reserved field 23:0. -/
theorem getpxReadsIntoResp : Obligations.GetpxReadsIntoResp := by
  refine ⟨?_, ?_, ?_⟩
  · intro s x y hx0 hx hy0 hy
    exact exec_getpx_of_inRange ((inRange_iff _ _ _).2 ⟨⟨hx0, hx⟩, hy0, hy⟩)
  · intro s x y hout
    exact exec_getpx_of_outOfRange ((inRange_eq_false_iff _ _ _).2 hout)
  · intro s w hop
    exact presentCommand_of_checked s (decodeCommand_of_getpx hop)

/-! ### CLEAR (R102) -/

theorem exec_clear (r g b : Byte) (s : State) :
    exec (.clear r g b) s
      = .next { s with fb := Memory.fill s.fb (s.draw * npix s.cfg) (npix s.cfg) (color r g b) } := rfl

/-- Settles O19: CLEAR is one fill of the NPIX cells of the draw buffer, and opcode 0x03 has the reserved field 55:24. -/
theorem clearFillsTheDrawBuffer : Obligations.ClearFillsTheDrawBuffer := by
  constructor
  · intro s r g b
    refine ⟨_, exec_clear r g b s, fun i hi => ?_, fun a ha => ?_⟩
    · exact (Memory.read_fill _ _ _ _ _).trans (if_pos ⟨Nat.le_add_right _ _, Nat.add_lt_add_left hi _⟩)
    · exact (Memory.read_fill _ _ _ _ _).trans (if_neg fun hcell =>
        ha.elim (Nat.not_lt.2 hcell.1) (Nat.not_le.2 hcell.2))
  · intro s w hop
    exact presentCommand_of_checked s (decodeCommand_of_clear hop)

/-! ### SWAP (R103) -/

theorem exec_swap_of_single {s : State} (hdbuf : s.cfg.dbuf = false) : exec .swap s = .next s := if_pos hdbuf

theorem exec_swap_of_idle {s : State} (hdbuf : s.cfg.dbuf = true) (hidle : s.phase = .idle) :
    exec .swap s = .next { s with front := !s.front } := by
  rw [exec, execSwap, if_neg (by simp [hdbuf]), if_pos hidle, flipBit]

theorem exec_swap_of_busy {s : State} (hdbuf : s.cfg.dbuf = true) (hbusy : s.phase ≠ .idle) :
    exec .swap s = .next { s with swapPending := !s.swapPending } := by
  rw [exec, execSwap, if_neg (by simp [hdbuf]), if_neg hbusy, flipBit]

/-- Settles O20: the three cases of SWAP, and opcode 0x04 has the reserved field 55:0. -/
theorem swapFlipsOrDefers : Obligations.SwapFlipsOrDefers :=
  ⟨fun _ => exec_swap_of_single, fun _ => exec_swap_of_idle, fun _ => exec_swap_of_busy,
    fun s _ hop => presentCommand_of_checked s (decodeCommand_of_swap hop)⟩

/-! ### What the four commands write (R104, R60) -/

/-- In `s` the instruction completes and writes at most the cells, RESP, FRONT and SWAP_PENDING. -/
def WritesOnlyFrameBuffer (i : Instr) (s : State) : Prop :=
  ∃ fb resp front swapPending,
    exec i s = .next { s with fb := fb, resp := resp, front := front, swapPending := swapPending }

theorem setpx_writesOnlyFrameBuffer (x y : Int) (r g b : Byte) (s : State) :
    WritesOnlyFrameBuffer (.setpx x y r g b) s := by
  obtain ⟨-, hrun⟩ | ⟨-, hrun⟩ := execSetpx_cases x y r g b s
  all_goals exact ⟨_, _, _, _, hrun⟩

theorem getpx_writesOnlyFrameBuffer (x y : Int) (s : State) : WritesOnlyFrameBuffer (.getpx x y) s := by
  obtain ⟨-, hrun⟩ | ⟨-, hrun⟩ := execGetpx_cases x y s
  all_goals exact ⟨_, _, _, _, hrun⟩

theorem clear_writesOnlyFrameBuffer (r g b : Byte) (s : State) : WritesOnlyFrameBuffer (.clear r g b) s :=
  ⟨_, _, _, _, exec_clear r g b s⟩

theorem swap_writesOnlyFrameBuffer (s : State) : WritesOnlyFrameBuffer .swap s := by
  cases hdbuf : s.cfg.dbuf with
  | false => exact ⟨_, _, _, _, exec_swap_of_single hdbuf⟩
  | true =>
    by_cases hidle : s.phase = .idle
    · exact ⟨_, _, _, _, exec_swap_of_idle hdbuf hidle⟩
    · exact ⟨_, _, _, _, exec_swap_of_busy hdbuf hidle⟩

/-- Settles O48: none of the registers named is among the four that the commands write. -/
theorem frameBufferCommandsLeaveTheSequencerAlone : Obligations.FrameBufferCommandsLeaveTheSequencerAlone := by
  intro s i hi
  have hwrites : WritesOnlyFrameBuffer i s := by
    obtain ⟨x, y, r, g, b, rfl⟩ | ⟨x, y, rfl⟩ | ⟨r, g, b, rfl⟩ | rfl := hi
    · exact setpx_writesOnlyFrameBuffer x y r g b s
    · exact getpx_writesOnlyFrameBuffer x y s
    · exact clear_writesOnlyFrameBuffer r g b s
    · exact swap_writesOnlyFrameBuffer s
  obtain ⟨fb, resp, front, swapPending, hrun⟩ := hwrites
  exact ⟨_, hrun, rfl, rfl, rfl, rfl, rfl, rfl, rfl, rfl, rfl, rfl, rfl, rfl⟩

/-! ### Runs of turns (R58) -/

theorem hostTurn_agenda {s t : State} (h : hostTurn s = .next t) : t.agenda = s.agenda := by
  obtain ⟨-, hrun⟩ | ⟨w, i, acts, -, -, hrun⟩ | ⟨w, acts, -, -, hrun⟩ | ⟨n, acts, hrun⟩ := hostTurn_cases s
  all_goals rw [hrun] at h
  · injection h with h
    rw [← h]
  · exact (exec_agenda h :)
  · injection h with h
    rw [← h, State.illegalCommand_agenda]
  · exact (exec_agenda h :)

theorem timerTurn_agenda (s : State) : (timerTurn s).agenda = s.agenda := by
  obtain ⟨-, hrun⟩ | ⟨-, hrun⟩ := timerTurn_cases s
  all_goals simp [hrun]

/-- No agent changes whose turns come after its own. -/
theorem takeTurn_agenda {τ : Turn} {s t : State} (h : takeTurn τ s = .next t) : t.agenda = s.agenda := by
  cases τ with
  | host => exact hostTurn_agenda h
  | sequencer => exact exec_agenda h
  | timer =>
    injection h with h
    rw [← h, timerTurn_agenda]
  | tick =>
    injection h with h
    rw [← h, tickTurn_agenda]
  | reset cells =>
    injection h with h
    rw [← h, State.resetStep_agenda]

theorem runTurns_nil (s : State) : runTurns [] s = .next { s with agenda := [] } := rfl

/-- A run that gets through its first step gets through the others from the state that step leaves. -/
theorem run_succ_next {M : Host.Core} {n : Nat} {s u : M.State} (h : M.run (n + 1) s = .next u) :
    ∃ m, M.step s = .next m ∧ M.run n m = .next u := by
  rw [Host.Core.run] at h
  split at h
  · next m hstep => exact ⟨m, hstep, h⟩
  · cases h
  · cases h

/-- A run that gets through its turns takes the first one, and gets through the others from the state it leaves. -/
theorem runTurns_cons_next {τ : Turn} {turns : List Turn} {s u : State} (h : runTurns (τ :: turns) s = .next u) :
    ∃ m, takeTurn τ { s with agenda := turns } = .next m ∧ runTurns turns m = .next u := by
  obtain ⟨m, hstep, hrest⟩ := run_succ_next h
  have hturn : takeTurn τ { s with agenda := turns } = .next m :=
    (step_of_agenda (s := { s with agenda := τ :: turns }) rfl).symm.trans hstep
  obtain rfl : m.agenda = turns := takeTurn_agenda hturn
  exact ⟨m, hturn, hrest⟩

/-- What does not depend on the agenda and is kept by every turn of a run holds at its end. -/
theorem runTurns_preserves {P : State → Prop} (hagenda : ∀ s turns, P s → P { s with agenda := turns })
    {turns : List Turn} (hturn : ∀ τ ∈ turns, ∀ s t, takeTurn τ s = .next t → P s → P t) {s u : State}
    (h : runTurns turns s = .next u) (hs : P s) : P u := by
  induction turns generalizing s with
  | nil =>
    rw [runTurns_nil] at h
    injection h with h
    exact h ▸ hagenda s [] hs
  | cons τ turns ih =>
    obtain ⟨m, hfirst, hrest⟩ := runTurns_cons_next h
    rw [List.forall_mem_cons] at hturn
    exact ih hturn.2 hrest (hturn.1 _ _ hfirst (hagenda s turns hs))

theorem runTurns_cfg {turns : List Turn} {s u : State} (h : runTurns turns s = .next u) : u.cfg = s.cfg :=
  runTurns_preserves (P := fun v => v.cfg = s.cfg) (fun _ _ hs => hs) (fun _ _ _ _ hrun hs => (takeTurn_cfg hrun).trans hs)
    h rfl

/-- A run of quiet turns leaves alone what is the host's to write. -/
theorem runTurns_hostWritten {turns : List Turn} {s u : State} (hquiet : ∀ τ ∈ turns, τ.quiet = true)
    (h : runTurns turns s = .next u) : u.hostWritten = s.hostWritten :=
  runTurns_preserves (P := fun v => v.hostWritten = s.hostWritten) (fun _ _ hs => hs)
    (fun τ hτ _ _ hrun hs => (takeTurn_hostWritten (hquiet τ hτ) hrun).trans hs) h rfl

/-! ### The pixel read back (R100, R101, R56) -/

/-- Settles O21: SETPX and the quiet turns keep the configuration and FRONT, so GETPX reads the cell that SETPX wrote. -/
theorem getpxReturnsWhatSetpxWrote : Obligations.GetpxReturnsWhatSetpxWrote := by
  intro s t u x y r g b turns hx0 hx hy0 hy hset hquiet hrun
  have hin : inRange s.cfg x y = true := (inRange_iff _ _ _).2 ⟨⟨hx0, hx⟩, hy0, hy⟩
  obtain rfl := Host.Outcome.next.inj ((exec_setpx_of_inRange r g b hin).symm.trans hset)
  have hcfg : u.cfg = s.cfg := (runTurns_cfg hrun :)
  have hkept := runTurns_hostWritten hquiet hrun
  have hfront : u.front = s.front := (State.hostWritten_front hkept :)
  have hfb : u.fb = Memory.write s.fb (cellAddr s.cfg s.draw x.toNat y.toNat) (color r g b) :=
    State.hostWritten_fb hkept
  have hdraw : u.draw = s.draw := by rw [State.draw, hcfg, hfront, State.draw]
  have hread : Memory.read u.fb (cellAddr u.cfg u.draw x.toNat y.toNat) = color r g b := by
    rw [hfb, hcfg, hdraw, Memory.read_write, if_pos rfl]
  rw [exec_getpx_of_inRange (hcfg ▸ hin), hread]
  rfl

end Sys2Proof.Machine

/-! Settles the family of spec/42_sequencer_microops.md: the twelve micro-operations, the timer, the steps and waits of a refresh,
its end, the holds and their total, and the cancel step. Each layer's lemmas stand before the theorem that uses them. -/

namespace Sys2Proof.Machine

/-! ### The micro-operations in their phases (R111 to R123, R128) -/

section
variable {s : State}

theorem exec_idle (h : s.phase = .idle) : exec .idle s = .next s := whenPhase_of_eq h

theorem exec_plane (h : s.phase = .plane) :
    exec .plane s = .next { s with hold := holdLength s.unit s.bri s.p, r := 0, phase := .blank } := whenPhase_of_eq h

theorem exec_blank (h : s.phase = .blank) :
    exec .blank s = .next ({ s with pins := { s.pins with oe := false }, phase := .addr }).emitPins := whenPhase_of_eq h

theorem exec_addr (h : s.phase = .addr) :
    exec .addr s = .next
      ({ s with pins := { s.pins with addr := addressPins s.cfg s.r }, c := 0, phase := .data }).emitPins :=
  whenPhase_of_eq h

/-- DATA where both pixels and the bitplane exist. -/
theorem exec_data {up lo : Pixel} (h : s.phase = .data) (hup : s.pixelAt s.scan s.c.toNat s.r.toNat = some up)
    (hlo : s.pixelAt s.scan s.c.toNat (s.r.toNat + rows s.cfg : Nat) = some lo) (hp : s.p.toNat < s.cfg.colorBits) :
    exec .data s = .next
      ({ s with pins := { s.pins with data := sixbits s.cfg up lo ⟨s.p.toNat, hp⟩ }, phase := .clkh }).emitPins := by
  rw [exec, execData, whenPhase_of_eq h, hup, hlo]
  exact dif_pos hp

theorem exec_clkh (h : s.phase = .clkh) :
    exec .clkh s = .next ({ s with pins := { s.pins with clk := true }, phase := .clkl }).emitPins := whenPhase_of_eq h

theorem exec_clkl (h : s.phase = .clkl) :
    exec .clkl s = .next ({ s with
      pins := { s.pins with clk := false }
      c := BitVec.ofNat 16 (s.c.toNat + 1)
      phase := if s.c.toNat + 1 < s.cfg.width then .data else .lath }).emitPins := whenPhase_of_eq h

theorem exec_lath (h : s.phase = .lath) :
    exec .lath s = .next ({ s with pins := { s.pins with lat := true }, phase := .latl }).emitPins := whenPhase_of_eq h

theorem exec_latl (h : s.phase = .latl) :
    exec .latl s = .next ({ s with pins := { s.pins with lat := false }, phase := .oeon }).emitPins := whenPhase_of_eq h

theorem exec_oeon (h : s.phase = .oeon) :
    exec .oeon s = .next (({ s with
      pins := { s.pins with oe := true }
      tmrArmed := true
      tmrN := s.hold
      tmrDeadline := s.now + s.hold.toNat
      phase := .hold }).emitPins.emit (.wait s.hold)) := whenPhase_of_eq h

theorem exec_hold_of_cancel (h : s.phase = .hold) (hcancel : s.cancelPending = true) :
    exec .hold s = .next s.cancelStep := by
  rw [exec, execHold, whenPhase_of_eq h, if_pos hcancel]

theorem exec_hold_of_noCancel (h : s.phase = .hold) (hcancel : s.cancelPending = false) : exec .hold s = .next s := by
  rw [exec, execHold, whenPhase_of_eq h, if_neg (by simp [hcancel])]

theorem exec_oeoff_of_row (h : s.phase = .oeoff) (hr : s.r.toNat + 1 < rows s.cfg) :
    exec .oeoff s = .next ({ s with
      pins := { s.pins with oe := false }, r := BitVec.ofNat 5 (s.r.toNat + 1), phase := .blank }).emitPins := by
  rw [exec, execOeoff, whenPhase_of_eq h, if_pos hr]

theorem exec_oeoff_of_plane (h : s.phase = .oeoff) (hr : rows s.cfg ≤ s.r.toNat + 1)
    (hp : s.p.toNat + 1 < s.cfg.colorBits) :
    exec .oeoff s = .next ({ s with
      pins := { s.pins with oe := false }, p := BitVec.ofNat 3 (s.p.toNat + 1), phase := .plane }).emitPins := by
  rw [exec, execOeoff, whenPhase_of_eq h, if_neg hr.not_gt, if_pos hp]

theorem exec_oeoff_of_last (h : s.phase = .oeoff) (hr : rows s.cfg ≤ s.r.toNat + 1)
    (hp : s.cfg.colorBits ≤ s.p.toNat + 1) :
    exec .oeoff s = .next (({ s with
      pins := { s.pins with oe := false }, phase := .idle, done := true, cancelPending := false }).emitPins.emit
        .refreshDone) := by
  rw [exec, execOeoff, whenPhase_of_eq h, if_neg hr.not_gt, if_neg hp.not_gt]

end

/-! ### IDLE, BLANK, OEON and HOLD as stated (R111, R113, R120, R128) -/

/-- Settles O29: in IDLE the turn passes. -/
theorem idleDoesNothing : Obligations.IdleDoesNothing := fun _ => exec_idle

/-- Settles O31: the event is that of the pins after the write. -/
theorem blankDisablesOutput : Obligations.BlankDisablesOutput := fun _ => exec_blank

/-- Settles O35: the pins' event is the older of the two. -/
theorem oeonEnablesAndArms : Obligations.OeonEnablesAndArms := fun _ => exec_oeon

/-- Settles O36: the sequencer's step in HOLD is the cancel step or passes. -/
theorem holdCancelsOrWaits : Obligations.HoldCancelsOrWaits :=
  ⟨fun _ => exec_hold_of_cancel, fun _ => exec_hold_of_noCancel⟩

/-! ### PLANE and the weight law (R112, R131, R132) -/

/-- Settles O30: the hold length loses no bit. -/
theorem planeComputesTheHold : Obligations.PlaneComputesTheHold :=
  fun s h => ⟨_, exec_plane h, holdLength_toNat s.unit s.bri s.p⟩

/-- The next bitplane's number, where there is one. -/
theorem toNat_add_one_of_lt {p : BitVec 3} (h : p.toNat < 7) : (p + 1).toNat = p.toNat + 1 := by
  rw [BitVec.toNat_add]
  exact Nat.mod_eq_of_lt (by simpa using Nat.succ_lt_succ h)

/-- The holds of the first `n` bitplanes sum to `(2^n - 1) * SU`. -/
theorem sum_holdLength (unit : BitVec 32) (bri : BitVec 8) {n : Nat} (h : n ≤ 8) :
    ((List.range n).map fun p => (holdLength unit bri (BitVec.ofNat 3 p)).toNat).sum
      = (2 ^ n - 1) * scaledUnit unit bri := by
  induction n with
  | zero => simp
  | succ n ih =>
    have hn : (BitVec.ofNat 3 n).toNat = n := Nat.mod_eq_of_lt h
    have hpos : 1 ≤ 2 ^ n := Nat.one_le_two_pow
    rw [List.range_succ, List.map_append, List.sum_append, ih (by omega), List.map_singleton, List.sum_singleton,
      holdLength_toNat, hn, ← Nat.add_mul, pow_succ]
    congr 1
    omega

/-- Settles O53: each hold is `2^p * SU`, and the powers of two sum up. -/
theorem holdsFollowTheWeightLaw : Obligations.HoldsFollowTheWeightLaw := by
  intro unit bri
  refine ⟨holdLength_toNat unit bri, fun p hp => ?_, fun n => sum_holdLength unit bri⟩
  rw [holdLength_toNat, holdLength_toNat, toNat_add_one_of_lt hp, pow_succ']
  exact Nat.mul_assoc _ _ _

/-! ### ADDR (R114) -/

/-- A row that fits the wired lines is driven whole. -/
theorem addressPins_of_fits {cfg : Config} {r : BitVec 5} (h : r.toNat < 2 ^ cfg.nAddr) : addressPins cfg r = r := by
  apply BitVec.eq_of_getLsbD_eq
  intro i hi
  rw [addressPins_getLsbD cfg r hi, Bool.and_eq_right_iff_imp]
  intro hbit
  rw [decide_eq_true_eq]
  exact (Nat.pow_lt_pow_iff_right (by decide)).1 ((Nat.ge_two_pow_of_testBit hbit).trans_lt h)

/-- Settles O32: the address pins bit by bit. -/
theorem addrDrivesTheRowAddress : Obligations.AddrDrivesTheRowAddress :=
  fun s h => ⟨_, exec_addr h, fun _ => addressPins_getLsbD s.cfg s.r, addressPins_of_fits⟩

/-! ### DATA (R115, R94) -/

/-- The six data bits, one channel each. -/
theorem sixbits_bits (cfg : Config) (up lo : Pixel) (p : Fin cfg.colorBits) :
    (sixbits cfg up lo p).getLsbD 0 = planeBit cfg (redOf up) p
      ∧ (sixbits cfg up lo p).getLsbD 1 = planeBit cfg (greenOf up) p
      ∧ (sixbits cfg up lo p).getLsbD 2 = planeBit cfg (blueOf up) p
      ∧ (sixbits cfg up lo p).getLsbD 3 = planeBit cfg (redOf lo) p
      ∧ (sixbits cfg up lo p).getLsbD 4 = planeBit cfg (greenOf lo) p
      ∧ (sixbits cfg up lo p).getLsbD 5 = planeBit cfg (blueOf lo) p := by
  simp [sixbits]

/-- DATA inside the panel, with the scan buffer and the bitplane there. -/
theorem exec_data_of_inPanel {s : State} (h : s.phase = .data) (hfront : s.cfg.dbuf = false → s.front = false)
    (hc : s.c.toNat < s.cfg.width) (hr : s.r.toNat < rows s.cfg) (hp : s.p.toNat < s.cfg.colorBits) :
    exec .data s = .next
      ({ s with
        pins := { s.pins with
          data := sixbits s.cfg (Memory.read s.fb (cellAddr s.cfg s.scan s.c.toNat s.r.toNat))
            (Memory.read s.fb (cellAddr s.cfg s.scan s.c.toNat (s.r.toNat + rows s.cfg))) ⟨s.p.toNat, hp⟩ }
        phase := .clkh }).emitPins := by
  unfold rows at hr
  exact exec_data h (State.pixelAt_scan hfront hc (by omega)) (State.pixelAt_scan hfront hc (by rw [rows]; omega)) hp

/-- Settles O33: both pixels are in the panel, and each data pin is the plane bit of one channel. -/
theorem dataPresentsOneColumn : Obligations.DataPresentsOneColumn := by
  intro s h hc hr hp hfront
  exact ⟨_, exec_data_of_inPanel h hfront hc hr hp, sixbits_bits s.cfg _ _ _⟩

/-! ### The pulses and OEOFF (R116 to R119, R123) -/

/-- A counter of `n` bits holds its successor where that is below `2 ^ n`. -/
theorem toNat_ofNat_succ {n : Nat} {v : BitVec n} (h : v.toNat + 1 < 2 ^ n) :
    (BitVec.ofNat n (v.toNat + 1)).toNat = v.toNat + 1 := Nat.mod_eq_of_lt h

/-- Settles O34: the four pulse steps; the column counter has room for its successor. -/
theorem clockAndLatchPulses : Obligations.ClockAndLatchPulses :=
  ⟨fun _ => exec_clkh, fun _ h hc => ⟨_, toNat_ofNat_succ (by omega), exec_clkl h⟩, fun _ => exec_lath, fun _ => exec_latl⟩

/-- Settles O37: the three outcomes of OEOFF; the counters have room for their successors. -/
theorem oeoffAdvancesOrFinishes : Obligations.OeoffAdvancesOrFinishes :=
  ⟨fun _ h hr hroom => ⟨_, toNat_ofNat_succ (by omega), exec_oeoff_of_row h hr⟩,
    fun _ h hr hp hroom => ⟨_, toNat_ofNat_succ (by omega), exec_oeoff_of_plane h hr hp⟩,
    fun _ h hr hp => exec_oeoff_of_last h hr hp⟩

/-! ### The timer and the tick (R127, R213) -/

theorem State.timerEnabled_iff (s : State) :
    s.timerEnabled = true ↔ s.phase = .hold ∧ s.tmrArmed = true ∧ s.tmrDeadline ≤ s.now := by
  simp [State.timerEnabled, and_assoc]

theorem timerTurn_of_enabled {s : State} (h : s.timerEnabled = true) : timerTurn s = s.timerComplete := if_pos h

theorem timerTurn_of_disabled {s : State} (h : ¬s.timerEnabled = true) : timerTurn s = s := if_neg h

/-- Settles O15: the timer's turn by its enabling condition. -/
theorem timerAndTickTurns : Obligations.TimerAndTickTurns := by
  refine ⟨?_, ?_, fun s rest => step_of_agenda⟩
  · intro s rest hagenda hphase harmed hdeadline
    exact (step_of_agenda hagenda).trans (congrArg Host.Outcome.next
      (timerTurn_of_enabled ((State.timerEnabled_iff _).2 ⟨hphase, harmed, hdeadline⟩)))
  · intro s rest hagenda hout
    refine (step_of_agenda hagenda).trans (congrArg Host.Outcome.next (timerTurn_of_disabled ?_))
    rw [State.timerEnabled_iff]
    rintro ⟨hphase, harmed, hdeadline⟩
    obtain hne | hunarmed | hearly := hout
    · exact hne hphase
    · exact Bool.false_ne_true (hunarmed.symm.trans harmed)
    · exact Nat.not_le.2 hearly hdeadline

/-! ### The sequencer's step, once for all phases (R110) -/

/-- What the sequencer's step can be: one case for each micro-operation and each way it can go. -/
inductive MicroStep (s : State) : State → Prop
  /-- R111. -/
  | idle (h : s.phase = .idle) : MicroStep s s
  /-- R112. -/
  | plane (h : s.phase = .plane) :
      MicroStep s { s with hold := holdLength s.unit s.bri s.p, r := 0, phase := .blank }
  /-- R113. -/
  | blank (h : s.phase = .blank) :
      MicroStep s ({ s with pins := { s.pins with oe := false }, phase := .addr }).emitPins
  /-- R114. -/
  | addr (h : s.phase = .addr) :
      MicroStep s ({ s with pins := { s.pins with addr := addressPins s.cfg s.r }, c := 0, phase := .data }).emitPins
  /-- R115. -/
  | data (up lo : Pixel) (h : s.phase = .data) (hup : s.pixelAt s.scan s.c.toNat s.r.toNat = some up)
      (hlo : s.pixelAt s.scan s.c.toNat (s.r.toNat + rows s.cfg : Nat) = some lo) (hp : s.p.toNat < s.cfg.colorBits) :
      MicroStep s
        ({ s with pins := { s.pins with data := sixbits s.cfg up lo ⟨s.p.toNat, hp⟩ }, phase := .clkh }).emitPins
  /-- R116. -/
  | clkh (h : s.phase = .clkh) :
      MicroStep s ({ s with pins := { s.pins with clk := true }, phase := .clkl }).emitPins
  /-- R117, another column to come. -/
  | clklColumn (h : s.phase = .clkl) (hc : s.c.toNat + 1 < s.cfg.width) :
      MicroStep s ({ s with
        pins := { s.pins with clk := false }, c := BitVec.ofNat 16 (s.c.toNat + 1), phase := .data }).emitPins
  /-- R117, after the last column. -/
  | clklLast (h : s.phase = .clkl) (hc : s.cfg.width ≤ s.c.toNat + 1) :
      MicroStep s ({ s with
        pins := { s.pins with clk := false }, c := BitVec.ofNat 16 (s.c.toNat + 1), phase := .lath }).emitPins
  /-- R118. -/
  | lath (h : s.phase = .lath) :
      MicroStep s ({ s with pins := { s.pins with lat := true }, phase := .latl }).emitPins
  /-- R119. -/
  | latl (h : s.phase = .latl) :
      MicroStep s ({ s with pins := { s.pins with lat := false }, phase := .oeon }).emitPins
  /-- R120. -/
  | oeon (h : s.phase = .oeon) :
      MicroStep s (({ s with
        pins := { s.pins with oe := true }
        tmrArmed := true
        tmrN := s.hold
        tmrDeadline := s.now + s.hold.toNat
        phase := .hold }).emitPins.emit (.wait s.hold))
  /-- R121: suspended. -/
  | holdWait (h : s.phase = .hold) (hcancel : s.cancelPending = false) : MicroStep s s
  /-- R128. -/
  | holdCancel (h : s.phase = .hold) (hcancel : s.cancelPending = true) : MicroStep s s.cancelStep
  /-- R123, the next row. -/
  | oeoffRow (h : s.phase = .oeoff) (hr : s.r.toNat + 1 < rows s.cfg) :
      MicroStep s ({ s with
        pins := { s.pins with oe := false }, r := BitVec.ofNat 5 (s.r.toNat + 1), phase := .blank }).emitPins
  /-- R123, the next bitplane. -/
  | oeoffPlane (h : s.phase = .oeoff) (hr : rows s.cfg ≤ s.r.toNat + 1) (hp : s.p.toNat + 1 < s.cfg.colorBits) :
      MicroStep s ({ s with
        pins := { s.pins with oe := false }, p := BitVec.ofNat 3 (s.p.toNat + 1), phase := .plane }).emitPins
  /-- R123, the end of the refresh. -/
  | oeoffLast (h : s.phase = .oeoff) (hr : rows s.cfg ≤ s.r.toNat + 1) (hp : s.cfg.colorBits ≤ s.p.toNat + 1) :
      MicroStep s (({ s with
        pins := { s.pins with oe := false }, phase := .idle, done := true, cancelPending := false }).emitPins.emit
          .refreshDone)

/-- Each case is what the micro-operation of the phase does. -/
theorem MicroStep.exec_microOp {s t : State} (h : MicroStep s t) : exec s.phase.microOp s = .next t := by
  cases h with
  | idle h => rw [h]; exact exec_idle h
  | plane h => rw [h]; exact exec_plane h
  | blank h => rw [h]; exact exec_blank h
  | addr h => rw [h]; exact exec_addr h
  | data up lo h hup hlo hp => rw [h]; exact exec_data h hup hlo hp
  | clkh h => rw [h]; exact exec_clkh h
  | clklColumn h hc => rw [h]; exact (exec_clkl h).trans (by rw [if_pos hc])
  | clklLast h hc => rw [h]; exact (exec_clkl h).trans (by rw [if_neg hc.not_gt])
  | lath h => rw [h]; exact exec_lath h
  | latl h => rw [h]; exact exec_latl h
  | oeon h => rw [h]; exact exec_oeon h
  | holdWait h hcancel => rw [h]; exact exec_hold_of_noCancel h hcancel
  | holdCancel h hcancel => rw [h]; exact exec_hold_of_cancel h hcancel
  | oeoffRow h hr => rw [h]; exact exec_oeoff_of_row h hr
  | oeoffPlane h hr hp => rw [h]; exact exec_oeoff_of_plane h hr hp
  | oeoffLast h hr hp => rw [h]; exact exec_oeoff_of_last h hr hp

theorem MicroStep.cfg {s t : State} (h : MicroStep s t) : t.cfg = s.cfg := exec_cfg h.exec_microOp

theorem MicroStep.hostWritten {s t : State} (h : MicroStep s t) : t.hostWritten = s.hostWritten :=
  exec_hostWritten s.phase.microOp_ofHost h.exec_microOp

/-- DATA answers a next state only where both pixels and the bitplane exist. -/
theorem exists_of_exec_data {s t : State} (h : exec .data s = .next t) :
    ∃ up lo, s.pixelAt s.scan s.c.toNat s.r.toNat = some up
      ∧ s.pixelAt s.scan s.c.toNat (s.r.toNat + rows s.cfg : Nat) = some lo ∧ s.p.toNat < s.cfg.colorBits := by
  have hrun := (whenPhase_next h).2
  split at hrun
  · next up lo hup hlo =>
    split at hrun
    · next hp => exact ⟨up, lo, hup, hlo, hp⟩
    · cases hrun
  · cases hrun

/-- In every state but those of DATA outside the panel the sequencer's turn is one of the cases. -/
theorem exists_microStep_of_data {s : State}
    (hdata : s.phase = .data → ∃ up lo, s.pixelAt s.scan s.c.toNat s.r.toNat = some up
      ∧ s.pixelAt s.scan s.c.toNat (s.r.toNat + rows s.cfg : Nat) = some lo ∧ s.p.toNat < s.cfg.colorBits) :
    ∃ t, MicroStep s t := by
  cases h : s.phase with
  | idle => exact ⟨_, .idle h⟩
  | plane => exact ⟨_, .plane h⟩
  | blank => exact ⟨_, .blank h⟩
  | addr => exact ⟨_, .addr h⟩
  | data =>
    obtain ⟨up, lo, hup, hlo, hp⟩ := hdata h
    exact ⟨_, .data up lo h hup hlo hp⟩
  | clkh => exact ⟨_, .clkh h⟩
  | clkl => exact (Nat.lt_or_ge (s.c.toNat + 1) s.cfg.width).elim (⟨_, .clklColumn h ·⟩) (⟨_, .clklLast h ·⟩)
  | lath => exact ⟨_, .lath h⟩
  | latl => exact ⟨_, .latl h⟩
  | oeon => exact ⟨_, .oeon h⟩
  | hold =>
    cases hcancel : s.cancelPending with
    | false => exact ⟨_, .holdWait h hcancel⟩
    | true => exact ⟨_, .holdCancel h hcancel⟩
  | oeoff =>
    obtain hr | hr := Nat.lt_or_ge (s.r.toNat + 1) (rows s.cfg)
    · exact ⟨_, .oeoffRow h hr⟩
    · exact (Nat.lt_or_ge (s.p.toNat + 1) s.cfg.colorBits).elim (⟨_, .oeoffPlane h hr ·⟩) (⟨_, .oeoffLast h hr ·⟩)

/-- Everything the sequencer's turn can do. -/
theorem microStep_of_exec {s t : State} (h : exec s.phase.microOp s = .next t) : MicroStep s t := by
  obtain ⟨u, hu⟩ := exists_microStep_of_data (s := s) fun hphase => exists_of_exec_data (t := t) (by rwa [hphase] at h)
  obtain rfl := Host.Outcome.next.inj (hu.exec_microOp.symm.trans h)
  exact hu

/-- A block with the invariant always has a sequencer step to take or to pass. -/
theorem Inv.exists_microStep {s : State} (h : Inv s) : ∃ t, MicroStep s t := by
  refine exists_microStep_of_data fun hphase => ?_
  have hc := h.counters.column (.inl hphase)
  have hr := h.counters.r
  unfold rows at hr
  have hfront := fun hdbuf => (h.flags.single hdbuf).1
  exact ⟨_, _, State.pixelAt_scan hfront hc (by omega), State.pixelAt_scan hfront hc (by rw [rows]; omega), h.counters.p⟩

/-- The agenda plays no part in a sequencer step. -/
theorem MicroStep.withAgenda {s t : State} (h : MicroStep s t) (turns : List Turn) :
    MicroStep { s with agenda := turns } { t with agenda := turns } := by
  cases h with
  | idle h => exact .idle h
  | plane h => exact .plane h
  | blank h => exact .blank h
  | addr h => exact .addr h
  | data up lo h hup hlo hp => exact MicroStep.data (s := { s with agenda := turns }) up lo h hup hlo hp
  | clkh h => exact .clkh h
  | clklColumn h hc => exact .clklColumn h hc
  | clklLast h hc => exact .clklLast h hc
  | lath h => exact .lath h
  | latl h => exact .latl h
  | oeon h => exact .oeon h
  | holdWait h hcancel => exact .holdWait h hcancel
  | holdCancel h hcancel => exact .holdCancel h hcancel
  | oeoffRow h hr => exact .oeoffRow h hr
  | oeoffPlane h hr hp => exact .oeoffPlane h hr hp
  | oeoffLast h hr hp => exact .oeoffLast h hr hp

/-! ### The invariant along quiet turns (R206 to R210) -/

/-- Neither the time nor the agenda plays a part in the invariant. -/
theorem Inv.withNowAgenda {s : State} (h : Inv s) (now : Nat) (turns : List Turn) :
    Inv { s with now := now, agenda := turns } := by
  obtain ⟨config, ⟨oe, armed, length, idle⟩, ⟨clk, lat⟩, ⟨single, exclusive, ended⟩,
    ⟨hp, hr, hc, column, hold, unwired⟩, ⟨wf, cells⟩⟩ := h
  exact ⟨config, ⟨oe, armed, length, idle⟩, ⟨clk, lat⟩, ⟨single, exclusive, ended⟩,
    ⟨hp, hr, hc, column, hold, unwired⟩, ⟨wf, cells⟩⟩

theorem Inv.withAgenda {s : State} (h : Inv s) (turns : List Turn) : Inv { s with agenda := turns } :=
  h.withNowAgenda s.now turns

theorem Inv.tickTurn {s : State} (h : Inv s) : Inv (tickTurn s) := h.withNowAgenda (s.now + 1) s.agenda

/-- The hold length fits in 39 bits (R112). -/
theorem holdLength_lt (unit : BitVec 32) (bri : BitVec 8) (p : BitVec 3) : (holdLength unit bri p).toNat < 2 ^ 39 := by
  rw [holdLength_toNat]
  calc 2 ^ p.toNat * scaledUnit unit bri
      ≤ 2 ^ 7 * scaledUnit unit bri :=
        Nat.mul_le_mul_right _ (Nat.pow_le_pow_right (by decide) (Nat.le_of_lt_succ p.isLt))
    _ < 2 ^ 7 * 2 ^ 32 := Nat.mul_lt_mul_of_pos_left (scaledUnit_lt unit bri) (by decide)

/-- An unwired address line is 0 (spec/10_state.md R34). -/
theorem addressPins_unwired (cfg : Config) (r : BitVec 5) {i : Nat} (h : cfg.nAddr ≤ i) :
    (addressPins cfg r).getLsbD i = false := by
  obtain hi | hi := Nat.lt_or_ge i 5
  · rw [addressPins_getLsbD cfg r hi, decide_eq_false h.not_gt, Bool.false_and]
  · exact BitVec.getLsbD_of_ge _ _ hi

section
variable {s t : State} (hs : Inv s)
include hs

theorem Inv.rows_le : rows s.cfg ≤ 32 := by
  have hheight := hs.config.height
  unfold rows
  omega

/-- The column counter has room for its successor while it is inside the panel. -/
theorem Inv.toNat_next_c (h : s.phase = .clkl) : (BitVec.ofNat 16 (s.c.toNat + 1)).toNat = s.c.toNat + 1 := by
  have hc := hs.counters.column (.inr (.inr h))
  have hwidth := hs.config.width
  exact toNat_ofNat_succ (by omega)

theorem Inv.toNat_next_r (h : s.r.toNat + 1 < rows s.cfg) : (BitVec.ofNat 5 (s.r.toNat + 1)).toNat = s.r.toNat + 1 :=
  toNat_ofNat_succ (h.trans_le hs.rows_le)

theorem Inv.toNat_next_p (h : s.p.toNat + 1 < s.cfg.colorBits) :
    (BitVec.ofNat 3 (s.p.toNat + 1)).toNat = s.p.toNat + 1 :=
  toNat_ofNat_succ (h.trans_le hs.config.colorBits.2)

theorem MicroStep.oeDiscipline (h : MicroStep s t) : OeDiscipline t := by
  obtain ⟨hoe, harmed, hlength, hidle⟩ := hs.oe
  cases h with
  | idle | holdWait => exact hs.oe
  | plane h | blank h | addr h | data _ _ h | clkh h | clklColumn h | clklLast h | lath h | latl h | oeon h | holdCancel h
    | oeoffRow h | oeoffPlane h | oeoffLast h => constructor <;> simp_all

theorem MicroStep.pulseDiscipline (h : MicroStep s t) : PulseDiscipline t := by
  obtain ⟨hclk, hlat⟩ := hs.pulse
  cases h with
  | idle | holdWait => exact hs.pulse
  | plane h | blank h | addr h | data _ _ h | clkh h | clklColumn h | clklLast h | lath h | latl h | oeon h | holdCancel h
    | oeoffRow h | oeoffPlane h | oeoffLast h => constructor <;> simp_all

theorem MicroStep.flagDiscipline (h : MicroStep s t) : FlagDiscipline t := by
  obtain ⟨hsingle, hexclusive, hended⟩ := hs.flags
  cases h with
  | idle | holdWait => exact hs.flags
  | plane h | blank h | addr h | data _ _ h | clkh h | clklColumn h | clklLast h | lath h | latl h | oeon h | holdCancel h
    | oeoffRow h | oeoffPlane h | oeoffLast h => constructor <;> simp_all

theorem MicroStep.counterBounds (h : MicroStep s t) : CounterBounds t := by
  obtain ⟨hp, hr, hc, hcolumn, hhold, hunwired⟩ := hs.counters
  cases h with
  | idle | holdWait => exact hs.counters
  | plane h =>
    exact ⟨hp, Nat.zero_lt_of_lt hr, hc, by simp, holdLength_lt _ _ _, hunwired⟩
  | addr h =>
    exact ⟨hp, hr, Nat.zero_le _, fun _ => hs.config.width.1, hhold, fun _ => addressPins_unwired s.cfg s.r⟩
  | clklColumn h hlt =>
    have hnext := hs.toNat_next_c h
    exact ⟨hp, hr, hnext.trans_le hlt.le, fun _ => hnext.trans_lt hlt, hhold, hunwired⟩
  | clklLast h =>
    have hnext := hs.toNat_next_c h
    exact ⟨hp, hr, hnext.trans_le (hcolumn (.inr (.inr h))), by simp, hhold, hunwired⟩
  | oeoffRow h hlt => exact ⟨hp, (hs.toNat_next_r hlt).trans_lt hlt, hc, by simp, hhold, hunwired⟩
  | oeoffPlane h _ hlt => exact ⟨(hs.toNat_next_p hlt).trans_lt hlt, hr, hc, by simp, hhold, hunwired⟩
  | data _ _ h => exact ⟨hp, hr, hc, fun _ => hcolumn (.inl h), hhold, hunwired⟩
  | clkh h => exact ⟨hp, hr, hc, fun _ => hcolumn (.inr (.inl h)), hhold, hunwired⟩
  | blank | lath | latl | oeon | holdCancel | oeoffLast => exact ⟨hp, hr, hc, by simp, hhold, hunwired⟩

/-- A sequencer step keeps the invariant. -/
theorem MicroStep.inv (h : MicroStep s t) : Inv t where
  config := h.cfg ▸ hs.config
  oe := h.oeDiscipline hs
  pulse := h.pulseDiscipline hs
  flags := h.flagDiscipline hs
  counters := h.counterBounds hs
  memory := by
    have hfb := State.hostWritten_fb h.hostWritten
    exact ⟨hfb ▸ hs.memory.wf, hfb ▸ h.cfg ▸ hs.memory.cells⟩

/-- So does the timer's completion. -/
theorem Inv.timerComplete (h : s.phase = .hold) : Inv s.timerComplete where
  config := hs.config
  oe := by
    obtain ⟨hoe, -, -, -⟩ := hs.oe
    constructor <;> simp_all
  pulse := by
    obtain ⟨hclk, hlat⟩ := hs.pulse
    constructor <;> simp_all
  flags := by
    obtain ⟨hsingle, hexclusive, hended⟩ := hs.flags
    constructor <;> simp_all
  counters := by
    obtain ⟨hp, hr, hc, -, hhold, hunwired⟩ := hs.counters
    exact ⟨hp, hr, hc, by simp, hhold, hunwired⟩
  memory := ⟨hs.memory.wf, hs.memory.cells⟩

end

/-! ### START (R144) -/

theorem exec_start_of_idle {s : State} (h : s.phase = .idle) :
    exec .start s = .next (({ s with
      front := s.frontAfterStart
      swapPending := false
      done := false
      cancelled := false
      cancelPending := false
      p := 0
      r := 0
      c := 0
      phase := .plane }).emit (.refreshStart s.frontAfterStart)) := by
  rw [exec, execStart, if_pos h]

/-- With one buffer START leaves FRONT at 0 (R209). -/
theorem Inv.frontAfterStart {s : State} (hs : Inv s) (h : s.cfg.dbuf = false) : s.frontAfterStart = false := by
  obtain ⟨hfront, hswap⟩ := hs.flags.single h
  simp [State.frontAfterStart, hfront, hswap]

/-- START keeps the invariant. -/
theorem inv_start {s t : State} (hs : Inv s) (hidle : s.phase = .idle) (h : exec .start s = .next t) : Inv t := by
  obtain rfl := Host.Outcome.next.inj ((exec_start_of_idle hidle).symm.trans h)
  obtain ⟨hoe, harmed, -, -⟩ := hs.oe
  obtain ⟨hclk, hlat⟩ := hs.pulse
  exact {
    config := hs.config
    oe := by constructor <;> simp_all
    pulse := by constructor <;> simp_all
    flags := ⟨fun hdbuf => ⟨hs.frontAfterStart hdbuf, rfl⟩, by simp, by simp⟩
    counters := ⟨hs.config.colorBits.1, Nat.zero_lt_of_lt hs.counters.r, Nat.zero_le _, by simp, hs.counters.hold,
      hs.counters.unwired⟩
    memory := ⟨hs.memory.wf, hs.memory.cells⟩ }

/-! ### The steps and waits of a refresh (R130) -/

/-- The sequencer steps after row `r` of bitplane `p`. -/
def stepsAfter (cfg : Config) (r p : Nat) : Nat :=
  (rows cfg - 1 - r) * rowSteps cfg + (cfg.colorBits - 1 - p) * planeSteps cfg

theorem stepsAfterRow_eq (s : State) : stepsAfterRow s = stepsAfter s.cfg s.r.toNat s.p.toNat := rfl

section
variable {cfg : Config} {r p : Nat}

/-- A bitplane is its PLANE, its row 0, and what comes after. -/
theorem planeSteps_add (h : 0 < rows cfg) :
    planeSteps cfg + (cfg.colorBits - 1 - p) * planeSteps cfg = 1 + rowSteps cfg + stepsAfter cfg 0 p := by
  obtain ⟨n, hn⟩ := Nat.exists_eq_add_of_lt h
  have hsplit : rows cfg * rowSteps cfg = rowSteps cfg + (rows cfg - 1 - 0) * rowSteps cfg := by
    rw [hn, Nat.zero_add, Nat.add_sub_cancel, Nat.sub_zero, Nat.add_mul, Nat.one_mul, Nat.add_comm]
  rw [stepsAfter, ← Nat.add_assoc, Nat.add_assoc 1, ← hsplit, planeSteps]

/-- Before the last row, the next row follows. -/
theorem stepsAfter_of_row (h : r + 1 < rows cfg) : stepsAfter cfg r p = rowSteps cfg + stepsAfter cfg (r + 1) p := by
  obtain ⟨n, hn⟩ := Nat.exists_eq_add_of_lt h
  rw [stepsAfter, stepsAfter, show rows cfg - 1 - r = n + 1 by omega, show rows cfg - 1 - (r + 1) = n by omega,
    Nat.add_mul, Nat.one_mul]
  omega

/-- After the last row, the next bitplane follows. -/
theorem stepsAfter_of_plane (hr : rows cfg ≤ r + 1) (hp : p + 1 < cfg.colorBits) :
    stepsAfter cfg r p = planeSteps cfg + (cfg.colorBits - 1 - (p + 1)) * planeSteps cfg := by
  obtain ⟨n, hn⟩ := Nat.exists_eq_add_of_lt hp
  rw [stepsAfter, show rows cfg - 1 - r = 0 by omega, show cfg.colorBits - 1 - p = n + 1 by omega,
    show cfg.colorBits - 1 - (p + 1) = n by omega, Nat.add_mul, Nat.one_mul]
  omega

/-- After the last row of the last bitplane nothing follows. -/
theorem stepsAfter_of_last (hr : rows cfg ≤ r + 1) (hp : cfg.colorBits ≤ p + 1) : stepsAfter cfg r p = 0 := by
  rw [stepsAfter, show rows cfg - 1 - r = 0 by omega, show cfg.colorBits - 1 - p = 0 by omega, Nat.zero_mul, Nat.zero_mul]

/-- The waits of this bitplane and of those after it. -/
theorem rows_mul_sub (hp : p < cfg.colorBits) :
    rows cfg * (cfg.colorBits - p) = rows cfg + rows cfg * (cfg.colorBits - 1 - p) := by
  rw [show cfg.colorBits - p = 1 + (cfg.colorBits - 1 - p) by omega, Nat.mul_add, Nat.mul_one]

end

section
variable {s t : State} (hs : Inv s)
include hs

/-- A sequencer step outside IDLE and HOLD brings IDLE one step nearer. -/
theorem MicroStep.stepsLeft_succ (hidle : s.phase ≠ .idle) (hhold : s.phase ≠ .hold) (h : MicroStep s t) :
    stepsLeft t + 1 = stepsLeft s := by
  cases h with
  | idle h => exact absurd h hidle
  | holdWait h | holdCancel h => exact absurd h hhold
  | plane h =>
    have hplane := planeSteps_add (p := s.p.toNat) (Nat.zero_lt_of_lt hs.counters.r)
    simp [stepsLeft, h, stepsAfterRow_eq]
    omega
  | blank h | addr h | lath h | latl h | oeon h =>
    simp [stepsLeft, h, stepsAfterRow_eq, rowSteps]
    omega
  | data _ _ h =>
    have hc := hs.counters.column (.inl h)
    simp [stepsLeft, h, stepsAfterRow_eq]
    omega
  | clkh h =>
    have hc := hs.counters.column (.inr (.inl h))
    simp [stepsLeft, h, stepsAfterRow_eq]
    omega
  | clklColumn h hc | clklLast h hc =>
    have hcolumn := hs.counters.column (.inr (.inr h))
    simp [stepsLeft, h, stepsAfterRow_eq, hs.toNat_next_c h, -BitVec.toNat_ofNat]
    omega
  | oeoffRow h hr =>
    have hafter := stepsAfter_of_row (p := s.p.toNat) hr
    simp [stepsLeft, h, stepsAfterRow_eq, hs.toNat_next_r hr, -BitVec.toNat_ofNat]
    omega
  | oeoffPlane h hr hp =>
    have hafter := stepsAfter_of_plane hr hp
    simp [stepsLeft, h, stepsAfterRow_eq, hs.toNat_next_p hp, -BitVec.toNat_ofNat]
    omega
  | oeoffLast h hr hp => simp [stepsLeft, h, stepsAfterRow_eq, stepsAfter_of_last hr hp]

/-- It completes no wait. -/
theorem MicroStep.waitsLeft_eq (hidle : s.phase ≠ .idle) (hhold : s.phase ≠ .hold) (h : MicroStep s t) :
    waitsLeft t = waitsLeft s := by
  cases h with
  | idle h => exact absurd h hidle
  | holdWait h | holdCancel h => exact absurd h hhold
  | plane h => simp [waitsLeft, h, rows_mul_sub hs.counters.p]
  | blank h | addr h | data _ _ h | clkh h | clklColumn h | clklLast h | lath h | latl h | oeon h =>
    simp [waitsLeft, h]
  | oeoffRow h hr =>
    simp [waitsLeft, h, hs.toNat_next_r hr, -BitVec.toNat_ofNat]
    omega
  | oeoffPlane h hr hp =>
    have hrow : rows s.cfg - 1 - s.r.toNat = 0 := by omega
    have hplane : s.cfg.colorBits - 1 - s.p.toNat = s.cfg.colorBits - (s.p.toNat + 1) := by omega
    simp [waitsLeft, h, hs.toNat_next_p hp, hrow, hplane, -BitVec.toNat_ofNat]
  | oeoffLast h hr hp =>
    have hrow : rows s.cfg - 1 - s.r.toNat = 0 := by omega
    have hplane : s.cfg.colorBits - 1 - s.p.toNat = 0 := by omega
    simp [waitsLeft, h, hrow, hplane]

omit hs in
/-- The timer's completion takes no sequencer step. -/
theorem stepsLeft_timerComplete (h : s.phase = .hold) : stepsLeft s.timerComplete = stepsLeft s := by
  simp [stepsLeft, h, stepsAfterRow_eq]

/-- The timer's completion completes one wait. -/
theorem waitsLeft_timerComplete (h : s.phase = .hold) : waitsLeft s.timerComplete + 1 = waitsLeft s := by
  have hr := hs.counters.r
  simp [waitsLeft, h]
  omega

/-- START leaves the steps and waits of COLOR_BITS bitplanes. -/
theorem measures_of_start (hidle : s.phase = .idle) (h : exec .start s = .next t) :
    stepsLeft t = s.cfg.colorBits * planeSteps s.cfg ∧ waitsLeft t = s.cfg.colorBits * rows s.cfg := by
  obtain rfl := Host.Outcome.next.inj ((exec_start_of_idle hidle).symm.trans h)
  obtain ⟨n, hn⟩ := Nat.exists_eq_add_of_lt hs.config.colorBits.1
  simp [stepsLeft, waitsLeft, hn]
  constructor <;> ring

omit hs in
/-- No step is left in IDLE only. -/
theorem stepsLeft_eq_zero_iff : stepsLeft s = 0 ↔ s.phase = .idle := by
  cases h : s.phase
  all_goals simp [stepsLeft, h, rowSteps, planeSteps]

end

theorem Inv.timerEnabled {s : State} (hs : Inv s) (h : s.phase = .hold) (hdeadline : s.tmrDeadline ≤ s.now) :
    s.timerEnabled = true :=
  (State.timerEnabled_iff s).2 ⟨h, hs.oe.armed.2 h, hdeadline⟩

/-- Settles O50: the sequencer's and the timer's steps against the measures, and the measures after START. -/
theorem refreshTakesTheStatedSteps : Obligations.RefreshTakesTheStatedSteps := by
  refine ⟨?_, ?_, fun s t => measures_of_start, fun s _ => stepsLeft_eq_zero_iff⟩
  · intro s t rest hs hagenda hidle hhold hstep
    have hmicro : MicroStep { s with agenda := rest } t := microStep_of_exec ((step_of_agenda hagenda).symm.trans hstep)
    have hs' := hs.withAgenda rest
    exact ⟨(hmicro.stepsLeft_succ hs' hidle hhold :), (hmicro.waitsLeft_eq hs' hidle hhold :)⟩
  · intro s t rest hs hagenda hhold hdeadline hstep
    have hs' := hs.withAgenda rest
    have hrun : timerTurn { s with agenda := rest } = t := Host.Outcome.next.inj ((step_of_agenda hagenda).symm.trans hstep)
    rw [timerTurn_of_enabled (hs'.timerEnabled hhold hdeadline)] at hrun
    exact hrun ▸ ⟨stepsLeft_timerComplete hhold, waitsLeft_timerComplete hs' hhold⟩

/-! ### A refresh left to itself (R130) -/

/-- A run goes on from where its first step leads. -/
theorem run_succ_of_step {M : Host.Core} {n : Nat} {s t : M.State} (h : M.step s = .next t) :
    M.run (n + 1) s = M.run n t := by
  rw [Host.Core.run, h]

/-- The eager schedule where the host has nothing to do (log entry 4). -/
theorem State.eagerTurn_of_noHost {s : State} (h : s.host = []) :
    s.eagerTurn = if s.phase = .hold ∧ s.cancelPending = false then if s.timerEnabled then .timer else .tick
      else .sequencer := by
  rw [State.eagerTurn, State.hostReady, h]
  exact if_neg Bool.false_ne_true

/-- A block with the invariant that nobody gives a turn or a command. -/
structure Unattended (s : State) : Prop where
  inv : Inv s
  agenda : s.agenda = []
  host : s.host = []

/-- How far the eager schedule is from IDLE: the steps and waits to come, then the ticks of the wait in flight. -/
def refreshDistance (s : State) : Nat × Nat := (stepsLeft s + waitsLeft s, s.tmrDeadline - s.now)

/-- A sequencer step out of a busy phase brings IDLE nearer, unless it waits. -/
theorem MicroStep.distance_lt {s t : State} (hs : Inv s) (hbusy : s.phase ≠ .idle)
    (hwait : ¬(s.phase = .hold ∧ s.cancelPending = false)) (h : MicroStep s t) :
    stepsLeft t + waitsLeft t < stepsLeft s + waitsLeft s := by
  by_cases hhold : s.phase = .hold
  · cases h with
    | holdWait _ hcancel => exact absurd ⟨hhold, hcancel⟩ hwait
    | holdCancel =>
      have hpos : stepsLeft s ≠ 0 := mt stepsLeft_eq_zero_iff.1 hbusy
      have hsteps : stepsLeft s.cancelStep = 0 := rfl
      have hwaits : waitsLeft s.cancelStep = 0 := rfl
      omega
    | idle h | plane h | blank h | addr h | data _ _ h | clkh h | clklColumn h | clklLast h | lath h | latl h | oeon h
      | oeoffRow h | oeoffPlane h | oeoffLast h => cases hhold.symm.trans h
  · have hsteps := h.stepsLeft_succ hs hbusy hhold
    have hwaits := h.waitsLeft_eq hs hbusy hhold
    omega

/-- Every eager step of a busy block comes nearer to IDLE. -/
theorem Unattended.step {s : State} (h : Unattended s) (hbusy : s.phase ≠ .idle) :
    ∃ t, step s = .next t ∧ Unattended t ∧ Prod.Lex (· < ·) (· < ·) (refreshDistance t) (refreshDistance s) := by
  obtain ⟨hs, hagenda, hhost⟩ := h
  have hturn := (step_of_empty hagenda).trans (by rw [State.eagerTurn_of_noHost hhost])
  by_cases hwait : s.phase = .hold ∧ s.cancelPending = false
  · rw [if_pos hwait] at hturn
    by_cases henabled : s.timerEnabled = true
    · rw [if_pos henabled, takeTurn, timerTurn_of_enabled henabled] at hturn
      have hwaits := waitsLeft_timerComplete hs hwait.1
      refine ⟨_, hturn, ⟨hs.timerComplete hwait.1, hagenda, hhost⟩, .left _ _ ?_⟩
      rw [stepsLeft_timerComplete hwait.1]
      omega
    · rw [if_neg henabled] at hturn
      have hearly : ¬s.tmrDeadline ≤ s.now := mt (hs.timerEnabled hwait.1) henabled
      refine ⟨_, hturn, ⟨hs.tickTurn, hagenda, hhost⟩, .right _ ?_⟩
      rw [tickTurn_tmrDeadline, tickTurn_now]
      omega
  · rw [if_neg hwait] at hturn
    obtain ⟨t, ht⟩ := hs.exists_microStep
    have hrun := ht.exec_microOp
    exact ⟨t, hturn.trans hrun, ⟨ht.inv hs, (exec_agenda hrun).trans hagenda, (exec_host hrun).trans hhost⟩,
      .left _ _ (ht.distance_lt hs hbusy hwait)⟩

/-- By induction on the distance, some number of eager steps reaches IDLE. -/
theorem Unattended.reaches_idle {s : State} (h : Unattended s) :
    ∃ n t, Host.Core.run core n s = .next t ∧ Inv t ∧ t.phase = .idle := by
  by_cases hidle : s.phase = .idle
  · exact ⟨0, s, rfl, h.inv, hidle⟩
  · obtain ⟨m, hstep, hm, hnearer⟩ := h.step hidle
    obtain ⟨n, t, hrun, ht⟩ := hm.reaches_idle
    exact ⟨n + 1, t, (run_succ_of_step hstep).trans hrun, ht⟩
termination_by refreshDistance s
decreasing_by exact hnearer

/-- Outside HOLD and OEOFF the output is disabled. -/
theorem Inv.oe_eq_false {s : State} (hs : Inv s) (hhold : s.phase ≠ .hold) (hoeoff : s.phase ≠ .oeoff) :
    s.pins.oe = false := by
  rw [← Bool.not_eq_true, hs.oe.oe]
  exact not_or.2 ⟨hhold, hoeoff⟩

/-- Settles O51: the eager schedule reaches IDLE, and the invariant disables the output there. -/
theorem everyRefreshEnds : Obligations.EveryRefreshEnds := by
  intro s hs hagenda hhost
  obtain ⟨n, t, hrun, ht, hidle⟩ := Unattended.reaches_idle ⟨hs, hagenda, hhost⟩
  exact ⟨n, t, hrun, hidle, ht.oe_eq_false (by simp [hidle]) (by simp [hidle])⟩

/-! ### Cancellation against the timer (R129) -/

/-- A run goes on from where its first turn leads, whatever the agenda there. -/
theorem runTurns_cons {τ : Turn} {turns : List Turn} {s m : State}
    (h : takeTurn τ { s with agenda := turns } = .next { m with agenda := turns }) :
    runTurns (τ :: turns) s = runTurns turns m :=
  run_succ_of_step (M := core) ((step_of_agenda (s := { s with agenda := τ :: turns }) rfl).trans h)

theorem runTurns_sequencer {s m : State} (h : MicroStep s m) (turns : List Turn) :
    runTurns (.sequencer :: turns) s = runTurns turns m :=
  runTurns_cons (h.withAgenda turns).exec_microOp

theorem runTurns_timer {s : State} (h : s.timerEnabled = true) (turns : List Turn) :
    runTurns (.timer :: turns) s = runTurns turns s.timerComplete :=
  runTurns_cons (congrArg Host.Outcome.next (timerTurn_of_enabled (s := { s with agenda := turns }) h))

/-- While busy, the last refresh's flags are clear (R209). -/
theorem Inv.flags_of_busy {s : State} (hs : Inv s) (hbusy : s.phase ≠ .idle) : s.done = false ∧ s.cancelled = false := by
  simpa using mt hs.flags.ended hbusy

/-- The cancel step in HOLD. -/
theorem runTurns_cancel {s : State} (hs : Inv s) (hhold : s.phase = .hold) (hcancel : s.cancelPending = true) :
    ∃ e, runTurns [.sequencer] s = .next e ∧ e.pins.oe = false ∧ e.phase = .idle ∧ e.cancelled = true ∧ e.done = false
      ∧ e.cancelPending = false :=
  ⟨_, runTurns_sequencer (.holdCancel hhold hcancel) [], rfl, rfl, rfl, (hs.flags_of_busy (by simp [hhold])).1, rfl⟩

/-- The row whose hold comes next: PLANE begins at row 0. -/
def rowEntered (s : State) : BitVec 5 := if s.phase = .plane then 0 else s.r

/-- On its way to the hold of a row, the sequencer keeps the request to cancel, the bitplane and the row entered. -/
theorem MicroStep.towards_hold {s t : State} (hidle : s.phase ≠ .idle) (hhold : s.phase ≠ .hold) (hoeoff : s.phase ≠ .oeoff)
    (h : MicroStep s t) :
    t.phase ≠ .idle ∧ t.phase ≠ .oeoff ∧ t.cancelPending = s.cancelPending ∧ t.p = s.p ∧ rowEntered t = rowEntered s := by
  cases h with
  | idle h => exact absurd h hidle
  | holdWait h | holdCancel h => exact absurd h hhold
  | oeoffRow h | oeoffPlane h | oeoffLast h => exact absurd h hoeoff
  | plane h | blank h | addr h | data _ _ h | clkh h | clklColumn h | clklLast h | lath h | latl h | oeon h =>
    simp [rowEntered, h]

/-- The sequencer's own turns lead to the hold of the row entered, by induction on the steps left. -/
theorem reaches_hold {s : State} (hs : Inv s) (hidle : s.phase ≠ .idle) (hoeoff : s.phase ≠ .oeoff) :
    ∃ n h, runTurns (List.replicate n .sequencer) s = .next h ∧ Inv h ∧ h.phase = .hold
      ∧ h.cancelPending = s.cancelPending ∧ h.p = s.p ∧ h.r = rowEntered s := by
  by_cases hhold : s.phase = .hold
  · exact ⟨0, _, runTurns_nil s, hs.withAgenda [], hhold, rfl, rfl, by simp [rowEntered, hhold]⟩
  · obtain ⟨m, hm⟩ := hs.exists_microStep
    have hnearer := hm.stepsLeft_succ hs hidle hhold
    obtain ⟨hidle', hoeoff', hcancel, hp, hr⟩ := hm.towards_hold hidle hhold hoeoff
    obtain ⟨n, h, hrun, hinv, hphase, hcancel', hp', hr'⟩ := reaches_hold (hm.inv hs) hidle' hoeoff'
    exact ⟨n + 1, h, (runTurns_sequencer hm _).trans hrun, hinv, hphase, hcancel'.trans hcancel, hp'.trans hp, hr'.trans hr⟩
termination_by stepsLeft s
decreasing_by omega

/-- Before the last row of the last bitplane, OEOFF enters the next row in scan order (R211) with the output disabled. -/
theorem oeoff_enters_next_row {s : State} (hs : Inv s) (h : s.phase = .oeoff)
    (hmore : ¬(s.r.toNat + 1 = rows s.cfg ∧ s.p.toNat + 1 = s.cfg.colorBits)) :
    ∃ v, MicroStep s v ∧ (v.phase = .blank ∨ v.phase = .plane) ∧ v.pins.oe = false ∧ v.cancelPending = s.cancelPending
      ∧ v.cancelled = s.cancelled
      ∧ v.p.toNat * rows s.cfg + (rowEntered v).toNat = s.p.toNat * rows s.cfg + s.r.toNat + 1 := by
  have hr := hs.counters.r
  have hp := hs.counters.p
  by_cases hrow : s.r.toNat + 1 < rows s.cfg
  · refine ⟨_, .oeoffRow h hrow, .inl rfl, rfl, rfl, rfl, ?_⟩
    simp [rowEntered, hs.toNat_next_r hrow, Nat.add_assoc, -BitVec.toNat_ofNat]
  · have hplane : s.p.toNat + 1 < s.cfg.colorBits := by omega
    refine ⟨_, .oeoffPlane h (by omega) hplane, .inr rfl, rfl, rfl, rfl, ?_⟩
    simp [rowEntered, hs.toNat_next_p hplane, Nat.add_mul, -BitVec.toNat_ofNat]
    omega

/-- Settles O40: the cancel step at once, or the timer and OEOFF and then the cancel step in the hold of the next row. -/
theorem cancelAndTimerInEitherOrder : Obligations.CancelAndTimerInEitherOrder := by
  intro s hs hhold hcancel hdeadline
  have henabled := hs.timerEnabled hhold hdeadline
  have hu := hs.timerComplete hhold
  obtain ⟨-, hcancelled⟩ := hs.flags_of_busy (by simp [hhold])
  refine ⟨?_, ⟨_, runTurns_timer henabled [], rfl, hs.oe.oe.2 (.inl hhold), hcancel⟩, ?_⟩
  · obtain ⟨e, hrun, hoe, hidle, hset, hdone, -⟩ := runTurns_cancel hs hhold hcancel
    exact ⟨e, hrun, hoe, hidle, hset, hdone⟩
  by_cases hlast : s.r.toNat + 1 = rows s.cfg ∧ s.p.toNat + 1 = s.cfg.colorBits
  · have hv : MicroStep s.timerComplete _ := .oeoffLast rfl hlast.1.ge hlast.2.ge
    exact ⟨_, (runTurns_timer henabled _).trans (runTurns_sequencer hv []), rfl, hcancelled, fun _ => ⟨rfl, rfl, rfl⟩,
      fun hmore => absurd hlast hmore⟩
  · obtain ⟨v, hv, hphase, hoe, hkept, hclear, hnext⟩ := oeoff_enters_next_row hu rfl hlast
    obtain ⟨n, h, hrun, hh, hhold', hcancel', hp, hr⟩ :=
      reaches_hold (hv.inv hu) (by obtain h | h := hphase <;> simp [h]) (by obtain h | h := hphase <;> simp [h])
    have hpending : h.cancelPending = true := hcancel'.trans (hkept.trans hcancel)
    obtain ⟨e, hend⟩ := runTurns_cancel hh hhold' hpending
    rw [← hp, ← hr] at hnext
    exact ⟨_, (runTurns_timer henabled _).trans (runTurns_sequencer hv []), hoe, hclear.trans hcancelled,
      fun h => absurd h hlast,
      fun _ => ⟨hphase, hkept.trans hcancel, n, h, e, hrun, hhold', hpending, hnext, hend⟩⟩

/-! ### What each turn can do to the sequencer and the timer (R9, R58, R104) -/

/-- The parts of the state that the host writes with a START only: the sequencer's position, the timer, the pins, the trace, and
how the last refresh ended. -/
structure SequencerPart where
  phase : Phase
  p : BitVec 3
  r : BitVec 5
  c : BitVec 16
  hold : Ticks
  tmrArmed : Bool
  tmrN : Ticks
  tmrDeadline : Nat
  pins : Pins
  trace : List Event
  done : Bool
  cancelled : Bool

/-- The sequencer's part of a state. -/
def State.sequencerPart (s : State) : SequencerPart :=
  ⟨s.phase, s.p, s.r, s.c, s.hold, s.tmrArmed, s.tmrN, s.tmrDeadline, s.pins, s.trace, s.done, s.cancelled⟩

theorem WritesOnlyFrameBuffer.sequencerPart {i : Instr} {s t : State} (hwrites : WritesOnlyFrameBuffer i s)
    (h : exec i s = .next t) : t.sequencerPart = s.sequencerPart := by
  obtain ⟨fb, resp, front, swapPending, hrun⟩ := hwrites
  obtain rfl := Host.Outcome.next.inj (hrun.symm.trans h)
  rfl

/-- An instruction of the host leaves the sequencer's part alone, or is a START in IDLE. -/
theorem exec_ofHost_cases {i : Instr} {s t : State} (hi : i.ofHost = true) (h : exec i s = .next t) :
    t.sequencerPart = s.sequencerPart ∨ i = .start ∧ s.phase = .idle ∧ t.phase = .plane := by
  cases i with
  | setpx x y r g b => exact .inl ((setpx_writesOnlyFrameBuffer x y r g b s).sequencerPart h)
  | getpx x y => exact .inl ((getpx_writesOnlyFrameBuffer x y s).sequencerPart h)
  | clear r g b => exact .inl ((clear_writesOnlyFrameBuffer r g b s).sequencerPart h)
  | swap => exact .inl ((swap_writesOnlyFrameBuffer s).sequencerPart h)
  | setbri | adjbri | setunit | rdcsr =>
    obtain rfl := Host.Outcome.next.inj h
    exact .inl rfl
  | start =>
    by_cases hidle : s.phase = .idle
    · obtain rfl := Host.Outcome.next.inj ((exec_start_of_idle hidle).symm.trans h)
      exact .inr ⟨rfl, hidle, rfl⟩
    · rw [exec, execStart, if_neg hidle] at h
      obtain rfl := Host.Outcome.next.inj h
      exact .inl rfl
  | cancel =>
    rw [exec, execCancel] at h
    split at h
    all_goals
      obtain rfl := Host.Outcome.next.inj h
      exact .inl rfl
  | idle | plane | blank | addr | data | clkh | clkl | lath | latl | oeon | hold | oeoff => cases hi

/-- A command word is an instruction of the host: micro-operations are encoded as phase codes. -/
theorem ofHost_of_decodeCommand {w : Word} {i : Instr} (h : decodeCommand w = some i) : i.ofHost = true := by
  have hencode := encode_of_decodeCommand h
  cases i with
  | idle | plane | blank | addr | data | clkh | clkl | lath | latl | oeon | hold | oeoff => cases hencode
  | setpx | getpx | clear | swap | setbri | adjbri | setunit | start | cancel | rdcsr => rfl

theorem hostTurn_sequencer_cases {s t : State} (h : hostTurn s = .next t) :
    t.sequencerPart = s.sequencerPart ∨ s.phase = .idle ∧ t.phase = .plane := by
  obtain ⟨-, hrun⟩ | ⟨w, i, acts, -, hi, hrun⟩ | ⟨w, acts, -, -, hrun⟩ | ⟨n, acts, hrun⟩ := hostTurn_cases s
  all_goals rw [hrun] at h
  · exact .inl (Host.Outcome.next.inj h ▸ rfl)
  · exact (exec_ofHost_cases (ofHost_of_decodeCommand hi) h).imp id And.right
  · exact .inl (Host.Outcome.next.inj h ▸ rfl)
  · exact .inl (Host.Outcome.next.inj h ▸ rfl)

/-- Everything a turn can do to the sequencer's part: nothing, a START, a sequencer step, the timer's completion, or a reset. -/
theorem takeTurn_cases {τ : Turn} {s t : State} (h : takeTurn τ s = .next t) :
    t.sequencerPart = s.sequencerPart ∨ (s.phase = .idle ∧ t.phase = .plane) ∨ MicroStep s t
      ∨ (s.timerEnabled = true ∧ t = s.timerComplete) ∨ ∃ cells, t = s.resetStep cells := by
  cases τ with
  | host => exact (hostTurn_sequencer_cases h).imp id .inl
  | sequencer => exact .inr (.inr (.inl (microStep_of_exec h)))
  | timer =>
    obtain rfl := Host.Outcome.next.inj h
    obtain ⟨henabled, hrun⟩ | ⟨-, hrun⟩ := timerTurn_cases s
    · exact .inr (.inr (.inr (.inl ⟨henabled, hrun⟩)))
    · exact .inl (congrArg State.sequencerPart hrun)
  | tick =>
    obtain rfl := Host.Outcome.next.inj h
    exact .inl rfl
  | reset cells => exact .inr (.inr (.inr (.inr ⟨cells, (Host.Outcome.next.inj h).symm⟩)))

/-- A step is some turn taken, with some agenda left. -/
theorem exists_takeTurn_of_step {s t : State} (h : step s = .next t) :
    ∃ τ rest, takeTurn τ { s with agenda := rest } = .next t := by
  cases hagenda : s.agenda with
  | nil => exact ⟨_, s.agenda, (step_of_empty hagenda).symm.trans h⟩
  | cons τ rest => exact ⟨τ, rest, (step_of_agenda hagenda).symm.trans h⟩

/-! ### The length of a hold (R127, R207, R213) -/

section
variable {s t : State}

/-- OEON sets the deadline. -/
theorem MicroStep.deadline_of_oeon (h : MicroStep s t) (hphase : s.phase = .oeon) :
    t.tmrDeadline = s.now + t.tmrN.toNat := by
  have hrun := h.exec_microOp
  rw [hphase] at hrun
  obtain rfl := Host.Outcome.next.inj ((exec_oeon hphase).symm.trans hrun)
  rfl

/-- In HOLD the sequencer waits or ends the refresh. -/
theorem MicroStep.of_hold (h : MicroStep s t) (hphase : s.phase = .hold) : t = s ∨ t.phase = .idle := by
  have hrun := h.exec_microOp
  rw [hphase] at hrun
  cases hcancel : s.cancelPending with
  | false => exact .inl (Host.Outcome.next.inj ((exec_hold_of_noCancel hphase hcancel).symm.trans hrun)).symm
  | true => exact .inr (Host.Outcome.next.inj ((exec_hold_of_cancel hphase hcancel).symm.trans hrun) ▸ rfl)

/-- No sequencer step enters OEOFF. -/
theorem MicroStep.phase_ne_oeoff (h : MicroStep s t) : t.phase ≠ .oeoff := by
  cases h with
  | idle h | holdWait h => simp [h]
  | plane | blank | addr | data | clkh | clklColumn | clklLast | lath | latl | oeon | holdCancel | oeoffRow | oeoffPlane
    | oeoffLast => exact Phase.noConfusion

/-- What a turn does to a hold. -/
theorem takeTurn_hold {τ : Turn} (hs : Inv s) (h : takeTurn τ s = .next t) :
    (s.phase = .oeon → t.phase = .hold → t.tmrDeadline = s.now + t.tmrN.toNat)
      ∧ (s.phase = .hold → t.phase = .hold → t.tmrDeadline = s.tmrDeadline ∧ t.tmrN = s.tmrN ∧ t.pins.oe = true)
      ∧ (s.phase = .hold → t.phase = .oeoff → s.tmrDeadline ≤ t.now)
      ∧ (t.phase = .oeoff → s.phase = .hold ∨ s.phase = .oeoff) := by
  obtain hsame | ⟨hidle, hplane⟩ | hmicro | ⟨henabled, rfl⟩ | ⟨cells, rfl⟩ := takeTurn_cases h
  · have hphase : t.phase = s.phase := congrArg SequencerPart.phase hsame
    have hdeadline : t.tmrDeadline = s.tmrDeadline := congrArg SequencerPart.tmrDeadline hsame
    have hlength : t.tmrN = s.tmrN := congrArg SequencerPart.tmrN hsame
    have hpins : t.pins = s.pins := congrArg SequencerPart.pins hsame
    rw [hphase, hpins]
    exact ⟨fun h h' => (nomatch h.symm.trans h'), fun h _ => ⟨hdeadline, hlength, hs.oe.oe.2 (.inl h)⟩,
      fun h h' => (nomatch h.symm.trans h'), .inr⟩
  · simp [hidle, hplane]
  · refine ⟨fun h _ => hmicro.deadline_of_oeon h, fun h h' => ?_, fun _ h' => absurd h' hmicro.phase_ne_oeoff,
      fun h' => absurd h' hmicro.phase_ne_oeoff⟩
    obtain rfl | hidle := hmicro.of_hold h
    · exact ⟨rfl, rfl, hs.oe.oe.2 (.inl h)⟩
    · cases hidle.symm.trans h'
  · obtain ⟨hphase, -, hdeadline⟩ := (State.timerEnabled_iff s).1 henabled
    simp [hphase, hdeadline]
  · simp

end

/-- Settles O49: every step is a turn, and what a turn does to a hold does not depend on the agenda. -/
theorem holdLastsAtLeastItsLength : Obligations.HoldLastsAtLeastItsLength := by
  intro s t hs hstep
  obtain ⟨τ, rest, hturn⟩ := exists_takeTurn_of_step hstep
  exact (takeTurn_hold (hs.withAgenda rest) hturn :)

/-! ### The total of the waits (R131, R215) -/

/-- The waits requested between `s` and `t` are `n` ticks in all. -/
def WaitsSum (s t : State) (n : Nat) : Prop := ∃ events, t.trace = events ++ s.trace ∧ waitTotal events = n

theorem waitTotal_append (newer older : List Event) : waitTotal (newer ++ older) = waitTotal newer + waitTotal older := by
  simp [waitTotal]

theorem WaitsSum.trans {s t u : State} {m n : Nat} (h : WaitsSum s t m) (h' : WaitsSum t u n) : WaitsSum s u (m + n) := by
  obtain ⟨older, htrace, hsum⟩ := h
  obtain ⟨newer, htrace', hsum'⟩ := h'
  refine ⟨newer ++ older, by rw [htrace', htrace, List.append_assoc], ?_⟩
  rw [waitTotal_append, hsum, hsum', Nat.add_comm]

/-- The sequencer requests a wait in OEON only, of the length `HOLD`. -/
theorem MicroStep.waitsSum {s t : State} (h : MicroStep s t) :
    WaitsSum s t (if s.phase = .oeon then s.hold.toNat else 0) := by
  cases h with
  | idle h | plane h | holdWait h => exact ⟨[], rfl, by simp [h, waitTotal]⟩
  | blank h | addr h | data _ _ h | clkh h | clklColumn h | clklLast h | lath h | latl h | oeoffRow h | oeoffPlane h =>
    exact ⟨[.pins _], rfl, by simp [h, waitTotal]⟩
  | oeon h => exact ⟨[.wait s.hold, .pins _], rfl, by simp [h, waitTotal]⟩
  | holdCancel h => exact ⟨[.cancelled, .pins _], rfl, by simp [h, waitTotal]⟩
  | oeoffLast h => exact ⟨[.refreshDone, .pins _], rfl, by simp [h, waitTotal]⟩

/-- The weights of the waits that a refresh without a cancellation has requested by now, in units of SU. -/
def waitWeight (s : State) : Nat :=
  match s.phase with
  | .idle => rows s.cfg * (2 ^ s.cfg.colorBits - 1)
  | .plane => rows s.cfg * (2 ^ s.p.toNat - 1)
  | .hold => rows s.cfg * (2 ^ s.p.toNat - 1) + (s.r.toNat + 1) * 2 ^ s.p.toNat
  | .oeoff => rows s.cfg * (2 ^ s.p.toNat - 1) + (s.r.toNat + 1) * 2 ^ s.p.toNat
  | _ => rows s.cfg * (2 ^ s.p.toNat - 1) + s.r.toNat * 2 ^ s.p.toNat

/-- A whole bitplane adds its weight once for each row. -/
theorem rows_mul_two_pow_succ (rows p : Nat) : rows * (2 ^ (p + 1) - 1) = rows * (2 ^ p - 1) + rows * 2 ^ p := by
  have hpos : 1 ≤ 2 ^ p := Nat.one_le_two_pow
  rw [← Nat.mul_add, pow_succ]
  congr 1
  omega

/-- OEON adds the weight of its bitplane, and no other step adds to the weights. -/
theorem MicroStep.waitWeight_eq {s t : State} (hs : Inv s) (hcancel : s.cancelPending = false) (h : MicroStep s t) :
    waitWeight t = waitWeight s + if s.phase = .oeon then 2 ^ s.p.toNat else 0 := by
  have hr := hs.counters.r
  have hp := hs.counters.p
  cases h with
  | idle h | holdWait h => simp [h]
  | holdCancel _ hset => cases hcancel.symm.trans hset
  | plane h | blank h | addr h | data _ _ h | clkh h | clklColumn h | clklLast h | lath h | latl h =>
    simp [waitWeight, h]
  | oeon h => simp [waitWeight, h, Nat.add_mul, Nat.add_assoc]
  | oeoffRow h hlt => simp [waitWeight, h, hs.toNat_next_r hlt, -BitVec.toNat_ofNat]
  | oeoffPlane h hlast hlt =>
    have hrow : s.r.toNat + 1 = rows s.cfg := by omega
    simp [waitWeight, h, hs.toNat_next_p hlt, hrow, rows_mul_two_pow_succ, -BitVec.toNat_ofNat]
  | oeoffLast h hlast hend =>
    have hrow : s.r.toNat + 1 = rows s.cfg := by omega
    have hplane : s.cfg.colorBits = s.p.toNat + 1 := by omega
    simp [waitWeight, h, hrow, hplane, rows_mul_two_pow_succ]

/-- In `t` a refresh begun from the idle state `s` goes on or has completed, with the host quiet and `SU` the scaled unit of `s`. -/
structure RefreshFrom (s t : State) : Prop where
  inv : Inv t
  cfg : t.cfg = s.cfg
  bri : t.bri = s.bri
  unit : t.unit = s.unit
  noCancel : t.cancelPending = false
  hold : t.phase ≠ .idle → t.phase ≠ .plane → t.hold = holdLength s.unit s.bri t.p
  waits : WaitsSum s t (waitWeight t * scaledUnit s.unit s.bri)

section
variable {s t u : State}

theorem RefreshFrom.withAgenda (h : RefreshFrom s t) (turns : List Turn) : RefreshFrom s { t with agenda := turns } :=
  ⟨h.inv.withAgenda turns, h.cfg, h.bri, h.unit, h.noCancel, h.hold, h.waits⟩

theorem RefreshFrom.start (hs : Inv s) (hidle : s.phase = .idle) (h : exec .start s = .next u) : RefreshFrom s u := by
  have hu := inv_start hs hidle h
  obtain rfl := Host.Outcome.next.inj ((exec_start_of_idle hidle).symm.trans h)
  exact ⟨hu, rfl, rfl, rfl, rfl, fun _ h => absurd rfl h, [.refreshStart _], rfl, by simp [waitTotal, waitWeight]⟩

/-- The sequencer requests no cancellation. -/
theorem MicroStep.cancelPending (hcancel : s.cancelPending = false) (h : MicroStep s t) : t.cancelPending = false := by
  cases h with
  | holdCancel | oeoffLast => rfl
  | idle | plane | blank | addr | data | clkh | clklColumn | clklLast | lath | latl | oeon | holdWait | oeoffRow
    | oeoffPlane => exact hcancel

/-- From PLANE on, `HOLD` is the hold length of the bitplane (R112). -/
theorem MicroStep.hold (hs : s.phase ≠ .idle → s.phase ≠ .plane → s.hold = holdLength s.unit s.bri s.p)
    (h : MicroStep s t) : t.phase ≠ .idle → t.phase ≠ .plane → t.hold = holdLength s.unit s.bri t.p := by
  cases h with
  | plane => exact fun _ _ => rfl
  | idle | holdWait => exact hs
  | holdCancel | oeoffLast => exact fun h => absurd rfl h
  | oeoffPlane => exact fun _ h => absurd rfl h
  | blank h | addr h | data _ _ h | clkh h | clklColumn h | clklLast h | lath h | latl h | oeon h | oeoffRow h =>
    exact fun _ _ => hs (by simp [h]) (by simp [h])

theorem RefreshFrom.microStep (h : RefreshFrom s t) (hstep : MicroStep t u) : RefreshFrom s u where
  inv := hstep.inv h.inv
  cfg := hstep.cfg.trans h.cfg
  bri := (congrArg Prod.fst hstep.hostWritten).trans h.bri
  unit := (congrArg (fun e => e.2.1) hstep.hostWritten).trans h.unit
  noCancel := hstep.cancelPending h.noCancel
  hold := by
    have hkept := hstep.hold (by rw [h.unit, h.bri]; exact h.hold)
    rwa [h.unit, h.bri] at hkept
  waits := by
    have hsum := h.waits.trans hstep.waitsSum
    rw [hstep.waitWeight_eq h.inv h.noCancel, Nat.add_mul]
    split_ifs at hsum ⊢ with hoeon
    · rwa [h.hold (by simp [hoeon]) (by simp [hoeon]), holdLength_toNat] at hsum
    · simpa using hsum

theorem RefreshFrom.timerComplete (h : RefreshFrom s t) (hhold : t.phase = .hold) : RefreshFrom s t.timerComplete where
  inv := h.inv.timerComplete hhold
  cfg := h.cfg
  bri := h.bri
  unit := h.unit
  noCancel := h.noCancel
  hold := fun _ _ => h.hold (by simp [hhold]) (by simp [hhold])
  waits := by
    have hweight : waitWeight t.timerComplete = waitWeight t := by simp [waitWeight, hhold]
    rw [hweight]
    exact h.waits.trans (n := 0) ⟨[.waitDone], rfl, rfl⟩

theorem RefreshFrom.takeTurn {τ : Turn} (hquiet : τ.quiet = true) (h : takeTurn τ t = .next u) (ht : RefreshFrom s t) :
    RefreshFrom s u := by
  cases τ with
  | host | reset => cases hquiet
  | sequencer => exact ht.microStep (microStep_of_exec h)
  | timer =>
    obtain rfl := Host.Outcome.next.inj h
    obtain ⟨henabled, hrun⟩ | ⟨-, hrun⟩ := timerTurn_cases t
    · exact hrun ▸ ht.timerComplete ((State.timerEnabled_iff t).1 henabled).1
    · rwa [hrun]
  | tick =>
    obtain rfl := Host.Outcome.next.inj h
    exact ⟨ht.inv.tickTurn, ht.cfg, ht.bri, ht.unit, ht.noCancel, ht.hold, ht.waits⟩

theorem RefreshFrom.runTurns {turns : List Turn} (hquiet : ∀ τ ∈ turns, τ.quiet = true) (h : runTurns turns t = .next u)
    (ht : RefreshFrom s t) : RefreshFrom s u :=
  runTurns_preserves (fun _ turns h => h.withAgenda turns) (fun τ hτ _ _ hrun h => h.takeTurn (hquiet τ hτ) hrun) h ht

end

/-- Settles O54: the weights requested by the time of IDLE are those of all rows and bitplanes. -/
theorem refreshWaitTotal : Obligations.RefreshWaitTotal := by
  intro s u t turns hs hidle hstart hquiet hrun hend
  have ht := RefreshFrom.runTurns hquiet hrun (.start hs hidle hstart)
  have hwaits := ht.waits
  rwa [waitWeight, hend, ht.cfg] at hwaits

end Sys2Proof.Machine

/-! Settles the family of spec/43_control_commands.md: brightness, timing and control, the words that are these commands, and the CSR
read. Each layer's lemmas stand before the theorem that uses them. -/

namespace Sys2Proof.Machine

/-! ### SETBRI, ADJBRI and SETUNIT (R141 to R143) -/

theorem exec_setbri (level : Byte) (s : State) : exec (.setbri level) s = .next { s with bri := level } := rfl

theorem exec_adjbri (delta : Int) (s : State) :
    exec (.adjbri delta) s = .next { s with bri := adjustedBri s.bri delta } := rfl

theorem exec_setunit (ticks : BitVec 32) (s : State) : exec (.setunit ticks) s = .next { s with unit := ticks } := rfl

/-- Settles O22: SETBRI is one write, and opcode 0x10 has the reserved field 55:8. -/
theorem setbriSetsBrightness : Obligations.SetbriSetsBrightness := by
  constructor
  · intro s level
    exact exec_setbri level s
  · intro s w hop
    rw [← exec_setbri]
    exact presentCommand_of_checked s (decodeCommand_of_setbri hop)

/-- Settles O23: the level written is the saturated sum, and opcode 0x11 has the reserved field 55:32. -/
theorem adjbriSaturates : Obligations.AdjbriSaturates := by
  constructor
  · intro s delta
    exact ⟨_, exec_adjbri delta s, adjustedBri_toNat s.bri delta⟩
  · intro s w hop
    exact presentCommand_of_checked s (decodeCommand_of_adjbri hop)

/-- Settles O24: SETUNIT is one write, and opcode 0x12 has the reserved field 55:32. -/
theorem setunitSetsUnit : Obligations.SetunitSetsUnit := by
  constructor
  · intro s ticks
    exact exec_setunit ticks s
  · intro s w hop
    rw [← exec_setunit]
    exact presentCommand_of_checked s (decodeCommand_of_setunit hop)

/-! ### START and CANCEL (R144, R145) -/

theorem exec_start_of_busy {s : State} (hbusy : s.phase ≠ .idle) : exec .start s = .next s := if_neg hbusy

theorem exec_cancel_of_busy {s : State} (hbusy : s.phase ≠ .idle) :
    exec .cancel s = .next { s with cancelPending := true } := if_neg hbusy

theorem exec_cancel_of_idle {s : State} (hidle : s.phase = .idle) : exec .cancel s = .next s := if_pos hidle

/-- Settles O25: the two cases of START, and opcode 0x20 has the reserved field 55:0. -/
theorem startBeginsOneRefresh : Obligations.StartBeginsOneRefresh :=
  ⟨fun _ => exec_start_of_idle, fun _ => exec_start_of_busy,
    fun s _ hop => presentCommand_of_checked s (decodeCommand_of_start hop)⟩

/-- Settles O26: the two cases of CANCEL, and opcode 0x21 has the reserved field 55:0. -/
theorem cancelRecordsTheRequest : Obligations.CancelRecordsTheRequest :=
  ⟨fun _ => exec_cancel_of_busy, fun _ => exec_cancel_of_idle,
    fun s _ hop => presentCommand_of_checked s (decodeCommand_of_cancel hop)⟩

/-! ### RDCSR (R151) -/

theorem exec_rdcsr (n : BitVec 4) (s : State) :
    exec (.rdcsr n) s = .next { s with reads := ⟨n, s.csr n⟩ :: s.reads } := rfl

/-- The reserved numbers name no register (R35, R81). -/
theorem State.csr_of_reserved (s : State) {n : BitVec 4} (hn : 8 ≤ n.toNat) : s.csr n = 0 := by
  obtain ⟨k, hk⟩ := Nat.exists_eq_add_of_le' hn
  rw [State.csr, hk]
  rfl

/-- Settles O27: the read is recorded, and the last case of the CSR table is zero. -/
theorem rdcsrReturnsTheRegister : Obligations.RdcsrReturnsTheRegister :=
  ⟨fun s n => exec_rdcsr n s, fun s _ => s.csr_of_reserved⟩

end Sys2Proof.Machine

/-! Settles the family of spec/60_exceptions.md: no step of a correctly constructed block fails, the first configuration error is the
one reported, and the illegal command. Each layer's lemmas stand before the theorem that uses them. -/

namespace Sys2Proof.Machine

/-! ### No failure path (R160) -/

theorem WritesOnlyFrameBuffer.exists_next {i : Instr} {s : State} (h : WritesOnlyFrameBuffer i s) :
    ∃ t, exec i s = .next t := by
  obtain ⟨_, _, _, _, hrun⟩ := h
  exact ⟨_, hrun⟩

/-- The host's instructions complete in every state, with or without the invariant. -/
theorem exists_exec_of_ofHost {i : Instr} (hi : i.ofHost = true) (s : State) : ∃ t, exec i s = .next t := by
  cases i with
  | setpx x y r g b => exact (setpx_writesOnlyFrameBuffer x y r g b s).exists_next
  | getpx x y => exact (getpx_writesOnlyFrameBuffer x y s).exists_next
  | clear r g b => exact (clear_writesOnlyFrameBuffer r g b s).exists_next
  | swap => exact (swap_writesOnlyFrameBuffer s).exists_next
  | setbri level => exact ⟨_, exec_setbri level s⟩
  | adjbri delta => exact ⟨_, exec_adjbri delta s⟩
  | setunit ticks => exact ⟨_, exec_setunit ticks s⟩
  | start =>
    by_cases hidle : s.phase = .idle
    · exact ⟨_, exec_start_of_idle hidle⟩
    · exact ⟨_, exec_start_of_busy hidle⟩
  | cancel =>
    by_cases hidle : s.phase = .idle
    · exact ⟨_, exec_cancel_of_idle hidle⟩
    · exact ⟨_, exec_cancel_of_busy hidle⟩
  | rdcsr n => exact ⟨_, exec_rdcsr n s⟩
  | idle | plane | blank | addr | data | clkh | clkl | lath | latl | oeon | hold | oeoff => cases hi

/-- Whatever the host presents, its turn completes: a word is an instruction of the host or is illegal. -/
theorem exists_hostTurn (s : State) : ∃ t, hostTurn s = .next t := by
  obtain ⟨-, hrun⟩ | ⟨w, i, acts, -, hi, hrun⟩ | ⟨w, acts, -, -, hrun⟩ | ⟨n, acts, hrun⟩ := hostTurn_cases s
  all_goals rw [hrun]
  · exact ⟨s, rfl⟩
  · exact exists_exec_of_ofHost (ofHost_of_decodeCommand hi) _
  · exact ⟨_, rfl⟩
  · exact exists_exec_of_ofHost rfl _

/-- Only the sequencer's turn needs the invariant. -/
theorem Inv.exists_takeTurn {s : State} (h : Inv s) (τ : Turn) : ∃ t, takeTurn τ s = .next t := by
  cases τ with
  | host => exact exists_hostTurn s
  | sequencer =>
    obtain ⟨t, ht⟩ := h.exists_microStep
    exact ⟨t, ht.exec_microOp⟩
  | timer | tick | reset => exact ⟨_, rfl⟩

theorem Inv.nextTurn {s : State} (h : Inv s) : Inv s.nextTurn.2 := by
  unfold State.nextTurn
  cases s.agenda with
  | nil => exact h
  | cons _ rest => exact h.withAgenda rest

/-- Settles O43: the invariant survives taking the turn off the agenda, and under it every agent's turn completes. -/
theorem noStepFails : Obligations.NoStepFails := fun s h => h.nextTurn.exists_takeTurn s.nextTurn.1

/-! ### The order of the configuration errors (R162) -/

/-- Settles O9: each clause's conditions pass the checks before its own, which fails. -/
theorem firstConfigErrorIsReported : Obligations.FirstConfigErrorIsReported := by
  intro cfg fb width height even depth lines fits
  refine ⟨fun hwidth => ?_, fun hwidth hheight => ?_, fun hwidth hheight heven => ?_,
    fun hwidth hheight heven hdepth => ?_, fun hwidth hheight heven hdepth hlines => ?_,
    fun hwidth hheight heven hdepth hlines hfits => ?_, fun hwidth hheight heven hdepth hlines hfits hgamma => ?_⟩
  all_goals
    apply construct_of_check_some
    unfold configCheck
  · rw [if_pos (by omega)]
  · rw [if_neg (by omega), if_pos (by omega)]
  · rw [if_neg (by omega), if_neg (by omega), if_pos (by omega)]
  · rw [if_neg (by omega), if_neg (by omega), if_neg (by omega), if_pos (by omega)]
  · rw [if_neg (by omega), if_neg (by omega), if_neg (by omega), if_neg (by omega), if_pos (by omega)]
  · rw [if_neg (by omega), if_neg (by omega), if_neg (by omega), if_neg (by omega), if_neg (by omega), if_pos (by omega)]
  · rw [if_neg (by omega), if_neg (by omega), if_neg (by omega), if_neg (by omega), if_neg (by omega), if_neg (by omega),
      if_neg (mt (gammaCheck_iff _ _).1 hgamma)]

/-! ### The illegal command (R163) -/

/-- The host's next act is an illegal command word. -/
def State.PresentsIllegalWord (s : State) : Prop := ∃ w acts, s.host = .command w :: acts ∧ decodeCommand w = none

theorem hostTurn_cmderr {s t : State} (h : hostTurn s = .next t) :
    t.cmderr = s.cmderr ∨ (t.cmderr = true ∧ s.PresentsIllegalWord) := by
  obtain ⟨-, hrun⟩ | ⟨w, i, acts, -, -, hrun⟩ | ⟨w, acts, hhost, hillegal, hrun⟩ | ⟨n, acts, hrun⟩ := hostTurn_cases s
  all_goals rw [hrun] at h
  · obtain rfl := Host.Outcome.next.inj h
    exact .inl rfl
  · exact .inl (exec_cmderr h :)
  · obtain rfl := Host.Outcome.next.inj h
    exact .inr ⟨rfl, w, acts, hhost, hillegal⟩
  · exact .inl (exec_cmderr h :)

theorem timerTurn_cmderr (s : State) : (timerTurn s).cmderr = s.cmderr := by
  obtain ⟨-, hrun⟩ | ⟨-, hrun⟩ := timerTurn_cases s
  all_goals rw [hrun]
  exact s.timerComplete_cmderr

/-- Everything a turn can do to CMDERR: keep it, set it for an illegal word of the host, or clear it by a reset. -/
theorem takeTurn_cmderr {τ : Turn} {s t : State} (h : takeTurn τ s = .next t) :
    t.cmderr = s.cmderr ∨ (t.cmderr = true ∧ τ = .host ∧ s.PresentsIllegalWord)
      ∨ (t.cmderr = false ∧ τ.running = false) := by
  cases τ with
  | host => exact (hostTurn_cmderr h).imp id fun ⟨hset, hillegal⟩ => .inl ⟨hset, rfl, hillegal⟩
  | sequencer => exact .inl (exec_cmderr h)
  | timer => exact .inl (Host.Outcome.next.inj h ▸ timerTurn_cmderr s)
  | tick => exact .inl (Host.Outcome.next.inj h ▸ tickTurn_cmderr s)
  | reset cells => exact .inr (.inr ⟨Host.Outcome.next.inj h ▸ s.resetStep_cmderr cells, rfl⟩)

@[simp] theorem State.nextTurn_cmderr (s : State) : s.nextTurn.2.cmderr = s.cmderr := by
  unfold State.nextTurn
  cases s.agenda <;> rfl

@[simp] theorem State.nextTurn_host (s : State) : s.nextTurn.2.host = s.host := by
  unfold State.nextTurn
  cases s.agenda <;> rfl

/-- What a step can do to CMDERR: taking the turn off the agenda touches neither it nor the host's acts. -/
theorem step_cmderr {s t : State} (h : step s = .next t) :
    t.cmderr = s.cmderr ∨ (t.cmderr = true ∧ s.nextTurn.1 = .host ∧ s.PresentsIllegalWord)
      ∨ (t.cmderr = false ∧ s.nextTurn.1.running = false) := by
  have hturn := takeTurn_cmderr h
  rwa [State.PresentsIllegalWord, State.nextTurn_cmderr, State.nextTurn_host] at hturn

/-- Settles O14: the host's turn on an illegal word, and the three things a step can do to CMDERR. -/
theorem illegalCommandSetsOnlyCmderr : Obligations.IllegalCommandSetsOnlyCmderr := by
  refine ⟨?_, ?_, ?_⟩
  · intro s w acts rest hagenda hhost hillegal
    calc step s = hostTurn { s with agenda := rest } := step_of_agenda hagenda
      _ = presentCommand w { s with agenda := rest, host := acts } := hostTurn_of_command hhost
      _ = .next { s with agenda := rest, host := acts, cmderr := true } := presentCommand_of_none _ hillegal
  · intro s t h hrunning hset
    obtain hkept | ⟨hset', -⟩ | ⟨-, hreset⟩ := step_cmderr h
    · exact hkept.trans hset
    · exact hset'
    · cases hreset.symm.trans hrunning
  · intro s t h hclear hset
    obtain hkept | ⟨-, hillegal⟩ | ⟨hclear', -⟩ := step_cmderr h
    · cases hset.symm.trans (hkept.trans hclear)
    · exact hillegal
    · cases hset.symm.trans hclear'

end Sys2Proof.Machine

/-! Settles the family of spec/70_reset_and_hazards.md: the invariant along every step and run, the pins, what carries no picture, the
order of the holds, and the exposure law. Each layer's lemmas stand before the theorem that uses them. -/

namespace Sys2Proof.Machine

/-! ### The invariant along every step (R206 to R210) -/

/-- Neither the records of the run nor the environment play a part in the invariant. -/
theorem Inv.withRecords {s : State} (h : Inv s) (now : Nat) (trace : List Event) (reads : List CsrRead) (host : List HostAct)
    (turns : List Turn) : Inv { s with now := now, trace := trace, reads := reads, host := host, agenda := turns } := by
  obtain ⟨config, ⟨oe, armed, length, idle⟩, ⟨clk, lat⟩, ⟨single, exclusive, ended⟩,
    ⟨hp, hr, hc, column, hold, unwired⟩, ⟨wf, cells⟩⟩ := h
  exact ⟨config, ⟨oe, armed, length, idle⟩, ⟨clk, lat⟩, ⟨single, exclusive, ended⟩,
    ⟨hp, hr, hc, column, hold, unwired⟩, ⟨wf, cells⟩⟩

theorem Inv.withHost {s : State} (h : Inv s) (acts : List HostAct) : Inv { s with host := acts } :=
  h.withRecords s.now s.trace s.reads acts s.agenda

/-- What the invariant says of the state that the host writes without a START. -/
structure HostDiscipline (s : State) : Prop where
  idle : s.phase = .idle → s.cancelPending = false
  single : s.cfg.dbuf = false → s.front = false ∧ s.swapPending = false
  memory : MemoryForm s

theorem Inv.hostDiscipline {s : State} (h : Inv s) : HostDiscipline s := ⟨h.oe.idle, h.flags.single, h.memory⟩

/-- With the sequencer's part of a state that has the invariant, only the host's discipline is left to keep. -/
theorem Inv.of_sequencerPart {s t : State} (hs : Inv s) (hcfg : t.cfg = s.cfg) (hpart : t.sequencerPart = s.sequencerPart)
    (ht : HostDiscipline t) : Inv t := by
  cases s
  cases t
  simp only [State.sequencerPart, SequencerPart.mk.injEq] at hcfg hpart
  obtain ⟨rfl, rfl, rfl, rfl, rfl, rfl, rfl, -, rfl, -, rfl, rfl⟩ := hpart
  subst hcfg
  obtain ⟨config, ⟨oe, armed, length, -⟩, ⟨clk, lat⟩, ⟨-, exclusive, ended⟩,
    ⟨hp, hr, hc, column, hold, unwired⟩, -⟩ := hs
  exact ⟨config, ⟨oe, armed, length, ht.idle⟩, ⟨clk, lat⟩, ⟨ht.single, exclusive, ended⟩,
    ⟨hp, hr, hc, column, hold, unwired⟩, ht.memory⟩

/-- A write to an in-range pixel of the draw buffer keeps the form of the memory. -/
theorem MemoryForm.write {s : State} (h : MemoryForm s) {x y : Int} (hin : inRange s.cfg x y = true) (v : Pixel) :
    MemoryForm { s with fb := Memory.write s.fb (cellAddr s.cfg s.draw x.toNat y.toNat) v } := by
  obtain ⟨hx, hy⟩ := (inRange_iff s.cfg x y).1 hin
  have hcell := (cellAddr_bounds (b := s.draw) (show x.toNat < s.cfg.width by omega)
    (show y.toNat < s.cfg.height by omega)).2.trans_le (buffer_le_cellCount s.draw_lt_nbuf)
  exact ⟨Memory.write_wf h.wf _ _, Memory.fill_bound h.cells hcell _⟩

/-- So does a fill of the draw buffer. -/
theorem MemoryForm.fillBuffer {s : State} (h : MemoryForm s) (v : Pixel) : MemoryForm (s.fillBuffer s.draw v) := by
  have hbuffer := buffer_le_cellCount s.draw_lt_nbuf
  rw [Nat.succ_mul] at hbuffer
  exact ⟨Memory.fill_wf h.wf _ _ _, Memory.fill_bound h.cells hbuffer _⟩

/-- A pending swap needs two buffers, and CANCEL is recorded while busy only. -/
theorem exec_hostDiscipline {i : Instr} {s t : State} (hi : i.ofHost = true) (h : exec i s = .next t)
    (hs : HostDiscipline s) : HostDiscipline t := by
  obtain ⟨hidle, hsingle, hmemory⟩ := hs
  cases i with
  | setpx x y r g b =>
    cases hin : inRange s.cfg x y with
    | true =>
      obtain rfl := Host.Outcome.next.inj ((exec_setpx_of_inRange r g b hin).symm.trans h)
      exact ⟨hidle, hsingle, hmemory.write hin _⟩
    | false =>
      obtain rfl := Host.Outcome.next.inj ((exec_setpx_of_outOfRange r g b hin).symm.trans h)
      exact ⟨hidle, hsingle, hmemory⟩
  | getpx x y =>
    cases hin : inRange s.cfg x y with
    | true =>
      obtain rfl := Host.Outcome.next.inj ((exec_getpx_of_inRange hin).symm.trans h)
      exact ⟨hidle, hsingle, hmemory.wf, hmemory.cells⟩
    | false =>
      obtain rfl := Host.Outcome.next.inj ((exec_getpx_of_outOfRange hin).symm.trans h)
      exact ⟨hidle, hsingle, hmemory.wf, hmemory.cells⟩
  | clear r g b =>
    obtain rfl := Host.Outcome.next.inj h
    exact ⟨hidle, hsingle, hmemory.fillBuffer _⟩
  | swap =>
    cases hdbuf : s.cfg.dbuf with
    | false =>
      obtain rfl := Host.Outcome.next.inj ((exec_swap_of_single hdbuf).symm.trans h)
      exact ⟨hidle, hsingle, hmemory⟩
    | true =>
      have hdouble : s.cfg.dbuf ≠ false := by simp [hdbuf]
      by_cases hphase : s.phase = .idle
      · obtain rfl := Host.Outcome.next.inj ((exec_swap_of_idle hdbuf hphase).symm.trans h)
        exact ⟨hidle, (absurd · hdouble), hmemory.wf, hmemory.cells⟩
      · obtain rfl := Host.Outcome.next.inj ((exec_swap_of_busy hdbuf hphase).symm.trans h)
        exact ⟨hidle, (absurd · hdouble), hmemory.wf, hmemory.cells⟩
  | start =>
    by_cases hphase : s.phase = .idle
    · obtain rfl := Host.Outcome.next.inj ((exec_start_of_idle hphase).symm.trans h)
      exact ⟨fun _ => rfl, fun hdbuf => by simp [State.frontAfterStart, hsingle hdbuf], hmemory.wf, hmemory.cells⟩
    · obtain rfl := Host.Outcome.next.inj ((exec_start_of_busy hphase).symm.trans h)
      exact ⟨hidle, hsingle, hmemory⟩
  | cancel =>
    by_cases hphase : s.phase = .idle
    · obtain rfl := Host.Outcome.next.inj ((exec_cancel_of_idle hphase).symm.trans h)
      exact ⟨hidle, hsingle, hmemory⟩
    · obtain rfl := Host.Outcome.next.inj ((exec_cancel_of_busy hphase).symm.trans h)
      exact ⟨(absurd · hphase), hsingle, hmemory.wf, hmemory.cells⟩
  | setbri | adjbri | setunit | rdcsr =>
    obtain rfl := Host.Outcome.next.inj h
    exact ⟨hidle, hsingle, hmemory.wf, hmemory.cells⟩
  | idle | plane | blank | addr | data | clkh | clkl | lath | latl | oeon | hold | oeoff => cases hi

/-- An instruction of the host keeps the invariant: it leaves the sequencer's part alone or is a START. -/
theorem exec_inv {i : Instr} {s t : State} (hi : i.ofHost = true) (h : exec i s = .next t) (hs : Inv s) : Inv t := by
  obtain hpart | ⟨rfl, hidle, -⟩ := exec_ofHost_cases hi h
  · exact hs.of_sequencerPart (exec_cfg h) hpart (exec_hostDiscipline hi h hs.hostDiscipline)
  · exact inv_start hs hidle h

theorem Inv.illegalCommand {s : State} (h : Inv s) : Inv s.illegalCommand :=
  h.of_sequencerPart rfl rfl ⟨h.oe.idle, h.flags.single, h.memory.wf, h.memory.cells⟩

theorem hostTurn_inv {s t : State} (h : hostTurn s = .next t) (hs : Inv s) : Inv t := by
  obtain ⟨-, hrun⟩ | ⟨w, i, acts, -, hi, hrun⟩ | ⟨w, acts, -, -, hrun⟩ | ⟨n, acts, hrun⟩ := hostTurn_cases s
  all_goals rw [hrun] at h
  · exact Host.Outcome.next.inj h ▸ hs
  · exact exec_inv (ofHost_of_decodeCommand hi) h (hs.withHost acts)
  · exact Host.Outcome.next.inj h ▸ (hs.withHost acts).illegalCommand
  · exact exec_inv rfl h (hs.withHost acts)

theorem Inv.timerTurn {s : State} (h : Inv s) : Inv (timerTurn s) := by
  obtain ⟨henabled, hrun⟩ | ⟨-, hrun⟩ := timerTurn_cases s
  all_goals rw [hrun]
  · exact h.timerComplete ((State.timerEnabled_iff s).1 henabled).1
  · exact h

theorem Inv.resetStep {s : State} (h : Inv s) (cells : List (Nat × Pixel)) : Inv (s.resetStep cells) :=
  have hform := Memory.ofCells_form (cellCount s.cfg) cells
  (inv_resetWith h.config hform.1 hform.2).withRecords s.now _ s.reads s.host s.agenda

/-- Whoever's turn it is, the turn keeps the invariant. -/
theorem takeTurn_inv {τ : Turn} {s t : State} (h : takeTurn τ s = .next t) (hs : Inv s) : Inv t := by
  cases τ with
  | host => exact hostTurn_inv h hs
  | sequencer => exact (microStep_of_exec h).inv hs
  | timer => exact Host.Outcome.next.inj h ▸ hs.timerTurn
  | tick => exact Host.Outcome.next.inj h ▸ hs.tickTurn
  | reset cells => exact Host.Outcome.next.inj h ▸ hs.resetStep cells

/-- Settles O41: taking the turn off the agenda keeps the invariant, and so does every agent's turn. -/
theorem everyStepKeepsTheInvariant : Obligations.EveryStepKeepsTheInvariant :=
  fun _ _ hs h => takeTurn_inv h hs.nextTurn

/-! ### The reachable states (R206, R207, R210) -/

theorem runTurns_inv {turns : List Turn} {s t : State} (h : runTurns turns s = .next t) (hs : Inv s) : Inv t :=
  runTurns_preserves (fun _ turns h => h.withAgenda turns) (fun _ _ _ _ hrun h => takeTurn_inv hrun h) h hs

/-- While idle the block is blanked and quiet (R206). -/
theorem Inv.quiet_of_idle {s : State} (h : Inv s) (hidle : s.phase = .idle) :
    s.pins.oe = false ∧ s.pins.clk = false ∧ s.pins.lat = false ∧ s.tmrArmed = false ∧ s.cancelPending = false := by
  obtain ⟨hoe, harmed, -, hcancel⟩ := h.oe
  obtain ⟨hclk, hlat⟩ := h.pulse
  simp_all

/-- Settles O42: the invariant holds at reset and along every run, and each clause reads off one of its parts. -/
theorem reachableStatesAreSafe : Obligations.ReachableStatesAreSafe := by
  intro cfg fb acts turns t hvalid hwf hcells hrun
  have ht : Inv t := runTurns_inv hrun ((inv_resetWith hvalid hwf hcells).withHost acts)
  have hcfg : t.cfg = cfg := (runTurns_cfg hrun :)
  obtain ⟨hoe, harmed, hlength, -⟩ := ht.oe
  obtain ⟨hp, hr, hc, hcolumn, hhold, hunwired⟩ := ht.counters
  rw [hcfg] at hp hr hc hcolumn hunwired
  exact ⟨ht.quiet_of_idle, hoe, fun h => ⟨harmed.2 h, hlength h⟩,
    fun h => by simpa [h] using harmed, harmed.1, hp, hr, hc, hcolumn, hhold, hunwired⟩

/-! ### When the pins change (R208) -/

/-- From `s` to `t` no pin but OE changes while the output is enabled, the address pins change in ADDR only, and the data pins in DATA
only, with CLK low. -/
structure PinsHeld (s t : State) : Prop where
  blanked : t.pins.clk ≠ s.pins.clk ∨ t.pins.lat ≠ s.pins.lat ∨ t.pins.addr ≠ s.pins.addr ∨ t.pins.data ≠ s.pins.data →
    s.pins.oe = false ∧ t.pins.oe = false
  addr : t.pins.addr ≠ s.pins.addr → s.phase = .addr
  data : t.pins.data ≠ s.pins.data → s.phase = .data ∧ s.pins.clk = false ∧ t.pins.clk = false

theorem PinsHeld.of_eq {s t : State} (h : t.pins = s.pins) : PinsHeld s t := by
  constructor <;> simp [h]

/-- The sequencer changes OE alone in OEON, OEOFF and a cancel step, and every other pin while it is blanked. -/
theorem MicroStep.pinsHeld {s t : State} (hs : Inv s) (h : MicroStep s t) : PinsHeld s t := by
  cases h with
  | idle | plane | holdWait => exact .of_eq rfl
  | blank | oeon | holdCancel | oeoffRow | oeoffPlane | oeoffLast => constructor <;> simp
  | addr h | data _ _ h | clkh h | clklColumn h | clklLast h | lath h | latl h =>
    have hoe : s.pins.oe = false := hs.oe_eq_false (by simp [h]) (by simp [h])
    have hclk := hs.pulse.clk
    constructor <;> simp_all

/-- START writes no pin either. -/
theorem exec_pins_of_ofHost {i : Instr} {s t : State} (hi : i.ofHost = true) (h : exec i s = .next t) : t.pins = s.pins := by
  obtain hpart | ⟨rfl, hidle, -⟩ := exec_ofHost_cases hi h
  · exact congrArg SequencerPart.pins hpart
  · obtain rfl := Host.Outcome.next.inj ((exec_start_of_idle hidle).symm.trans h)
    rfl

theorem hostTurn_pins {s t : State} (h : hostTurn s = .next t) : t.pins = s.pins := by
  obtain ⟨-, hrun⟩ | ⟨w, i, acts, -, hi, hrun⟩ | ⟨w, acts, -, -, hrun⟩ | ⟨n, acts, hrun⟩ := hostTurn_cases s
  all_goals rw [hrun] at h
  · exact Host.Outcome.next.inj h ▸ rfl
  · exact (exec_pins_of_ofHost (ofHost_of_decodeCommand hi) h :)
  · exact Host.Outcome.next.inj h ▸ rfl
  · exact (exec_pins_of_ofHost rfl h :)

theorem timerTurn_pins (s : State) : (timerTurn s).pins = s.pins := by
  obtain ⟨-, hrun⟩ | ⟨-, hrun⟩ := timerTurn_cases s
  all_goals rw [hrun]
  rfl

/-- Of the turns that are no reset, only the sequencer's writes pins. -/
theorem takeTurn_pinsHeld {τ : Turn} {s t : State} (hrunning : τ.running = true) (h : takeTurn τ s = .next t) (hs : Inv s) :
    PinsHeld s t := by
  cases τ with
  | host => exact .of_eq (hostTurn_pins h)
  | sequencer => exact (microStep_of_exec h).pinsHeld hs
  | timer => exact .of_eq (Host.Outcome.next.inj h ▸ timerTurn_pins s)
  | tick => exact .of_eq (Host.Outcome.next.inj h ▸ rfl)
  | reset => cases hrunning

@[simp] theorem State.nextTurn_pins (s : State) : s.nextTurn.2.pins = s.pins := by
  unfold State.nextTurn
  cases s.agenda <;> rfl

/-- Settles O44: a step is the turn that comes next, taken with the pins and the phase as they are. -/
theorem pinsChangeOnlyWhileBlanked : Obligations.PinsChangeOnlyWhileBlanked := by
  intro s t hs h hrunning
  obtain ⟨hblanked, haddr, hdata⟩ := takeTurn_pinsHeld hrunning h hs.nextTurn
  rw [State.nextTurn_pins] at hblanked haddr hdata
  rw [State.nextTurn_phase] at haddr hdata
  exact ⟨hblanked, haddr, hdata⟩

/-! ### What carries no picture (R215) -/

/-- The mask of `Event.withoutPicture` clears the data pins of a pin word and no other. -/
theorem Pins.word_and_mask (pins : Pins) : pins.word &&& 0x3FC0#14 = { pins with data := 0 }.word := by
  apply BitVec.eq_of_getLsbD_eq
  intro i hi
  simp only [Pins.word, BitVec.getLsbD_and, BitVec.getLsbD_or, getLsbD_placeIn, getLsbD_placeBit]
  interval_cases i <;> simp

@[simp] theorem Event.withoutPicture_pins (pins : Pins) :
    Event.withoutPicture (.pins pins.word) = .pins { pins with data := 0 }.word :=
  congrArg Event.pins pins.word_and_mask

@[simp] theorem Event.withoutPicture_idem (e : Event) : e.withoutPicture.withoutPicture = e.withoutPicture := by
  cases e with
  | pins v => exact congrArg Event.pins (by rw [BitVec.and_assoc, BitVec.and_self])
  | refreshStart | wait | waitDone | cancelled | refreshDone => rfl

@[simp] theorem State.withoutPicture_idem (s : State) : s.withoutPicture.withoutPicture = s.withoutPicture := by
  simp [State.withoutPicture, Function.comp_def]

/-- What `run` does to a state apart from the picture shows already where the picture is taken away: it completes there too, and
leaves the same but for the picture. -/
def IgnoresPicture (run : State → Host.Outcome State Fault Refusal) : Prop :=
  ∀ s t, run s = .next t → ∃ u, run s.withoutPicture = .next u ∧ u.withoutPicture = t.withoutPicture

/-- From two states that differ only in the picture it leads to two such states. -/
theorem IgnoresPicture.withoutPicture_eq {run : State → Host.Outcome State Fault Refusal} (h : IgnoresPicture run)
    {s s' t t' : State} (hs : s.withoutPicture = s'.withoutPicture) (ht : run s = .next t) (ht' : run s' = .next t') :
    t.withoutPicture = t'.withoutPicture := by
  obtain ⟨u, hu, hkept⟩ := h s t ht
  obtain ⟨u', hu', hkept'⟩ := h s' t' ht'
  obtain rfl := Host.Outcome.next.inj (hu.symm.trans ((congrArg run hs).trans hu'))
  exact hkept.symm.trans hkept'

/-- `IgnoresPicture` in one state, where the two runs are known. -/
theorem exists_next_withoutPicture {run : State → Host.Outcome State Fault Refusal} {s t u : State}
    (ht : run s = .next t) (hu : run s.withoutPicture = .next u) (hkept : u.withoutPicture = t.withoutPicture) (v : State)
    (hv : run s = .next v) :
    ∃ u, run s.withoutPicture = .next u ∧ u.withoutPicture = v.withoutPicture := by
  obtain rfl := Host.Outcome.next.inj (ht.symm.trans hv)
  exact ⟨u, hu, hkept⟩

/-- Whether a pixel exists does not depend on what the cells hold. -/
theorem State.exists_pixelAt_withoutPicture {s : State} {b : Nat} {x y : Int} {v : Pixel} (h : s.pixelAt b x y = some v) :
    ∃ w, s.withoutPicture.pixelAt b x y = some w := by
  obtain ⟨⟨hx0, hx⟩, ⟨hy0, hy⟩, hb⟩ := State.pixelAt_eq_some h
  exact ⟨_, State.pixelAt_of_inRange (s := s.withoutPicture) hb ((inRange_iff _ _ _).2 ⟨⟨hx0, hx⟩, hy0, hy⟩)⟩

/-- The sequencer takes the same step whatever the pixels show; DATA differs in the data pins only. -/
theorem MicroStep.withoutPicture {s t : State} (h : MicroStep s t) :
    ∃ u, MicroStep s.withoutPicture u ∧ u.withoutPicture = t.withoutPicture := by
  cases h with
  | idle h => exact ⟨_, .idle h, s.withoutPicture_idem⟩
  | holdWait h hcancel => exact ⟨_, .holdWait h hcancel, s.withoutPicture_idem⟩
  | plane h => exact ⟨_, .plane h, by simp [State.withoutPicture]⟩
  | blank h => exact ⟨_, .blank h, by simp [State.withoutPicture]⟩
  | addr h => exact ⟨_, .addr h, by simp [State.withoutPicture]⟩
  | data up lo h hup hlo hp =>
    obtain ⟨up', hup'⟩ := State.exists_pixelAt_withoutPicture hup
    obtain ⟨lo', hlo'⟩ := State.exists_pixelAt_withoutPicture hlo
    exact ⟨_, .data (s := s.withoutPicture) up' lo' h hup' hlo' hp, by simp [State.withoutPicture]⟩
  | clkh h => exact ⟨_, .clkh h, by simp [State.withoutPicture]⟩
  | clklColumn h hc => exact ⟨_, .clklColumn h hc, by simp [State.withoutPicture]⟩
  | clklLast h hc => exact ⟨_, .clklLast h hc, by simp [State.withoutPicture]⟩
  | lath h => exact ⟨_, .lath h, by simp [State.withoutPicture]⟩
  | latl h => exact ⟨_, .latl h, by simp [State.withoutPicture]⟩
  | oeon h => exact ⟨_, .oeon h, by simp [State.withoutPicture]⟩
  | holdCancel h hcancel => exact ⟨_, .holdCancel h hcancel, by simp [State.withoutPicture]⟩
  | oeoffRow h hr => exact ⟨_, .oeoffRow h hr, by simp [State.withoutPicture]⟩
  | oeoffPlane h hr hp => exact ⟨_, .oeoffPlane h hr hp, by simp [State.withoutPicture]⟩
  | oeoffLast h hr hp => exact ⟨_, .oeoffLast h hr hp, by simp [State.withoutPicture]⟩

theorem sequencer_ignoresPicture : IgnoresPicture fun s => exec s.phase.microOp s := by
  intro s t h
  obtain ⟨u, hu, hkept⟩ := (microStep_of_exec h).withoutPicture
  exact ⟨u, hu.exec_microOp, hkept⟩

theorem State.frontAfterStart_withoutPicture (s : State) : s.withoutPicture.frontAfterStart = s.frontAfterStart := rfl

/-- The host's instructions decide by the configuration, the phase and SWAP_PENDING only. -/
theorem exec_ignoresPicture {i : Instr} (hi : i.ofHost = true) : IgnoresPicture (exec i) := by
  intro s
  cases i with
  | setpx x y r g b =>
    cases hin : inRange s.cfg x y with
    | true =>
      exact exists_next_withoutPicture (exec_setpx_of_inRange r g b hin)
        (exec_setpx_of_inRange (s := s.withoutPicture) r g b hin) s.withoutPicture_idem
    | false =>
      exact exists_next_withoutPicture (exec_setpx_of_outOfRange r g b hin)
        (exec_setpx_of_outOfRange (s := s.withoutPicture) r g b hin) s.withoutPicture_idem
  | getpx x y =>
    cases hin : inRange s.cfg x y with
    | true =>
      exact exists_next_withoutPicture (exec_getpx_of_inRange hin) (exec_getpx_of_inRange (s := s.withoutPicture) hin)
        s.withoutPicture_idem
    | false =>
      exact exists_next_withoutPicture (exec_getpx_of_outOfRange hin)
        (exec_getpx_of_outOfRange (s := s.withoutPicture) hin) s.withoutPicture_idem
  | swap =>
    cases hdbuf : s.cfg.dbuf with
    | false =>
      exact exists_next_withoutPicture (exec_swap_of_single hdbuf) (exec_swap_of_single (s := s.withoutPicture) hdbuf)
        s.withoutPicture_idem
    | true =>
      by_cases hphase : s.phase = .idle
      · exact exists_next_withoutPicture (exec_swap_of_idle hdbuf hphase)
          (exec_swap_of_idle (s := s.withoutPicture) hdbuf hphase) (by simp [State.withoutPicture])
      · exact exists_next_withoutPicture (exec_swap_of_busy hdbuf hphase)
          (exec_swap_of_busy (s := s.withoutPicture) hdbuf hphase) (by simp [State.withoutPicture])
  | start =>
    by_cases hphase : s.phase = .idle
    · exact exists_next_withoutPicture (exec_start_of_idle hphase) (exec_start_of_idle (s := s.withoutPicture) hphase)
        (by rw [s.frontAfterStart_withoutPicture]; simp [State.withoutPicture])
    · exact exists_next_withoutPicture (exec_start_of_busy hphase) (exec_start_of_busy (s := s.withoutPicture) hphase)
        s.withoutPicture_idem
  | cancel =>
    by_cases hphase : s.phase = .idle
    · exact exists_next_withoutPicture (exec_cancel_of_idle hphase) (exec_cancel_of_idle (s := s.withoutPicture) hphase)
        s.withoutPicture_idem
    · exact exists_next_withoutPicture (exec_cancel_of_busy hphase) (exec_cancel_of_busy (s := s.withoutPicture) hphase)
        (by simp [State.withoutPicture])
  | clear | setbri | adjbri | setunit | rdcsr =>
    exact exists_next_withoutPicture rfl rfl (by simp [State.withoutPicture])
  | idle | plane | blank | addr | data | clkh | clkl | lath | latl | oeon | hold | oeoff => cases hi

/-- What the host does next, and whether a directive goes on, is the same whatever the pixels show. -/
theorem hostTurn_ignoresPicture : IgnoresPicture hostTurn := by
  intro s t h
  cases hhost : s.host with
  | nil =>
    exact exists_next_withoutPicture (hostTurn_of_nil hhost) (hostTurn_of_nil (s := s.withoutPicture) hhost)
      s.withoutPicture_idem t h
  | cons act acts =>
    cases act with
    | command w =>
      rw [hostTurn_of_command hhost] at h
      rw [hostTurn_of_command (s := s.withoutPicture) hhost]
      cases hw : decodeCommand w with
      | some i =>
        rw [presentCommand_of_some _ hw] at h ⊢
        exact exec_ignoresPicture (ofHost_of_decodeCommand hw) _ t h
      | none =>
        rw [presentCommand_of_none _ hw] at h ⊢
        obtain rfl := Host.Outcome.next.inj h
        exact ⟨_, rfl, by simp [State.withoutPicture, State.illegalCommand]⟩
    | readCsr n =>
      rw [hostTurn_of_readCsr hhost] at h
      rw [hostTurn_of_readCsr (s := s.withoutPicture) hhost]
      exact exec_ignoresPicture rfl _ t h
    | waitIdle =>
      rw [hostTurn_of_waitIdle hhost] at h
      rw [hostTurn_of_waitIdle (s := s.withoutPicture) hhost]
      exact exec_ignoresPicture rfl _ t h
    | waitPhase ph =>
      rw [hostTurn_of_waitPhase hhost] at h
      rw [hostTurn_of_waitPhase (s := s.withoutPicture) hhost]
      exact exec_ignoresPicture rfl _ t h

/-- The timer decides by the phase, its registers and the time. -/
theorem timerTurn_withoutPicture (s : State) :
    (timerTurn s.withoutPicture).withoutPicture = (timerTurn s).withoutPicture := by
  obtain ⟨henabled, hrun⟩ | ⟨hdisabled, hrun⟩ := timerTurn_cases s
  · rw [hrun, timerTurn_of_enabled (s := s.withoutPicture) henabled]
    simp [State.withoutPicture]
  · rw [hrun, timerTurn_of_disabled (s := s.withoutPicture) (Bool.eq_false_iff.1 hdisabled), s.withoutPicture_idem]

theorem takeTurn_ignoresPicture (τ : Turn) : IgnoresPicture (takeTurn τ) := by
  cases τ with
  | host => exact hostTurn_ignoresPicture
  | sequencer => exact sequencer_ignoresPicture
  | timer => exact fun s => exists_next_withoutPicture rfl rfl (timerTurn_withoutPicture s)
  | tick => exact fun s => exists_next_withoutPicture rfl rfl (by simp [State.withoutPicture])
  | reset cells => exact fun s => exists_next_withoutPicture rfl rfl (by simp [State.withoutPicture])

/-- Whose turn comes next is the same whatever the pixels show. -/
theorem State.nextTurn_withoutPicture (s : State) :
    s.withoutPicture.nextTurn = (s.nextTurn.1, s.nextTurn.2.withoutPicture) := by
  unfold State.nextTurn
  rw [show s.withoutPicture.agenda = s.agenda from rfl]
  cases s.agenda <;> rfl

theorem step_ignoresPicture : IgnoresPicture step := by
  intro s t h
  rw [step, s.nextTurn_withoutPicture]
  exact takeTurn_ignoresPicture s.nextTurn.1 s.nextTurn.2 t h

/-- Settles O55: a step shows all of itself but the picture where the picture is taken away. -/
theorem outputEnableCarriesNoPicture : Obligations.OutputEnableCarriesNoPicture :=
  fun _ _ _ _ hs h h' => step_ignoresPicture.withoutPicture_eq hs h h'

/-! ### The order of the holds (R211) -/

/-- How many waits a trace requests. -/
def waitCount (trace : List Event) : Nat := (trace.filter Event.isWait).length

theorem waitCount_append (newer older : List Event) : waitCount (newer ++ older) = waitCount newer + waitCount older := by
  simp [waitCount]

@[simp] theorem waitCount_cons (e : Event) (trace : List Event) :
    waitCount (e :: trace) = waitCount trace + e.isWait.toNat := by
  cases h : e.isWait <;> simp [waitCount, h]

/-- The waits requested and not completed: in HOLD, the one in flight. -/
def waitsInFlight (s : State) : Nat := if s.phase = .hold then 1 else 0

section
variable {s t : State}

/-- The sequencer requests a wait in OEON only. -/
theorem MicroStep.waitCount_eq (h : MicroStep s t) :
    waitCount t.trace = waitCount s.trace + if s.phase = .oeon then 1 else 0 := by
  cases h with
  | idle h | plane h | blank h | addr h | data _ _ h | clkh h | clklColumn h | clklLast h | lath h | latl h | oeon h
    | holdWait h | holdCancel h | oeoffRow h | oeoffPlane h | oeoffLast h => simp [Event.isWait, h]

/-- The sequencer enters HOLD by OEON and leaves it by a cancel step only. -/
theorem MicroStep.phase_eq_hold_iff (hcancel : s.cancelPending = false) (h : MicroStep s t) :
    t.phase = .hold ↔ s.phase = .hold ∨ s.phase = .oeon := by
  cases h with
  | holdCancel _ hset => cases hcancel.symm.trans hset
  | idle h | plane h | blank h | addr h | data _ _ h | clkh h | clklColumn h | clklLast h | lath h | latl h | oeon h
    | holdWait h | oeoffRow h | oeoffPlane h | oeoffLast h => simp [h]

/-- In IDLE and in HOLD the sequencer passes, unless it cancels. -/
theorem MicroStep.eq_of_suspended (hcancel : s.cancelPending = false) (hphase : s.phase = .idle ∨ s.phase = .hold)
    (h : MicroStep s t) : t = s := by
  cases h with
  | idle | holdWait => rfl
  | holdCancel _ hset => cases hcancel.symm.trans hset
  | plane h | blank h | addr h | data _ _ h | clkh h | clklColumn h | clklLast h | lath h | latl h | oeon h
    | oeoffRow h | oeoffPlane h | oeoffLast h => simp [h] at hphase

end

/-- The waits requested so far and those still to request are `n` in all, if the refresh is not cancelled. -/
def WaitsPlanned (n : Nat) (s : State) : Prop := waitCount s.trace + waitsLeft s = n + waitsInFlight s

section
variable {n : Nat} {s t : State}

theorem WaitsPlanned.microStep (hs : Inv s) (hcancel : s.cancelPending = false) (h : MicroStep s t)
    (hn : WaitsPlanned n s) : WaitsPlanned n t := by
  by_cases hphase : s.phase = .idle ∨ s.phase = .hold
  · rwa [h.eq_of_suspended hcancel hphase]
  · obtain ⟨hidle, hhold⟩ := not_or.1 hphase
    have hbefore : waitsInFlight s = 0 := if_neg hhold
    have hafter : waitsInFlight t = if s.phase = .oeon then 1 else 0 :=
      if_congr ((h.phase_eq_hold_iff hcancel).trans (or_iff_right hhold)) rfl rfl
    rw [WaitsPlanned, hbefore] at hn
    rw [WaitsPlanned, h.waitCount_eq, h.waitsLeft_eq hs hidle hhold, hafter, Nat.add_right_comm, hn, Nat.add_zero]

/-- The timer's completion ends the wait in flight. -/
theorem WaitsPlanned.timerComplete (hs : Inv s) (hhold : s.phase = .hold) (hn : WaitsPlanned n s) :
    WaitsPlanned n s.timerComplete := by
  have hleft := waitsLeft_timerComplete hs hhold
  simp [WaitsPlanned, waitsInFlight, hhold, Event.isWait] at hn ⊢
  omega

/-- Along a refresh, a quiet turn keeps the number of waits planned. -/
theorem WaitsPlanned.takeTurn {s₀ : State} {τ : Turn} (hs : RefreshFrom s₀ s) (hquiet : τ.quiet = true)
    (h : takeTurn τ s = .next t) (hn : WaitsPlanned n s) : WaitsPlanned n t := by
  cases τ with
  | host | reset => cases hquiet
  | sequencer => exact hn.microStep hs.inv hs.noCancel (microStep_of_exec h)
  | timer =>
    obtain rfl := Host.Outcome.next.inj h
    obtain ⟨henabled, hrun⟩ | ⟨-, hrun⟩ := timerTurn_cases s
    all_goals rw [hrun]
    · exact hn.timerComplete hs.inv ((State.timerEnabled_iff s).1 henabled).1
    · exact hn
  | tick => exact Host.Outcome.next.inj h ▸ hn

/-- In the hold of the pair (P, R), the waits still to complete are those from this pair on. -/
theorem waitsLeft_of_hold (hs : Inv s) (hhold : s.phase = .hold) :
    s.p.toNat * rows s.cfg + s.r.toNat + waitsLeft s = s.cfg.colorBits * rows s.cfg := by
  have hr := hs.counters.r
  obtain ⟨k, hk⟩ := Nat.exists_eq_add_of_lt hs.counters.p
  have hlater : s.cfg.colorBits - 1 - s.p.toNat = k := by omega
  simp only [waitsLeft, hhold, hlater]
  rw [hk]
  simp only [Nat.add_mul, Nat.one_mul, Nat.mul_comm k]
  omega

/-- START plans one wait for each pair. -/
theorem WaitsPlanned.start (hs : Inv s) (hidle : s.phase = .idle) (h : exec .start s = .next t) :
    WaitsPlanned (waitCount s.trace + s.cfg.colorBits * rows s.cfg) t := by
  have hleft := (measures_of_start hs hidle h).2
  obtain rfl := Host.Outcome.next.inj ((exec_start_of_idle hidle).symm.trans h)
  rw [WaitsPlanned, hleft]
  simp [waitsInFlight, Event.isWait]

end

/-- Settles O52: of the waits planned at START, those still to complete in the hold of (P, R) are known. -/
theorem rowsAndBitplanesAscend : Obligations.RowsAndBitplanesAscend := by
  intro s u t turns hs hidle hstart hquiet hrun hhold
  obtain ⟨hrefresh, hplanned⟩ := runTurns_preserves (P := fun v => RefreshFrom s v ∧ WaitsPlanned _ v)
    (fun _ turns h => ⟨h.1.withAgenda turns, h.2⟩)
    (fun τ hτ _ _ hturn h => ⟨h.1.takeTurn (hquiet τ hτ) hturn, h.2.takeTurn h.1 (hquiet τ hτ) hturn⟩) hrun
    ⟨.start hs hidle hstart, .start hs hidle hstart⟩
  obtain ⟨events, htrace, -⟩ := hrefresh.waits
  have hleft := waitsLeft_of_hold hrefresh.inv hhold
  rw [hrefresh.cfg] at hleft
  rw [WaitsPlanned, htrace, waitCount_append, waitsInFlight, if_pos hhold] at hplanned
  have hcount : waitCount events = t.p.toNat * rows s.cfg + t.r.toNat + 1 := by omega
  exact ⟨events, htrace, hcount⟩

/-! ### What the panel's registers hold of the current row (R216) -/

/-- The six data bits that DATA presents for column `k` of the current row and bitplane (R115). -/
def State.columnBits (s : State) (k : Nat) : BitVec 6 :=
  if hp : s.p.toNat < s.cfg.colorBits then
    sixbits s.cfg (Memory.read s.fb (cellAddr s.cfg s.scan k s.r.toNat))
      (Memory.read s.fb (cellAddr s.cfg s.scan k (s.r.toNat + rows s.cfg))) ⟨s.p.toNat, hp⟩
  else 0

/-- The data bits of the first `n` columns, column 0 first. -/
def State.firstColumns (s : State) (n : Nat) : List (BitVec 6) := (List.range n).map s.columnBits

theorem State.firstColumns_succ (s : State) (n : Nat) : s.firstColumns (n + 1) = s.firstColumns n ++ [s.columnBits n] := by
  simp [State.firstColumns, List.range_succ]

/-- What a panel with the shift register `sr` and the latched row `lr` holds of the current row, by the phase. -/
def RowRegisters (sr lr : List (BitVec 6)) (s : State) : Prop :=
  match s.phase with
  | .data => sr.drop (s.cfg.width - s.c.toNat) = s.firstColumns s.c.toNat
  | .clkh => sr.drop (s.cfg.width - s.c.toNat) = s.firstColumns s.c.toNat ∧ s.pins.data = s.columnBits s.c.toNat
  | .clkl => sr.drop (s.cfg.width - (s.c.toNat + 1)) = s.firstColumns (s.c.toNat + 1)
  | .lath => sr = s.firstColumns s.cfg.width
  | .latl => lr = s.firstColumns s.cfg.width
  | .oeon => lr = s.firstColumns s.cfg.width
  | _ => True

/-- The shift register after the pins changed: a rise of CLK shifts the data pins in. -/
def shifted (old new : Pins) (sr : List (BitVec 6)) : List (BitVec 6) :=
  if !old.clk && new.clk then sr.drop 1 ++ [new.data] else sr

/-- The latched row after the pins changed: a rise of LAT takes over the shift register. -/
def latched (old new : Pins) (sr lr : List (BitVec 6)) : List (BitVec 6) :=
  if !old.lat && new.lat then sr else lr

theorem shifted_of_low (old : Pins) {new : Pins} (sr : List (BitVec 6)) (h : new.clk = false) : shifted old new sr = sr := by
  simp [shifted, h]

theorem shifted_of_rise {old new : Pins} (sr : List (BitVec 6)) (hold : old.clk = false) (hnew : new.clk = true) :
    shifted old new sr = sr.drop 1 ++ [new.data] := by
  simp [shifted, hold, hnew]

theorem latched_of_low (old : Pins) {new : Pins} (sr lr : List (BitVec 6)) (h : new.lat = false) :
    latched old new sr lr = lr := by
  simp [latched, h]

theorem latched_of_rise {old new : Pins} (sr lr : List (BitVec 6)) (hold : old.lat = false) (hnew : new.lat = true) :
    latched old new sr lr = sr := by
  simp [latched, hold, hnew]

/-- A shift keeps the newest `n` entries and adds one. -/
theorem drop_shift {α : Type} {l : List α} {n : Nat} (a : α) (hn : n < l.length) :
    (l.drop 1 ++ [a]).drop (l.length - (n + 1)) = l.drop (l.length - n) ++ [a] := by
  rw [List.drop_append_of_le_length (by simp; omega), List.drop_drop]
  congr 2
  omega

section
variable {s t : State} {sr lr : List (BitVec 6)} (hs : Inv s)
include hs

theorem Inv.clk_eq_false (h : s.phase ≠ .clkl) : s.pins.clk = false := by
  rwa [← Bool.not_eq_true, hs.pulse.clk]

theorem Inv.lat_eq_false (h : s.phase ≠ .latl) : s.pins.lat = false := by
  rwa [← Bool.not_eq_true, hs.pulse.lat]

theorem MicroStep.length_shifted (hlength : sr.length = s.cfg.width) (h : MicroStep s t) :
    (shifted s.pins t.pins sr).length = t.cfg.width := by
  have hwidth := hs.config.width
  rw [h.cfg, shifted]
  split
  · simp [hlength]
    omega
  · exact hlength

/-- DATA presents the bits of the current column. -/
theorem Inv.sixbits_eq_columnBits {up lo : Pixel} (h : s.phase = .data)
    (hup : s.pixelAt s.scan s.c.toNat s.r.toNat = some up)
    (hlo : s.pixelAt s.scan s.c.toNat (s.r.toNat + rows s.cfg : Nat) = some lo) (hp : s.p.toNat < s.cfg.colorBits) :
    sixbits s.cfg up lo ⟨s.p.toNat, hp⟩ = s.columnBits s.c.toNat := by
  have hc := hs.counters.column (.inl h)
  have hr := hs.counters.r
  have hrows : rows s.cfg + rows s.cfg ≤ s.cfg.height := by rw [rows]; omega
  have hfront := fun hdbuf => (hs.flags.single hdbuf).1
  rw [State.columnBits, dif_pos hp, Option.some.inj (hup.symm.trans (State.pixelAt_scan hfront hc (by omega))),
    Option.some.inj (hlo.symm.trans (State.pixelAt_scan hfront hc (by omega)))]

/-- Column by column the row is shifted in, and then latched. -/
theorem MicroStep.rowRegisters (hlength : sr.length = s.cfg.width) (hrow : RowRegisters sr lr s) (h : MicroStep s t) :
    RowRegisters (shifted s.pins t.pins sr) (latched s.pins t.pins sr lr) t := by
  have ht := h.inv hs
  cases h with
  | idle h | holdWait h => rw [RowRegisters, h]; trivial
  | plane | blank | holdCancel | oeoffRow | oeoffPlane | oeoffLast | oeon => trivial
  | addr =>
    rw [shifted_of_low _ _ (ht.clk_eq_false (by simp))]
    exact List.drop_eq_nil_of_le hlength.le
  | data up lo h hup hlo hp =>
    simp only [RowRegisters, h] at hrow
    rw [shifted_of_low _ _ (ht.clk_eq_false (by simp))]
    exact ⟨hrow, hs.sixbits_eq_columnBits h hup hlo hp⟩
  | clkh h =>
    have hc := hs.counters.column (.inr (.inl h))
    simp only [RowRegisters, h] at hrow
    obtain ⟨hkept, hdata⟩ := hrow
    rw [← hlength] at hc hkept
    have hshift := drop_shift s.pins.data hc
    rw [hkept, hlength] at hshift
    rw [shifted_of_rise sr (hs.clk_eq_false (by simp [h])) rfl]
    exact hshift.trans (by rw [hdata]; exact (s.firstColumns_succ _).symm)
  | clklColumn h =>
    simp only [RowRegisters, h] at hrow
    rw [← hs.toNat_next_c h] at hrow
    rwa [shifted_of_low _ _ rfl]
  | clklLast h hc =>
    have hlast : s.c.toNat + 1 = s.cfg.width := le_antisymm (hs.counters.column (.inr (.inr h))) hc
    simp only [RowRegisters, h, hlast, Nat.sub_self, List.drop_zero] at hrow
    rwa [shifted_of_low _ _ rfl]
  | lath h =>
    simp only [RowRegisters, h] at hrow
    rwa [latched_of_rise _ _ (hs.lat_eq_false (by simp [h])) rfl]
  | latl h =>
    simp only [RowRegisters, h] at hrow
    rwa [latched_of_low _ _ _ rfl]

end

/-! ### When a sub-pixel is lit (R216) -/

/-- The row pair that the sub-pixel stands in. -/
def SubPixel.rowPair (cfg : Config) (sp : SubPixel) : Nat := sp.y % rows cfg

/-- The intensity of the sub-pixel in the scan buffer. -/
def State.intensity (s : State) (sp : SubPixel) : Nat :=
  planeIntensity s.cfg (sp.ch.byte (Memory.read s.fb (cellAddr s.cfg s.scan sp.x sp.y)))

/-- From the address step to OEON the pins address the current row. -/
def AddressesRow (s : State) : Prop :=
  s.phase = .data ∨ s.phase = .clkh ∨ s.phase = .clkl ∨ s.phase = .lath ∨ s.phase = .latl ∨ s.phase = .oeon →
    s.pins.addr = s.r

/-- The bits that a column presents are those of its two pixels' intensities (R94). -/
theorem State.columnBits_getLsbD {s : State} (hp : s.p.toNat < s.cfg.colorBits) (x : Nat) (ch : Channel) :
    (s.columnBits x).getLsbD ch.bit = (s.intensity ⟨x, s.r.toNat, ch⟩).testBit s.p.toNat
      ∧ (s.columnBits x).getLsbD (ch.bit + 3) = (s.intensity ⟨x, s.r.toNat + rows s.cfg, ch⟩).testBit s.p.toNat := by
  obtain ⟨h0, h1, h2, h3, h4, h5⟩ := sixbits_bits s.cfg (Memory.read s.fb (cellAddr s.cfg s.scan x s.r.toNat))
    (Memory.read s.fb (cellAddr s.cfg s.scan x (s.r.toNat + rows s.cfg))) ⟨s.p.toNat, hp⟩
  rw [State.columnBits, dif_pos hp]
  cases ch with
  | red => exact ⟨h0, h3⟩
  | green => exact ⟨h1, h4⟩
  | blue => exact ⟨h2, h5⟩

section
variable {s t : State} (hs : Inv s)
include hs

/-- Every row fits the wired address lines (R7, R8). -/
theorem Inv.addressPins_row : addressPins s.cfg s.r = s.r :=
  addressPins_of_fits <| calc
    s.r.toNat < rows s.cfg := hs.counters.r
    _ ≤ 2 ^ addressBits s.cfg := le_two_pow_clog2 _
    _ ≤ 2 ^ s.cfg.nAddr := Nat.pow_le_pow_right (by decide) hs.config.lines

theorem MicroStep.addressesRow (haddr : AddressesRow s) (h : MicroStep s t) : AddressesRow t := by
  cases h with
  | idle | holdWait => exact haddr
  | addr => exact fun _ => hs.addressPins_row
  | data _ _ h | clkh h | clklColumn h | clklLast h | lath h | latl h => exact fun _ => haddr (by simp [h])
  | plane | blank | oeon | holdCancel | oeoffRow | oeoffPlane | oeoffLast => simp [AddressesRow]

theorem Inv.rows_add_rows : rows s.cfg + rows s.cfg = s.cfg.height := by
  have heven := hs.config.even
  unfold rows
  omega

theorem Inv.rowPair_lt (sp : SubPixel) : sp.rowPair s.cfg < rows s.cfg := Nat.mod_lt _ (Nat.zero_lt_of_lt hs.counters.r)

/-- With the current row latched and addressed and the output enabled, the sub-pixel is lit exactly in its row pair, for the bit of its
intensity that is the current bitplane. -/
theorem Panel.lit_eq {pn : Panel} {sp : SubPixel} (hx : sp.x < s.cfg.width) (hy : sp.y < s.cfg.height)
    (hoe : wordOe pn.pins = true) (haddr : wordAddr pn.pins = s.r) (hlr : pn.lr = s.firstColumns s.cfg.width) :
    pn.lit s.cfg sp = (decide (s.r.toNat = sp.rowPair s.cfg) && (s.intensity sp).testBit s.p.toNat) := by
  have hr := hs.counters.r
  have hrows := hs.rows_add_rows
  have hcolumn : pn.column sp.x = s.columnBits sp.x := by
    simp [Panel.column, hlr, State.firstColumns, List.getD, List.getElem?_range hx]
  obtain ⟨hupper, hlower⟩ := State.columnBits_getLsbD hs.counters.p sp.x sp.ch
  rw [Panel.lit, hoe, haddr, hcolumn, hupper, hlower, Bool.true_and]
  obtain ⟨x, y, ch⟩ := sp
  have hpos : rows s.cfg ≠ 0 := by omega
  dsimp only at hy ⊢
  obtain hhalf | hhalf := Nat.lt_or_ge y (rows s.cfg)
  · have hpair : SubPixel.rowPair s.cfg ⟨x, y, ch⟩ = y := Nat.mod_eq_of_lt hhalf
    have hne : s.r.toNat + rows s.cfg ≠ y := by omega
    by_cases heq : s.r.toNat = y
    · subst heq
      simp [hpair, hpos]
    · simp [hpair, heq, hne]
  · obtain ⟨k, rfl⟩ := Nat.exists_eq_add_of_le' hhalf
    have hpair : SubPixel.rowPair s.cfg ⟨x, k + rows s.cfg, ch⟩ = k :=
      (Nat.add_mod_right _ _).trans (Nat.mod_eq_of_lt (by omega))
    have hne : s.r.toNat ≠ k + rows s.cfg := by omega
    by_cases heq : s.r.toNat = k
    · subst heq
      simp [hpair, hpos]
    · simp [hpair, heq, hne]

end

/-! ### The panel along a sequencer step (R214, R216) -/

/-- The panel after the pins changed, where no wait is cut short. -/
def Panel.driven (pn : Panel) (old new : Pins) : Panel :=
  { pn with pins := new.word, sr := shifted old new pn.sr, lr := latched old new pn.sr pn.lr }

section
variable {cfg : Config} {cut : Nat → Nat} {sp : SubPixel} {pn : Panel} {old : Pins}

/-- Pins that stay as they are drive nothing. -/
theorem Panel.driven_self (hpins : pn.pins = old.word) : pn.driven old old = pn := by
  simp [Panel.driven, shifted, latched, ← hpins]

theorem Panel.see_pins_word (new : Pins) (hpins : pn.pins = old.word) (hdark : old.oe = true → pn.waiting = none) :
    pn.see cfg cut sp (.pins new.word) = pn.driven old new := by
  have hcut : (if wordOe pn.pins && !wordOe new.word then pn.cutShort cut else pn) = pn := by
    split
    · next hfall => exact Panel.cutShort_of_none cut (hdark (by simp_all))
    · rfl
  simp only [Panel.see, Panel.seePins, hcut]
  simp [hpins, Panel.driven, shifted, latched]

end

@[simp] theorem Panel.see_refreshDone (cfg : Config) (cut : Nat → Nat) (sp : SubPixel) (pn : Panel) :
    pn.see cfg cut sp .refreshDone = pn := rfl

/-- The panel after a sequencer step of `s` to pins `new`: the pins are driven, and in OEON a wait is armed. -/
def Panel.afterStep (cut : Nat → Nat) (sp : SubPixel) (pn : Panel) (s : State) (new : Pins) : Panel :=
  if s.phase = .oeon then (pn.driven s.pins new).see s.cfg cut sp (.wait s.hold) else pn.driven s.pins new

/-- What the panel sees of a sequencer step that is no cancel step. -/
theorem MicroStep.watch {s t : State} {cut : Nat → Nat} {sp : SubPixel} {pn : Panel}
    (hcancel : s.cancelPending = false) (hpins : pn.pins = s.pins.word)
    (hdark : s.phase ≠ .hold → s.pins.oe = true → pn.waiting = none) (h : MicroStep s t) :
    ∃ events, t.trace = events ++ s.trace
      ∧ Panel.watch s.cfg cut sp pn events = pn.afterStep cut sp s t.pins := by
  cases h with
  | holdCancel _ hset => cases hcancel.symm.trans hset
  | idle h | holdWait h | plane h => exact ⟨[], rfl, by simp [Panel.afterStep, h, Panel.driven_self hpins]⟩
  | blank h | addr h | data _ _ h | clkh h | clklColumn h | clklLast h | lath h | latl h | oeoffRow h | oeoffPlane h =>
    exact ⟨[.pins _], rfl,
      by simp [Panel.afterStep, h, Panel.see_pins_word _ hpins (hdark (by simp [h]))]⟩
  | oeon h =>
    exact ⟨[.wait s.hold, .pins _], rfl,
      by simp [-Panel.see_wait, Panel.afterStep, h, Panel.see_pins_word _ hpins (hdark (by simp [h]))]⟩
  | oeoffLast h =>
    exact ⟨[.refreshDone, .pins _], rfl,
      by simp [Panel.afterStep, h, Panel.see_pins_word _ hpins (hdark (by simp [h]))]⟩

/-! ### The exposure along a refresh (R217) -/

/-- 1 if `row` is among the first `n` rows. -/
def amongFirst (row n : Nat) : Nat := if row < n then 1 else 0

theorem amongFirst_succ (row n : Nat) : amongFirst row (n + 1) = amongFirst row n + if n = row then 1 else 0 := by
  unfold amongFirst
  split_ifs <;> omega

/-- In how many bitplanes the wait of row pair `row` is requested by now. -/
def planesShown (s : State) (row : Nat) : Nat :=
  match s.phase with
  | .idle => s.cfg.colorBits
  | .plane => s.p.toNat
  | .hold => s.p.toNat + amongFirst row (s.r.toNat + 1)
  | .oeoff => s.p.toNat + amongFirst row (s.r.toNat + 1)
  | _ => s.p.toNat + amongFirst row s.r.toNat

/-- OEON requests the wait of the current row pair, and no other step shows a row pair in another bitplane. -/
theorem MicroStep.planesShown_eq {s t : State} {row : Nat} (hs : Inv s) (hcancel : s.cancelPending = false)
    (hrow : row < rows s.cfg) (h : MicroStep s t) :
    planesShown t row = planesShown s row + if s.phase = .oeon then (if s.r.toNat = row then 1 else 0) else 0 := by
  have hr := hs.counters.r
  have hp := hs.counters.p
  cases h with
  | idle h | holdWait h => simp [h]
  | holdCancel _ hset => cases hcancel.symm.trans hset
  | plane h => simp [planesShown, h, amongFirst]
  | blank h | addr h | data _ _ h | clkh h | clklColumn h | clklLast h | lath h | latl h => simp [planesShown, h]
  | oeon h => simp [planesShown, h, amongFirst_succ, Nat.add_assoc]
  | oeoffRow h hlt => simp [planesShown, h, hs.toNat_next_r hlt, -BitVec.toNat_ofNat]
  | oeoffPlane h hlast hlt =>
    have hshown : row < s.r.toNat + 1 := hrow.trans_le hlast
    simp [planesShown, h, hs.toNat_next_p hlt, amongFirst, hshown, -BitVec.toNat_ofNat]
  | oeoffLast h hlast hend =>
    have hshown : row < s.r.toNat + 1 := hrow.trans_le hlast
    have hplanes : s.cfg.colorBits = s.p.toNat + 1 := le_antisymm hend hp
    simp [planesShown, h, amongFirst, hshown, hplanes]

/-- The lit time once the wait in flight, if there is one, has run to its end. -/
def Panel.promised (pn : Panel) (s : State) : Nat :=
  match s.phase with
  | .hold => pn.litTime + pn.waiting.getD 0
  | _ => pn.litTime

theorem Panel.promised_of_hold {pn : Panel} {s : State} (h : s.phase = .hold) :
    pn.promised s = pn.litTime + pn.waiting.getD 0 := by
  rw [Panel.promised, h]

theorem Panel.promised_of_ne_hold {pn : Panel} {s : State} (h : s.phase ≠ .hold) : pn.promised s = pn.litTime := by
  rw [Panel.promised]
  split
  · next hhold => exact absurd hhold h
  · rfl

/-- What the sub-pixel's row pair has been lit for, or has been promised, in the bitplanes shown by now. -/
def exposure (s : State) (sp : SubPixel) : Nat :=
  s.intensity sp % 2 ^ planesShown s (sp.rowPair s.cfg) * scaledUnit s.unit s.bri

/-- The panel `pn` has seen the trace of `s` since a refresh began, when the lit time was `lit₀`. -/
structure Panel.Follows (lit₀ : Nat) (sp : SubPixel) (s : State) (pn : Panel) : Prop where
  pins : pn.pins = s.pins.word
  length : pn.sr.length = s.cfg.width
  registers : RowRegisters pn.sr pn.lr s
  addr : AddressesRow s
  dark : s.phase = .oeoff → pn.waiting = none
  lit : pn.promised s = lit₀ + exposure s sp

/-- One more bitplane adds the weight of its bit. -/
theorem mod_two_pow_succ_mul (x p su : Nat) :
    x % 2 ^ (p + 1) * su = x % 2 ^ p * su + if x.testBit p then 2 ^ p * su else 0 := by
  rw [Nat.mod_pow_succ, ← Nat.toNat_testBit, Nat.add_mul]
  cases x.testBit p <;> simp

section
variable {lit₀ : Nat} {cut : Nat → Nat} {sp : SubPixel} {s t : State} {pn : Panel} (hs : Inv s)
include hs

/-- OEON lights the sub-pixel exactly in its row pair and for its bit. -/
theorem Panel.Follows.lit_of_oeon (hx : sp.x < s.cfg.width) (hy : sp.y < s.cfg.height) (hoeon : s.phase = .oeon)
    (h : pn.Follows lit₀ sp s) :
    (pn.driven s.pins { s.pins with oe := true }).lit s.cfg sp
      = (decide (s.r.toNat = sp.rowPair s.cfg) && (s.intensity sp).testBit s.p.toNat) := by
  have hregisters := h.registers
  simp only [RowRegisters, hoeon] at hregisters
  have hlr := latched_of_low s.pins (new := { s.pins with oe := true }) pn.sr pn.lr (hs.lat_eq_false (by simp [hoeon]))
  have haddr := h.addr (by simp [hoeon])
  exact Panel.lit_eq hs hx hy (wordOe_word _) ((wordAddr_word _).trans haddr) (hlr.trans hregisters)

omit hs in
/-- What the picture and SU depend on is the host's to write. -/
theorem MicroStep.intensity_eq (h : MicroStep s t) (sp : SubPixel) : t.intensity sp = s.intensity sp := by
  have hkept := h.hostWritten
  simp only [State.intensity, State.scan, h.cfg, State.hostWritten_front hkept, State.hostWritten_fb hkept]

omit hs in
theorem MicroStep.scaledUnit_eq (h : MicroStep s t) : scaledUnit t.unit t.bri = scaledUnit s.unit s.bri := by
  have hkept := h.hostWritten
  simp only [State.hostWritten, Prod.mk.injEq] at hkept
  rw [hkept.1, hkept.2.1]

/-- OEON promises the weight of its bitplane to the lit sub-pixels of its row pair. -/
theorem Panel.Follows.promised_of_oeon (hx : sp.x < s.cfg.width) (hy : sp.y < s.cfg.height) (hoeon : s.phase = .oeon)
    (hlength : s.hold = holdLength s.unit s.bri s.p) (hcancel : s.cancelPending = false) (hstep : MicroStep s t)
    (h : pn.Follows lit₀ sp s) : (pn.afterStep cut sp s t.pins).promised t = lit₀ + exposure t sp := by
  have hpins : t.pins = { s.pins with oe := true } := by
    have hrun := hstep.exec_microOp
    rw [hoeon] at hrun
    exact Host.Outcome.next.inj ((exec_oeon hoeon).symm.trans hrun) ▸ rfl
  have hbefore : pn.litTime = lit₀ + exposure s sp := (Panel.promised_of_ne_hold (by simp [hoeon])).symm.trans h.lit
  have hhold : t.phase = .hold := (hstep.phase_eq_hold_iff hcancel).2 (.inr hoeon)
  rw [Panel.promised_of_hold hhold, Panel.afterStep, if_pos hoeon, Panel.see_wait, hpins, h.lit_of_oeon hs hx hy hoeon,
    exposure, hstep.intensity_eq, hstep.scaledUnit_eq, hstep.cfg,
    hstep.planesShown_eq hs hcancel (hs.rowPair_lt sp), if_pos hoeon]
  rw [exposure] at hbefore
  by_cases hrow : s.r.toNat = sp.rowPair s.cfg
  · have hshown : planesShown s (sp.rowPair s.cfg) = s.p.toNat := by simp [planesShown, hoeon, amongFirst, ← hrow]
    rw [hshown] at hbefore
    rw [if_pos hrow, hshown, mod_two_pow_succ_mul, ← Nat.add_assoc, ← hbefore, hlength, holdLength_toNat]
    simp [hrow, Panel.driven]
  · simpa [hrow, Panel.driven] using hbefore

/-- No other step promises light. -/
theorem Panel.Follows.promised_of_ne_oeon (hoeon : s.phase ≠ .oeon) (hcancel : s.cancelPending = false)
    (hstep : MicroStep s t) (h : pn.Follows lit₀ sp s) :
    (pn.afterStep cut sp s t.pins).promised t = lit₀ + exposure t sp := by
  have hpromised : (pn.driven s.pins t.pins).promised t = pn.promised s := by
    have hphase := hstep.phase_eq_hold_iff hcancel
    by_cases hhold : s.phase = .hold
    · rw [Panel.promised_of_hold hhold, Panel.promised_of_hold (hphase.2 (.inl hhold))]
      rfl
    · rw [Panel.promised_of_ne_hold hhold, Panel.promised_of_ne_hold (mt hphase.1 (not_or.2 ⟨hhold, hoeon⟩))]
      rfl
  rw [Panel.afterStep, if_neg hoeon, hpromised, h.lit, exposure, exposure, hstep.intensity_eq, hstep.scaledUnit_eq,
    hstep.cfg, hstep.planesShown_eq hs hcancel (hs.rowPair_lt sp), if_neg hoeon, Nat.add_zero]

theorem Panel.Follows.microStep (hx : sp.x < s.cfg.width) (hy : sp.y < s.cfg.height)
    (hlength : s.phase = .oeon → s.hold = holdLength s.unit s.bri s.p) (hcancel : s.cancelPending = false)
    (hstep : MicroStep s t) (h : pn.Follows lit₀ sp s) : (pn.afterStep cut sp s t.pins).Follows lit₀ sp t := by
  have hpins : (pn.afterStep cut sp s t.pins).pins = t.pins.word := by rw [Panel.afterStep]; split <;> rfl
  have hsr : (pn.afterStep cut sp s t.pins).sr = shifted s.pins t.pins pn.sr := by rw [Panel.afterStep]; split <;> rfl
  have hlr : (pn.afterStep cut sp s t.pins).lr = latched s.pins t.pins pn.sr pn.lr := by rw [Panel.afterStep]; split <;> rfl
  exact {
    pins := hpins
    length := hsr ▸ hstep.length_shifted hs h.length
    registers := by rw [hsr, hlr]; exact hstep.rowRegisters hs h.length h.registers
    addr := hstep.addressesRow hs h.addr
    dark := fun hoeoff => absurd hoeoff hstep.phase_ne_oeoff
    lit := by
      by_cases hoeon : s.phase = .oeon
      · exact h.promised_of_oeon hs hx hy hoeon (hlength hoeon) hcancel hstep
      · exact h.promised_of_ne_oeon hs hoeon hcancel hstep }

end

/-- The timer's completion keeps what OEON promised. -/
theorem Panel.Follows.timerComplete {lit₀ : Nat} {sp : SubPixel} {s : State} {pn : Panel} (cut : Nat → Nat)
    (hhold : s.phase = .hold) (h : pn.Follows lit₀ sp s) :
    (pn.see s.cfg cut sp .waitDone).Follows lit₀ sp s.timerComplete where
  pins := h.pins
  length := h.length
  registers := trivial
  addr := by simp [AddressesRow]
  dark := fun _ => rfl
  lit := by
    have hshown : exposure s.timerComplete sp = exposure s sp := by
      simp only [exposure, planesShown, hhold]
      rfl
    rw [hshown, ← h.lit, Panel.promised_of_hold hhold]
    rfl

/-- Time and the agenda are no part of what a panel sees. -/
theorem Panel.Follows.withNowAgenda {lit₀ : Nat} {sp : SubPixel} {s : State} {pn : Panel} (h : pn.Follows lit₀ sp s)
    (now : Nat) (turns : List Turn) : pn.Follows lit₀ sp { s with now := now, agenda := turns } :=
  ⟨h.pins, h.length, h.registers, h.addr, h.dark, h.lit⟩

/-- From `s` on the trace of `t` is one that `panel` follows, and `t` is in the refresh that `s` began. -/
structure ExposedFrom (cut : Nat → Nat) (sp : SubPixel) (panel : Panel) (s t : State) : Prop where
  refresh : RefreshFrom s t
  watched : ∃ events, t.trace = events ++ s.trace ∧ (Panel.watch s.cfg cut sp panel events).Follows panel.litTime sp t

section
variable {cut : Nat → Nat} {sp : SubPixel} {panel : Panel} {s t u : State}

theorem ExposedFrom.withAgenda (h : ExposedFrom cut sp panel s t) (turns : List Turn) :
    ExposedFrom cut sp panel s { t with agenda := turns } := by
  obtain ⟨events, htrace, hfollows⟩ := h.watched
  exact ⟨h.refresh.withAgenda turns, events, htrace, hfollows.withNowAgenda t.now turns⟩

/-- The events of one more turn, seen after those before. -/
theorem watch_trans {lit₀ : Nat} {events newer : List Event} (htrace : t.trace = events ++ s.trace)
    (hnewer : u.trace = newer ++ t.trace)
    (hfollows : (Panel.watch s.cfg cut sp (Panel.watch s.cfg cut sp panel events) newer).Follows lit₀ sp u) :
    ∃ events, u.trace = events ++ s.trace ∧ (Panel.watch s.cfg cut sp panel events).Follows lit₀ sp u :=
  ⟨newer ++ events, by rw [hnewer, htrace, List.append_assoc], by rwa [Panel.watch_append]⟩

theorem ExposedFrom.microStep (hx : sp.x < s.cfg.width) (hy : sp.y < s.cfg.height) (hstep : MicroStep t u)
    (h : ExposedFrom cut sp panel s t) : ExposedFrom cut sp panel s u := by
  obtain ⟨hrefresh, events, htrace, hfollows⟩ := h
  refine ⟨hrefresh.microStep hstep, ?_⟩
  have ht := hrefresh.inv
  have hdark : t.phase ≠ .hold → t.pins.oe = true → (Panel.watch s.cfg cut sp panel events).waiting = none :=
    fun hhold hoe => hfollows.dark ((ht.oe.oe.1 hoe).resolve_left hhold)
  have hlength : t.phase = .oeon → t.hold = holdLength t.unit t.bri t.p := fun hoeon => by
    rw [hrefresh.unit, hrefresh.bri]
    exact hrefresh.hold (by simp [hoeon]) (by simp [hoeon])
  obtain ⟨newer, hnewer, hwatch⟩ := hstep.watch (cut := cut) (sp := sp) hrefresh.noCancel hfollows.pins hdark
  rw [← hrefresh.cfg] at hx hy
  rw [hrefresh.cfg] at hwatch
  exact watch_trans htrace hnewer (hwatch ▸ hfollows.microStep ht hx hy hlength hrefresh.noCancel hstep)

theorem ExposedFrom.timerComplete (hhold : t.phase = .hold) (h : ExposedFrom cut sp panel s t) :
    ExposedFrom cut sp panel s t.timerComplete := by
  obtain ⟨hrefresh, events, htrace, hfollows⟩ := h
  exact ⟨hrefresh.timerComplete hhold, watch_trans (newer := [.waitDone]) htrace rfl (hfollows.timerComplete cut hhold)⟩

theorem ExposedFrom.takeTurn {τ : Turn} (hx : sp.x < s.cfg.width) (hy : sp.y < s.cfg.height) (hquiet : τ.quiet = true)
    (hturn : takeTurn τ t = .next u) (h : ExposedFrom cut sp panel s t) : ExposedFrom cut sp panel s u := by
  cases τ with
  | host | reset => cases hquiet
  | sequencer => exact h.microStep hx hy (microStep_of_exec hturn)
  | timer =>
    obtain rfl := Host.Outcome.next.inj hturn
    obtain ⟨henabled, hrun⟩ | ⟨-, hrun⟩ := timerTurn_cases t
    all_goals rw [hrun]
    · exact h.timerComplete ((State.timerEnabled_iff t).1 henabled).1
    · exact h
  | tick =>
    obtain ⟨events, htrace, hfollows⟩ := h.watched
    obtain rfl := Host.Outcome.next.inj hturn
    exact ⟨h.refresh.takeTurn hquiet hturn, events, htrace, hfollows.withNowAgenda (t.now + 1) t.agenda⟩

theorem ExposedFrom.start (hs : Inv s) (hidle : s.phase = .idle) (hpins : panel.pins = s.pins.word)
    (hlength : panel.sr.length = s.cfg.width) (h : exec .start s = .next u) : ExposedFrom cut sp panel s u := by
  refine ⟨.start hs hidle h, ?_⟩
  obtain rfl := Host.Outcome.next.inj ((exec_start_of_idle hidle).symm.trans h)
  refine ⟨[.refreshStart _], rfl, hpins, hlength, trivial, by simp [AddressesRow], by simp, ?_⟩
  simp [exposure, planesShown, Panel.promised, Panel.see, Nat.mod_one]

theorem ExposedFrom.runTurns {turns : List Turn} (hx : sp.x < s.cfg.width) (hy : sp.y < s.cfg.height)
    (hquiet : ∀ τ ∈ turns, τ.quiet = true) (hrun : runTurns turns t = .next u) (h : ExposedFrom cut sp panel s t) :
    ExposedFrom cut sp panel s u :=
  runTurns_preserves (fun _ turns h => h.withAgenda turns)
    (fun τ hτ _ _ hturn h => h.takeTurn hx hy (hquiet τ hτ) hturn) hrun h

end

/-- In IDLE every bitplane of the intensity has been shown. -/
theorem exposure_of_idle {s : State} (hs : Inv s) (hidle : s.phase = .idle) (sp : SubPixel) :
    exposure s sp = s.intensity sp * scaledUnit s.unit s.bri := by
  have hshown : planesShown s (sp.rowPair s.cfg) = s.cfg.colorBits := by rw [planesShown, hidle]
  have hlt : s.intensity sp < 2 ^ s.cfg.colorBits := planeIntensity_lt hs.config.gamma _
  rw [exposure, hshown, Nat.mod_eq_of_lt hlt]

/-- The picture of a refresh is the one that START finds in the buffer it scans. -/
theorem intensity_of_refresh {s t u : State} {turns : List Turn} (hidle : s.phase = .idle) (hstart : exec .start s = .next u)
    (hquiet : ∀ τ ∈ turns, τ.quiet = true) (hrun : runTurns turns u = .next t) (sp : SubPixel) :
    t.intensity sp = planeIntensity s.cfg (sp.ch.byte (Memory.read s.fb (cellAddr s.cfg u.front.toNat sp.x sp.y))) := by
  have hkept := runTurns_hostWritten hquiet hrun
  have hcfg : t.cfg = s.cfg := (runTurns_cfg hrun).trans (exec_cfg hstart)
  have hfb : u.fb = s.fb := Host.Outcome.next.inj ((exec_start_of_idle hidle).symm.trans hstart) ▸ rfl
  rw [State.intensity, State.scan, hcfg, State.hostWritten_front hkept, State.hostWritten_fb hkept, hfb]

/-- Settles O59: the panel follows the refresh, which by the time of IDLE has shown every bitplane of the picture it began with. -/
theorem exposureLaw : Obligations.ExposureLaw := by
  intro s u t turns cut sp panel hs hidle hstart hquiet hrun hend hx hy hpins hlength
  obtain ⟨hrefresh, events, htrace, hfollows⟩ :=
    ExposedFrom.runTurns (cut := cut) hx hy hquiet hrun (.start hs hidle hpins hlength hstart)
  have hlit := hfollows.lit
  rw [Panel.promised_of_ne_hold (by simp [hend]), exposure_of_idle hrefresh.inv hend, hrefresh.unit, hrefresh.bri,
    intensity_of_refresh hidle hstart hquiet hrun] at hlit
  exact ⟨events, htrace, hlit⟩

/-! ### Brighter is lit longer (R218) -/

/-- The reference tables put full scale above half scale, the linear one from depth 2 on. -/
theorem referenceTables_fullScale (depth : Nat) (hlow : 1 ≤ depth) (hhigh : depth ≤ 8) :
    (Config.gammaSq depth).getD 128 0 < (Config.gammaSq depth).getD 255 0
      ∧ (Config.gammaLin depth).getD 127 0 < (Config.gammaLin depth).getD 255 0
      ∧ ((Config.gammaLin depth).getD 128 0 < (Config.gammaLin depth).getD 255 0 ↔ 2 ≤ depth) := by
  rw [gammaSq_getD depth 128 (by decide), gammaSq_getD depth 255 (by decide), gammaLin_getD depth 127 (by decide),
    gammaLin_getD depth 128 (by decide), gammaLin_getD depth 255 (by decide)]
  interval_cases depth <;> decide

/-- What one completed refresh adds to a sub-pixel and requests in waits, of the same events. -/
theorem refresh_exposure_and_waits {s u t : State} {turns : List Turn} (cut : Nat → Nat) {sp : SubPixel} {panel : Panel}
    (hs : Inv s) (hidle : s.phase = .idle) (hstart : exec .start s = .next u) (hquiet : ∀ τ ∈ turns, τ.quiet = true)
    (hrun : runTurns turns u = .next t) (hend : t.phase = .idle) (hx : sp.x < s.cfg.width) (hy : sp.y < s.cfg.height)
    (hpins : panel.pins = s.pins.word) (hlength : panel.sr.length = s.cfg.width) :
    ∃ events, t.trace = events ++ s.trace
      ∧ (Panel.watch s.cfg cut sp panel events).litTime - panel.litTime
        = planeIntensity s.cfg (sp.ch.byte (Memory.read s.fb (cellAddr s.cfg u.front.toNat sp.x sp.y)))
          * (s.unit.toNat * s.bri.toNat / 255)
      ∧ waitTotal events = rows s.cfg * (2 ^ s.cfg.colorBits - 1) * (s.unit.toNat * s.bri.toNat / 255) := by
  obtain ⟨events, htrace, hlit⟩ :=
    exposureLaw s u t turns cut sp panel hs hidle hstart hquiet hrun hend hx hy hpins hlength
  obtain ⟨events', htrace', hwaits⟩ := refreshWaitTotal s u t turns hs hidle hstart hquiet hrun hend
  obtain rfl := List.append_cancel_right (htrace.symm.trans htrace')
  exact ⟨events, htrace, by rw [hlit, Nat.add_sub_cancel_left], hwaits⟩

/-- Settles O60: both refreshes have one SU above 0, which the exposures are multiples of, and one total of waits. -/
theorem brighterIsLitStrictlyLonger : Obligations.BrighterIsLitStrictlyLonger := by
  refine ⟨?_, referenceTables_fullScale⟩
  intro s u t s' u' t' turns turns' cut cut' sp sp' panel panel' hs hs' hidle hidle' hstart hstart' hquiet hquiet' hrun hrun'
    hend hend' hcfg hbri hunit hsu hx hy hx' hy' hpins hlength hpins' hlength'
  obtain ⟨events, htrace, hlit, hwaits⟩ :=
    refresh_exposure_and_waits cut hs hidle hstart hquiet hrun hend hx hy hpins hlength
  rw [← hcfg] at hx' hy' hlength'
  obtain ⟨events', htrace', hlit', hwaits'⟩ :=
    refresh_exposure_and_waits cut' hs' hidle' hstart' hquiet' hrun' hend' hx' hy' hpins' hlength'
  rw [hcfg, hbri, hunit] at hlit' hwaits'
  refine ⟨events, events', htrace, htrace', ?_, hwaits.trans hwaits'.symm⟩
  rw [hlit, hlit']
  exact Nat.mul_lt_mul_right hsu

end Sys2Proof.Machine
